-- ==== Sys2Proof/Word.lean ====
section
/-! DEFINITION. The words of the block (00_scope.md R6, R8): plain bit vectors, so that the laws of BitVec apply. -/

namespace Sys2Proof

/-- A register cell's content, CELLW = 64 bits (00_scope.md R6). -/
abbrev Word64 := BitVec 64

/-- A memory word, 32 bits (00_scope.md R6). -/
abbrev Word32 := BitVec 32

/-- A memory address, ADDRW = 32 bits, unsigned (00_scope.md R6). -/
abbrev Addr := BitVec 32

/-- One byte. -/
abbrev Byte := BitVec 8

/-- The field `idx` of a command word: a register number, hart id, instance or configuration index
(30_encoding.md R100). -/
abbrev Index := BitVec 12

/-- An observer's 12-bit id (10_state.md R21, R43). -/
abbrev ObserverId := BitVec 12

/-- The command word CMD128 (30_encoding.md R100). -/
abbrev CommandWord := BitVec 128

end Sys2Proof
end

