-- ==== Sys2Proof/Config.lean ====
section
/-! DEFINITION. The parameters of the block: memory configurations, NHARTS, NINST (00_scope.md R6, R7). -/

namespace Sys2Proof

/-- A Range, the pair of a low and a high address (40_register_cells.md R143). -/
structure Range where
  low  : Addr
  high : Addr
deriving DecidableEq, Repr

/-- The four segments of the address map (20_memory.md R61). -/
inductive Segment where
  | data
  | stack
  | mmio
  | text
deriving DecidableEq, Repr

/-- A memory configuration, one entry of CFGS (00_scope.md R7). `gpOffset` and `externSize` are listed by the source
and read by no rule; their type is the model's choice (log entry 9). -/
structure MemConfig where
  id          : String
  displayName : String
  text        : Range
  data        : Range
  stack       : Range
  mmio        : Range
  heapLow     : Addr
  spReset     : Addr
  gpReset     : Addr
  pcReset     : Addr
  gpOffset    : Nat
  externSize  : Nat
deriving DecidableEq, Repr

/-- The bounds of a segment under a configuration. -/
def MemConfig.range (c : MemConfig) : Segment → Range
  | .data  => c.data
  | .stack => c.stack
  | .mmio  => c.mmio
  | .text  => c.text

/-- The configuration with four empty segments. It stands for CFGS[cur] in a state whose `cur` is no index of CFGS,
which no run reaches (10_state.md R35; `State.Inv`). -/
def MemConfig.nowhere : MemConfig :=
  { id := "", displayName := "", text := ⟨0, 0⟩, data := ⟨0, 0⟩, stack := ⟨0, 0⟩, mmio := ⟨0, 0⟩, heapLow := 0,
    spReset := 0, gpReset := 0, pcReset := 0, gpOffset := 0, externSize := 0 }

/-- A range's bounds are multiples of 4 with low ≤ high, unsigned (00_scope.md R7, 40_register_cells.md R143). -/
def Range.valid (r : Range) : Bool :=
  r.low.toNat % 4 == 0 && r.high.toNat % 4 == 0 && decide (r.low.toNat ≤ r.high.toNat)

/-- The constraints of 00_scope.md R7 on one configuration. -/
def MemConfig.valid (c : MemConfig) : Bool :=
  c.text.valid && c.data.valid && c.stack.valid && c.mmio.valid &&
  (c.heapLow.toNat % 4 == 0 && decide (c.data.low.toNat ≤ c.heapLow.toNat) &&
    decide (c.heapLow.toNat ≤ c.data.high.toNat)) &&
  c.pcReset == c.text.low

/-- The open parameters of 00_scope.md R6: NHARTS, NINST and CFGS. -/
structure Params where
  nharts : Nat
  ninst  : Nat
  cfgs   : List MemConfig
deriving DecidableEq, Repr

/-- The names of the entries 0, 1 and 2 of CFGS (00_scope.md R6). -/
def Config.names : List String := ["Default", "CompactDataAtZero", "CompactTextAtZero"]

/-- Whether a configuration is named n. DESIGN CHOICE (log entry 11): the spec does not say which of the two strings of R7
is the name, so either may carry it. -/
def MemConfig.named (c : MemConfig) (n : String) : Bool := c.id == n || c.displayName == n

/-- The constraints of 00_scope.md R6 and R7 on the parameters: NHARTS ≥ 1, NINST ≥ 1, 1 ≤ NCFG ≤ 4096, every
configuration valid, and the entries 0, 1 and 2, when present, named as R6 says. -/
def Params.valid (p : Params) : Bool :=
  decide (1 ≤ p.nharts) && decide (1 ≤ p.ninst) && decide (1 ≤ p.cfgs.length) && decide (p.cfgs.length ≤ 4096) &&
  p.cfgs.all MemConfig.valid && (p.cfgs.zip Config.names).all fun e => e.1.named e.2

/-- Configuration T of 95_test_vectors.md section 0. DESIGN CHOICE (log entry 11): that section gives no strings; its letter
is the id, and the name R6 gives entry 0 is the displayName. -/
def Config.testT : MemConfig :=
  { id := "T", displayName := "Default",
    text := ⟨0x00400000, 0x00500000⟩, data := ⟨0x10000000, 0x10400000⟩,
    stack := ⟨0x7FC00000, 0x80000000⟩, mmio := ⟨0xFFFF0000, 0xFFFF1000⟩,
    heapLow := 0x10040000, spReset := 0x7FFFEFFC, gpReset := 0x10008000, pcReset := 0x00400000,
    gpOffset := 0, externSize := 0 }

/-- Configuration O of 95_test_vectors.md section 0: overlapping segments, an empty MMIO segment. Its
strings are chosen as those of T (log entry 11). -/
def Config.testO : MemConfig :=
  { id := "O", displayName := "CompactDataAtZero",
    text := ⟨0x00000000, 0x00001000⟩, data := ⟨0x00001000, 0x00003000⟩,
    stack := ⟨0x00002000, 0x00004000⟩, mmio := ⟨0x00004000, 0x00004000⟩,
    heapLow := 0x00002000, spReset := 0x00003FFC, gpReset := 0x00001800, pcReset := 0x00000000,
    gpOffset := 0, externSize := 0 }

/-- The parameters `State.reset` is built with. DESIGN CHOICE (log entry 1): the spec leaves them open; these are the
test parameters of 95_test_vectors.md section 0. No statement about every state rests on them. -/
def Config.params : Params := { nharts := 2, ninst := 2, cfgs := [Config.testT, Config.testO] }

end Sys2Proof
end

