-- ==== Sys2Proof/Syntax.lean ====
section
/-! DEFINITION. The commands of the block, one constructor per row of spec/opcode_table.json (30_encoding.md R107, R112). -/

namespace Sys2Proof

/-- A command with the operands of 30_encoding.md R107 and R108; fields a command does not use are no part of it (R101).
Register numbers, hart ids and indexes are the raw 12-bit numbers of the word: a number that names nothing is a case of
the command's own rule (`absent`, or ILLEGAL_CMD). Lengths are the raw 4-bit field: an illegal length is a case of R110.
The last three are the pseudo-commands of R112, other spellings of real commands. -/
inductive Instr where
  /-- XREAD, op 0x10 (41_integer_file_and_pc.md R150). -/
  | xread (idx : Index)
  /-- XREADQ, op 0x11 (41_integer_file_and_pc.md R151). -/
  | xreadq (idx : Index)
  /-- XWRITE, op 0x12 (41_integer_file_and_pc.md R152). -/
  | xwrite (idx : Index) (data : Word64)
  /-- XWRITEB, op 0x13 (41_integer_file_and_pc.md R153). -/
  | xwriteb (idx : Index) (data : Word64)
  /-- XRESET, op 0x14 (41_integer_file_and_pc.md R154). -/
  | xreset
  /-- XOBSADD, op 0x15 (41_integer_file_and_pc.md R155). -/
  | xobsadd (obs : ObserverId)
  /-- XOBSDEL, op 0x16 (41_integer_file_and_pc.md R156). -/
  | xobsdel (obs : ObserverId)
  /-- PCREADQ, op 0x17 (41_integer_file_and_pc.md R157). -/
  | pcreadq
  /-- PCREAD, op 0x18 (41_integer_file_and_pc.md R158). -/
  | pcread
  /-- PCSET, op 0x19 (41_integer_file_and_pc.md R159). -/
  | pcset (data : Word64)
  /-- PCSETB, op 0x1A (41_integer_file_and_pc.md R160). -/
  | pcsetb (data : Word64)
  /-- PCINC, op 0x1B (41_integer_file_and_pc.md R161). -/
  | pcinc
  /-- PCINITA, op 0x1C (41_integer_file_and_pc.md R162). -/
  | pcinita (data : Word64)
  /-- PCINITM, op 0x1D (41_integer_file_and_pc.md R163). -/
  | pcinitm (defined : Bool) (address : Addr)
  /-- PCOBSADD, op 0x1E (41_integer_file_and_pc.md R164). -/
  | pcobsadd (obs : ObserverId)
  /-- PCOBSDEL, op 0x1F (41_integer_file_and_pc.md R165). -/
  | pcobsdel (obs : ObserverId)
  /-- FREAD32, op 0x20 (42_fp_file.md R170). -/
  | fread32 (idx : Index)
  /-- FREAD64, op 0x21 (42_fp_file.md R171). -/
  | fread64 (idx : Index)
  /-- FREADQ, op 0x22 (42_fp_file.md R172). -/
  | freadq (idx : Index)
  /-- FWRITE32, op 0x23 (42_fp_file.md R173). -/
  | fwrite32 (idx : Index) (value : Word32)
  /-- FWRITE64, op 0x24 (42_fp_file.md R174). -/
  | fwrite64 (idx : Index) (data : Word64)
  /-- FWRITEB, op 0x25 (42_fp_file.md R175). -/
  | fwriteb (idx : Index) (data : Word64)
  /-- FRESET, op 0x26 (42_fp_file.md R176). -/
  | freset
  /-- FOBSADD, op 0x27 (42_fp_file.md R177). -/
  | fobsadd (obs : ObserverId)
  /-- FOBSDEL, op 0x28 (42_fp_file.md R178). -/
  | fobsdel (obs : ObserverId)
  /-- CSRREAD, op 0x30 (43_csr_file.md R185). -/
  | csrread (idx : Index)
  /-- CSRREADQ, op 0x31 (43_csr_file.md R186). -/
  | csrreadq (idx : Index)
  /-- CSRWRITE, op 0x32 (43_csr_file.md R187). -/
  | csrwrite (idx : Index) (data : Word64)
  /-- CSRWRITEB, op 0x33 (43_csr_file.md R188). -/
  | csrwriteb (idx : Index) (data : Word64)
  /-- CSRRESET, op 0x34 (43_csr_file.md R189). -/
  | csrreset
  /-- CSROBSADD, op 0x35 (43_csr_file.md R190). -/
  | csrobsadd (obs : ObserverId)
  /-- CSROBSDEL, op 0x36 (43_csr_file.md R191). -/
  | csrobsdel (obs : ObserverId)
  /-- CSRPOS, op 0x37 (43_csr_file.md R192). -/
  | csrpos (idx : Index)
  /-- GET, op 0x40 (44_memory_access.md R200). -/
  | get (len : BitVec 4) (addr : Addr)
  /-- SET, op 0x41 (44_memory_access.md R201). -/
  | set (len : BitVec 4) (addr : Addr) (value : Word32)
  /-- GETWORD, op 0x42 (44_memory_access.md R202). -/
  | getword (addr : Addr)
  /-- SETWORD, op 0x43 (44_memory_access.md R203). -/
  | setword (addr : Addr) (value : Word32)
  /-- GETHALF, op 0x44 (44_memory_access.md R204). -/
  | gethalf (addr : Addr)
  /-- SETHALF, op 0x45 (44_memory_access.md R205). -/
  | sethalf (addr : Addr) (value : BitVec 16)
  /-- GETRAWWORD, op 0x46 (44_memory_access.md R206). -/
  | getrawword (addr : Addr)
  /-- SETRAWWORD, op 0x47 (44_memory_access.md R207). -/
  | setrawword (addr : Addr) (value : Word32)
  /-- GETRAWWORDORNULL, op 0x48 (44_memory_access.md R208). -/
  | getrawwordornull (addr : Addr)
  /-- FETCH, op 0x49 (44_memory_access.md R209). -/
  | fetch (addr : Addr)
  /-- INSTALL, op 0x4A (44_memory_access.md R210). -/
  | install (addr : Addr) (value : Word32)
  /-- ALLOC, op 0x4B (45_memory_management.md R230). -/
  | alloc (size : Word32)
  /-- FIRSTNULL, op 0x4C (45_memory_management.md R231). -/
  | firstnull (base : Addr) (limit : Addr)
  /-- MEMCLEAR, op 0x4D (45_memory_management.md R232). -/
  | memclear
  /-- COPYFROM, op 0x4E (45_memory_management.md R233). -/
  | copyfrom (inst : Index)
  /-- SWAPINST, op 0x4F (45_memory_management.md R234). -/
  | swapinst (inst : Index)
  /-- OBSADD, op 0x50 (45_memory_management.md R235). -/
  | obsadd (obs : ObserverId) (start : Addr) (stop : Addr)
  /-- OBSDEL, op 0x51 (45_memory_management.md R236). -/
  | obsdel (obs : ObserverId)
  /-- SETCONFIG, op 0x52 (45_memory_management.md R238). -/
  | setconfig (cfg : Index)
  /-- RESERVE, op 0x60 (46_reservation.md R252). -/
  | reserve (hart : Index) (len : BitVec 4) (addr : Addr)
  /-- UNRESERVE, op 0x61 (46_reservation.md R253). -/
  | unreserve (hart : Index) (len : BitVec 4) (addr : Addr)
  /-- RSVRESET, op 0x62 (46_reservation.md R255). -/
  | rsvreset
  /-- GETBYTE, the spelling `GET addr, 1` (30_encoding.md R112). -/
  | getbyte (addr : Addr)
  /-- SETBYTE, the spelling `SET addr, 1, v` (30_encoding.md R112). -/
  | setbyte (addr : Addr) (value : Word32)
  /-- OBSADD1, the spelling `OBSADD o, addr, addr` (30_encoding.md R112). -/
  | obsadd1 (obs : ObserverId) (addr : Addr)
deriving DecidableEq, Repr

end Sys2Proof
end

