-- ==== Sys2Proof/WellFormed.lean ====
section
/-! DEFINITION. Which commands have legal operand values of their own, whatever the parameters (30_encoding.md R110): the
lengths. A command with an illegal length still runs: it is answered with ILLEGAL_CMD. -/

namespace Sys2Proof

/-- The length of GET and SET is 1, 2 or 4 (20_memory.md R71, 30_encoding.md R110). -/
def accessLength (len : BitVec 4) : Bool := len == 1 || len == 2 || len == 4

/-- The length of RESERVE and UNRESERVE is 4 (word) or 8 (doubleword) (30_encoding.md R108, R110). -/
def reservationLength (len : BitVec 4) : Bool := len == 4 || len == 8

/-- A command whose length operand is legal. Every other field is legal at every value its width admits, or its
legality depends on NHARTS, NINST or NCFG and is checked when the command executes (30_encoding.md R108, R110). -/
def Instr.wellFormed : Instr → Bool
  | .get len _ => accessLength len
  | .set len _ _ => accessLength len
  | .reserve _ len _ => reservationLength len
  | .unreserve _ len _ => reservationLength len
  | _ => true

end Sys2Proof
end

