-- ==== Sys2Proof/Decode.lean ====
section
/-! DEFINITION. The command word: its fields, the decoder, and after it the encoder (30_encoding.md R100, R101, R107 to
R109, R112). The decoder is total and rejects by name. -/

namespace Sys2Proof

/-- Field `op`, bits 127:120 (30_encoding.md R100). -/
def opField (w : CommandWord) : BitVec 8 := w.extractLsb' 120 8

/-- Field `len`, bits 119:116. -/
def lenField (w : CommandWord) : BitVec 4 := w.extractLsb' 116 4

/-- Field `idx`, bits 115:104. -/
def idxField (w : CommandWord) : BitVec 12 := w.extractLsb' 104 12

/-- Field `addr`, bits 95:64. -/
def addrField (w : CommandWord) : Addr := w.extractLsb' 64 32

/-- Field `data`, bits 63:0. -/
def dataField (w : CommandWord) : Word64 := w.extractLsb' 0 64

/-- data[31:0] (30_encoding.md R108). -/
def data32Field (w : CommandWord) : Word32 := w.extractLsb' 0 32

/-- data[15:0], SETHALF's operand (30_encoding.md R108). -/
def data16Field (w : CommandWord) : BitVec 16 := w.extractLsb' 0 16

/-- data[32], PCINITM's main_defined (30_encoding.md R108). -/
def mainDefinedField (w : CommandWord) : Bool := w.getLsbD 32

/-- Why the decoder rejects a word: its `op` is reserved (30_encoding.md R109). The only other illegal commands, illegal
operand values (R110), decode and are answered by the command's own check. -/
inductive DecodeReject where
  | reservedOpcode (op : BitVec 8)
deriving DecidableEq, Repr

/-- The opcode map of 30_encoding.md R107: `op` is the only matched field. A pseudo-command is never answered: the real
rows are tried first (R112). -/
def decode (w : CommandWord) : Except DecodeReject Instr :=
  match (opField w).toNat with
  | 0x10 => .ok (.xread (idxField w))
  | 0x11 => .ok (.xreadq (idxField w))
  | 0x12 => .ok (.xwrite (idxField w) (dataField w))
  | 0x13 => .ok (.xwriteb (idxField w) (dataField w))
  | 0x14 => .ok .xreset
  | 0x15 => .ok (.xobsadd (idxField w))
  | 0x16 => .ok (.xobsdel (idxField w))
  | 0x17 => .ok .pcreadq
  | 0x18 => .ok .pcread
  | 0x19 => .ok (.pcset (dataField w))
  | 0x1A => .ok (.pcsetb (dataField w))
  | 0x1B => .ok .pcinc
  | 0x1C => .ok (.pcinita (dataField w))
  | 0x1D => .ok (.pcinitm (mainDefinedField w) (data32Field w))
  | 0x1E => .ok (.pcobsadd (idxField w))
  | 0x1F => .ok (.pcobsdel (idxField w))
  | 0x20 => .ok (.fread32 (idxField w))
  | 0x21 => .ok (.fread64 (idxField w))
  | 0x22 => .ok (.freadq (idxField w))
  | 0x23 => .ok (.fwrite32 (idxField w) (data32Field w))
  | 0x24 => .ok (.fwrite64 (idxField w) (dataField w))
  | 0x25 => .ok (.fwriteb (idxField w) (dataField w))
  | 0x26 => .ok .freset
  | 0x27 => .ok (.fobsadd (idxField w))
  | 0x28 => .ok (.fobsdel (idxField w))
  | 0x30 => .ok (.csrread (idxField w))
  | 0x31 => .ok (.csrreadq (idxField w))
  | 0x32 => .ok (.csrwrite (idxField w) (dataField w))
  | 0x33 => .ok (.csrwriteb (idxField w) (dataField w))
  | 0x34 => .ok .csrreset
  | 0x35 => .ok (.csrobsadd (idxField w))
  | 0x36 => .ok (.csrobsdel (idxField w))
  | 0x37 => .ok (.csrpos (idxField w))
  | 0x40 => .ok (.get (lenField w) (addrField w))
  | 0x41 => .ok (.set (lenField w) (addrField w) (data32Field w))
  | 0x42 => .ok (.getword (addrField w))
  | 0x43 => .ok (.setword (addrField w) (data32Field w))
  | 0x44 => .ok (.gethalf (addrField w))
  | 0x45 => .ok (.sethalf (addrField w) (data16Field w))
  | 0x46 => .ok (.getrawword (addrField w))
  | 0x47 => .ok (.setrawword (addrField w) (data32Field w))
  | 0x48 => .ok (.getrawwordornull (addrField w))
  | 0x49 => .ok (.fetch (addrField w))
  | 0x4A => .ok (.install (addrField w) (data32Field w))
  | 0x4B => .ok (.alloc (data32Field w))
  | 0x4C => .ok (.firstnull (addrField w) (data32Field w))
  | 0x4D => .ok .memclear
  | 0x4E => .ok (.copyfrom (idxField w))
  | 0x4F => .ok (.swapinst (idxField w))
  | 0x50 => .ok (.obsadd (idxField w) (addrField w) (data32Field w))
  | 0x51 => .ok (.obsdel (idxField w))
  | 0x52 => .ok (.setconfig (idxField w))
  | 0x60 => .ok (.reserve (idxField w) (lenField w) (addrField w))
  | 0x61 => .ok (.unreserve (idxField w) (lenField w) (addrField w))
  | 0x62 => .ok .rsvreset
  | _ => .error (.reservedOpcode (opField w))

/-- The decoder on an instruction whose bits are w, numbered as spec/opcode_table.json numbers them; the bits from
nbits on are 0. A command is one 128-bit word, so its bits are the word. -/
def decodeTableWord (nbits w : Nat) : Option Instr :=
  match decode (BitVec.ofNat 128 (w % 2 ^ nbits)) with
  | .ok i => some i
  | .error _ => none

/-- The real command a pseudo-command spells (30_encoding.md R112); every other command is itself. -/
def Instr.canonical : Instr → Instr
  | .getbyte addr => .get 1 addr
  | .setbyte addr value => .set 1 addr value
  | .obsadd1 obs addr => .obsadd obs addr addr
  | i => i

/-- CMD = {op, len, idx, rsv, addr, data} with rsv written as 0 (30_encoding.md R100), each field shifted to its place
(95_test_vectors.md section 0). -/
def packCommand (op : BitVec 8) (len : BitVec 4) (idx : BitVec 12) (addr : Addr) (data : Word64) : CommandWord :=
  op.setWidth 128 <<< 120 ||| len.setWidth 128 <<< 116 ||| idx.setWidth 128 <<< 104 ||| addr.setWidth 128 <<< 64 |||
    data.setWidth 128

/-- PCINITM's operand: data[32] = main_defined, data[31:0] = main_address (30_encoding.md R108). -/
def mainOperand (defined : Bool) (address : Addr) : Word64 :=
  (BitVec.ofBool defined).setWidth 64 <<< 32 ||| address.setWidth 64

/-- The canonical encoder: the fields a command uses as 30_encoding.md R107 lists them, every unused field 0 (R101). -/
def encode : Instr → CommandWord
  | .xread idx => packCommand 0x10 0 idx 0 0
  | .xreadq idx => packCommand 0x11 0 idx 0 0
  | .xwrite idx data => packCommand 0x12 0 idx 0 data
  | .xwriteb idx data => packCommand 0x13 0 idx 0 data
  | .xreset => packCommand 0x14 0 0 0 0
  | .xobsadd obs => packCommand 0x15 0 obs 0 0
  | .xobsdel obs => packCommand 0x16 0 obs 0 0
  | .pcreadq => packCommand 0x17 0 0 0 0
  | .pcread => packCommand 0x18 0 0 0 0
  | .pcset data => packCommand 0x19 0 0 0 data
  | .pcsetb data => packCommand 0x1A 0 0 0 data
  | .pcinc => packCommand 0x1B 0 0 0 0
  | .pcinita data => packCommand 0x1C 0 0 0 data
  | .pcinitm defined address => packCommand 0x1D 0 0 0 (mainOperand defined address)
  | .pcobsadd obs => packCommand 0x1E 0 obs 0 0
  | .pcobsdel obs => packCommand 0x1F 0 obs 0 0
  | .fread32 idx => packCommand 0x20 0 idx 0 0
  | .fread64 idx => packCommand 0x21 0 idx 0 0
  | .freadq idx => packCommand 0x22 0 idx 0 0
  | .fwrite32 idx value => packCommand 0x23 0 idx 0 (value.setWidth 64)
  | .fwrite64 idx data => packCommand 0x24 0 idx 0 data
  | .fwriteb idx data => packCommand 0x25 0 idx 0 data
  | .freset => packCommand 0x26 0 0 0 0
  | .fobsadd obs => packCommand 0x27 0 obs 0 0
  | .fobsdel obs => packCommand 0x28 0 obs 0 0
  | .csrread idx => packCommand 0x30 0 idx 0 0
  | .csrreadq idx => packCommand 0x31 0 idx 0 0
  | .csrwrite idx data => packCommand 0x32 0 idx 0 data
  | .csrwriteb idx data => packCommand 0x33 0 idx 0 data
  | .csrreset => packCommand 0x34 0 0 0 0
  | .csrobsadd obs => packCommand 0x35 0 obs 0 0
  | .csrobsdel obs => packCommand 0x36 0 obs 0 0
  | .csrpos idx => packCommand 0x37 0 idx 0 0
  | .get len addr => packCommand 0x40 len 0 addr 0
  | .set len addr value => packCommand 0x41 len 0 addr (value.setWidth 64)
  | .getword addr => packCommand 0x42 0 0 addr 0
  | .setword addr value => packCommand 0x43 0 0 addr (value.setWidth 64)
  | .gethalf addr => packCommand 0x44 0 0 addr 0
  | .sethalf addr value => packCommand 0x45 0 0 addr (value.setWidth 64)
  | .getrawword addr => packCommand 0x46 0 0 addr 0
  | .setrawword addr value => packCommand 0x47 0 0 addr (value.setWidth 64)
  | .getrawwordornull addr => packCommand 0x48 0 0 addr 0
  | .fetch addr => packCommand 0x49 0 0 addr 0
  | .install addr value => packCommand 0x4A 0 0 addr (value.setWidth 64)
  | .alloc size => packCommand 0x4B 0 0 0 (size.setWidth 64)
  | .firstnull base limit => packCommand 0x4C 0 0 base (limit.setWidth 64)
  | .memclear => packCommand 0x4D 0 0 0 0
  | .copyfrom inst => packCommand 0x4E 0 inst 0 0
  | .swapinst inst => packCommand 0x4F 0 inst 0 0
  | .obsadd obs start stop => packCommand 0x50 0 obs start (stop.setWidth 64)
  | .obsdel obs => packCommand 0x51 0 obs 0 0
  | .setconfig cfg => packCommand 0x52 0 cfg 0 0
  | .reserve hart len addr => packCommand 0x60 len hart addr 0
  | .unreserve hart len addr => packCommand 0x61 len hart addr 0
  | .rsvreset => packCommand 0x62 0 0 0 0
  | .getbyte addr => packCommand 0x40 1 0 addr 0
  | .setbyte addr value => packCommand 0x41 1 0 addr (value.setWidth 64)
  | .obsadd1 obs addr => packCommand 0x50 0 obs addr (addr.setWidth 64)

/-- The bits of a command word that a command uses: `op` and the fields of its row (30_encoding.md R107, column "fields
used"). -/
def usedBits : Instr → CommandWord
  | .xread _ | .xreadq _ | .xobsadd _ | .xobsdel _
  | .pcobsadd _ | .pcobsdel _ | .fread32 _ | .fread64 _
  | .freadq _ | .fobsadd _ | .fobsdel _ | .csrread _
  | .csrreadq _ | .csrobsadd _ | .csrobsdel _ | .csrpos _
  | .copyfrom _ | .swapinst _ | .obsdel _ | .setconfig _ => 0xFF0FFF00_00000000_00000000_00000000
  | .xwrite _ _ | .xwriteb _ _ | .fwrite64 _ _ | .fwriteb _ _
  | .csrwrite _ _ | .csrwriteb _ _ => 0xFF0FFF00_00000000_FFFFFFFF_FFFFFFFF
  | .xreset | .pcreadq | .pcread | .pcinc
  | .freset | .csrreset | .memclear | .rsvreset => 0xFF000000_00000000_00000000_00000000
  | .pcset _ | .pcsetb _ | .pcinita _ => 0xFF000000_00000000_FFFFFFFF_FFFFFFFF
  | .pcinitm _ _ => 0xFF000000_00000000_00000001_FFFFFFFF
  | .fwrite32 _ _ => 0xFF0FFF00_00000000_00000000_FFFFFFFF
  | .get _ _ => 0xFFF00000_FFFFFFFF_00000000_00000000
  | .set _ _ _ => 0xFFF00000_FFFFFFFF_00000000_FFFFFFFF
  | .getword _ | .gethalf _ | .getrawword _ | .getrawwordornull _
  | .fetch _ => 0xFF000000_FFFFFFFF_00000000_00000000
  | .setword _ _ | .setrawword _ _ | .install _ _ | .firstnull _ _ => 0xFF000000_FFFFFFFF_00000000_FFFFFFFF
  | .sethalf _ _ => 0xFF000000_FFFFFFFF_00000000_0000FFFF
  | .alloc _ => 0xFF000000_00000000_00000000_FFFFFFFF
  | .obsadd _ _ _ => 0xFF0FFF00_FFFFFFFF_00000000_FFFFFFFF
  | .reserve _ _ _ | .unreserve _ _ _ => 0xFFFFFF00_FFFFFFFF_00000000_00000000
  | .getbyte _ => 0xFFF00000_FFFFFFFF_00000000_00000000
  | .setbyte _ _ => 0xFFF00000_FFFFFFFF_00000000_FFFFFFFF
  | .obsadd1 _ _ => 0xFF0FFF00_FFFFFFFF_00000000_FFFFFFFF

end Sys2Proof
end

