-- ==== Sys2Proof/Machine/Layout.lean ====
section
/-! DEFINITION. The address map of a configuration: classification, segment-relative indexes, table lengths
(00_scope.md R7, 10_state.md R38, R39, 20_memory.md R61, R62, 40_register_cells.md R143). -/

namespace Sys2Proof.Machine

/-- `contains(r, a)`, the half-open test (40_register_cells.md R143). -/
def rangeContains (r : Range) (a : Addr) : Bool :=
  decide (r.low ≤ a) && decide (a < r.high)

/-- `combine(r1, r2)`, the union bounding box (40_register_cells.md R143). No command takes a Range. -/
def rangeCombine (r₁ r₂ : Range) : Range :=
  { low := if r₁.low ≤ r₂.low then r₁.low else r₂.low
    high := if r₁.high ≤ r₂.high then r₂.high else r₁.high }

/-- `classify(a)`: data, stack, mmio, text in this priority; `none` is the spec's NONE (20_memory.md R62). -/
def classify (c : MemConfig) (a : Addr) : Option Segment :=
  if rangeContains c.data a then some .data
  else if rangeContains c.stack a then some .stack
  else if rangeContains c.mmio a then some .mmio
  else if rangeContains c.text a then some .text
  else none

/-- `wi(S, a)`, the index of the word of an address in its segment's table; the stack counts down from the word
STACK_HIGH - 4 (10_state.md R39). -/
def wordIndex (c : MemConfig) : Segment → Addr → Nat
  | .stack, a => ((c.stack.high - 4 - (a &&& 0xFFFFFFFC)) >>> 2).toNat
  | .data, a => ((a - c.data.low) >>> 2).toNat
  | .mmio, a => ((a - c.mmio.low) >>> 2).toNat
  | .text, a => ((a - c.text.low) >>> 2).toNat

/-- The place of an address's byte in its segment's table: byte `a & 3` of word `wi(S, a)` (10_state.md R39). -/
def bytePlace (c : MemConfig) (S : Segment) (a : Addr) : Nat :=
  4 * wordIndex c S a + (a &&& 3).toNat

/-- Bytes per block of a data, stack or mmio table: 1024 words (00_scope.md R6, BLKW). -/
def blockBytes : Nat := 4096

/-- The granule in which a table records that it was written: the block of 4096 bytes for data, stack and mmio, the
slot of 4 bytes for text (10_state.md R40, R41). -/
def granuleBytes : Segment → Nat
  | .text => 4
  | _ => blockBytes

/-- `nblk(S)`, the number of 4096-byte blocks of a segment (10_state.md R38). -/
def blockCount (r : Range) : Nat := (r.high.toNat - r.low.toNat + 4095) / 4096

/-- The lengths of an instance's four tables in blocks (10_state.md R38). -/
structure Dims where
  text  : Nat
  data  : Nat
  stack : Nat
  mmio  : Nat
deriving DecidableEq, Repr

/-- `dims(c)` (10_state.md R38). -/
def dimsOf (c : MemConfig) : Dims :=
  { text := blockCount c.text, data := blockCount c.data, stack := blockCount c.stack, mmio := blockCount c.mmio }

end Sys2Proof.Machine
end

