-- ==== Sys2Proof/Machine/State.lean ====
section
/-! DEFINITION. The state of the block (10_state.md R20), its ports, the reasons a step can stop, and reset (R49). -/

namespace Sys2Proof.Machine

/-- A register cell's changing part (10_state.md R21). Name, number, kind, mask, base and shift never change after reset
(R22) and are in Machine/CsrTable.lean. `observers` is a set, held rising. -/
structure Cell where
  reset     : Word64
  value     : Word64
  observers : List ObserverId
deriving DecidableEq, Repr

/-- Where a cell that owns storage lives: the integer file, the floating-point file, the pc, or one of the 12
storage-owning CSR cells (10_state.md R20). -/
inductive Home where
  | x (i : Fin 32)
  | f (i : Fin 32)
  | pc
  | csr (k : Fin 12)
deriving DecidableEq, Repr

/-- A cell: one that owns storage, or one of the 5 Linked views of the CSR file (10_state.md R21, R31). -/
inductive CellRef where
  | own (h : Home)
  | view (j : Fin 5)
deriving DecidableEq, Repr

/-- One table of an instance (10_state.md R40, R41), in canonical form: `present` lists, rising, the allocated blocks (data,
stack, mmio) or the slots that hold an instruction (text); `bytes` lists, rising, the bytes that are not 0, each at its
place in the table. An unlisted byte is 0. -/
structure Table where
  present : List Nat
  bytes   : List Host.Cell
deriving DecidableEq, Repr

/-- A registration of a memory observer, (obs, start, end) with `stop` for the spec's end (10_state.md R43). -/
structure MemObserver where
  obs   : ObserverId
  start : Addr
  stop  : Addr
deriving DecidableEq, Repr

/-- A memory instance (10_state.md R38). `observers` is a set, held rising. -/
structure Memory where
  dims      : Dims
  text      : Table
  data      : Table
  stack     : Table
  mmio      : Table
  heap      : Addr
  observers : List MemObserver
deriving DecidableEq, Repr

/-- The width of a reservation (10_state.md R44). -/
inductive Width where
  | word
  | doubleword
deriving DecidableEq, Repr

/-- An entry of a reservation table (10_state.md R44). -/
structure Reservation where
  address : Addr
  width   : Width
deriving DecidableEq, Repr

/-- The status of a response (30_encoding.md R105). -/
inductive Status where
  | ok
  | illegalCmd
  | loadMisaligned
  | storeMisaligned
  | loadRange
  | storeRange
  | loadTextForbidden
  | storeTextForbidden
  | reserveMisaligned
  | unreserveMisaligned
  | heapExhausted
  | heapBadSize
  | obsRangeInverted
  | obsRangeStraddle
  | incompatible
deriving DecidableEq, Repr

/-- A response (30_encoding.md R103). -/
structure Response where
  status : Status
  absent : Bool
  flag   : Bool
  data   : Word64
deriving DecidableEq, Repr

/-- The kind of an access a notice reports (30_encoding.md R106). -/
inductive AccessKind where
  | read
  | write
deriving DecidableEq, Repr

/-- The space of a notice (30_encoding.md R106). -/
inductive Space where
  | mem
  | x
  | f
  | csr
  | pc
deriving DecidableEq, Repr

/-- A notice (30_encoding.md R106). -/
structure Notice where
  kind  : AccessKind
  space : Space
  obs   : ObserverId
  len   : BitVec 4
  id    : Word32
  value : Word32
deriving DecidableEq, Repr

/-- A command as it is presented: its word and the two inputs sampled with it (30_encoding.md R102). -/
structure Command where
  word       : CommandWord
  smcEn      : Bool
  backstepEn : Bool
deriving DecidableEq, Repr

/-- What the outside gives the block: a command, or an assertion of `rst` (70_reset_and_hazards.md R290). -/
inductive Input where
  | command (c : Command)
  | rst
deriving DecidableEq, Repr

/-- The state (10_state.md R20), and the model's own fields: the parameter `cfgs` (CFGS, read-only; NHARTS is the length
of `rsv`, NINST the length of `insts`), the two inputs sampled with the current command, the inputs still to come, and
the response and notices of the latest command (log entries 1 to 4). -/
structure State where
  /-- The integer file X (10_state.md R24). -/
  x          : Vector Cell 32
  /-- The program counter cell (10_state.md R28). -/
  pc         : Cell
  /-- The floating-point file F (10_state.md R29). -/
  f          : Vector Cell 32
  /-- The 12 storage-owning CSR cells, in the order of 10_state.md R31 (the order is `CsrKind`'s numbering). -/
  csr        : Vector Cell 12
  /-- The observers of the 5 Linked CSR cells fflags, frm, cycleh, timeh, instreth (10_state.md R21, R31). -/
  csrViews   : Vector (List ObserverId) 5
  /-- CFGS (00_scope.md R6, R7). -/
  cfgs       : List MemConfig
  /-- The index of the current configuration (10_state.md R35). -/
  cur        : Nat
  /-- The instance bank (10_state.md R37). -/
  insts      : List Memory
  /-- The index of the active instance (10_state.md R37). -/
  active     : Nat
  /-- The reservation tables, one per hart, oldest entry first (10_state.md R44). -/
  rsv        : List (List Reservation)
  /-- `smc_en` as sampled with the current command (10_state.md R36). -/
  smcEn      : Bool
  /-- `backstep_en` as sampled with the current command; no rule reads it (10_state.md R36). -/
  backstepEn : Bool
  /-- The inputs not yet taken, oldest first (00_scope.md R10). -/
  pending    : List Input
  /-- The response of the latest command (30_encoding.md R103). -/
  rsp        : Option Response
  /-- The notices of the latest command: the groups in the order they are emitted, each group a multiset held as its
  sorted list, since the spec fixes no order inside a group (70_reset_and_hazards.md R302; log entry 4). -/
  notices    : List (List Notice)
deriving DecidableEq, Repr

/-- Why the machine stops: never. Every command ends with a response and there is no stuck state (60_exceptions.md R278),
so no constructor is needed and no one can raise a fault. -/
inductive Fault where
deriving DecidableEq, Repr

/-- Why a step is refused. -/
inductive Refusal where
  /-- Raised by exec's arm of an instruction that has no meaning yet (safe: it stops). No arm raises it now. -/
  | notModelled (mnemonic : String)
deriving DecidableEq, Repr

/-- A table in which nothing was ever written (10_state.md R41). -/
def Table.empty : Table := { present := [], bytes := [] }

/-- An instance with empty tables under a configuration, its cursor at HEAP_LOW (10_state.md R49). -/
def Memory.fresh (c : MemConfig) (observers : List MemObserver) : Memory :=
  { dims := dimsOf c, text := .empty, data := .empty, stack := .empty, mmio := .empty, heap := c.heapLow,
    observers := observers }

/-- A cell at a reset value, observed by no one (10_state.md R49). -/
def Cell.atReset (v : Word64) : Cell := { reset := v, value := v, observers := [] }

/-- The state after `rst` for given parameters (10_state.md R49). The parameters' list of configurations is not empty
when they are valid; `nowhere` only makes the function total. -/
def State.resetOf (p : Params) : State :=
  let c0 := p.cfgs.headD .nowhere
  { x := ((Vector.replicate 32 (Cell.atReset 0)).set 2 (Cell.atReset (c0.spReset.setWidth 64))).set 3
      (Cell.atReset (c0.gpReset.setWidth 64))
    pc := Cell.atReset (c0.pcReset.setWidth 64)
    f := Vector.replicate 32 (Cell.atReset 0)
    csr := Vector.replicate 12 (Cell.atReset 0)
    csrViews := Vector.replicate 5 []
    cfgs := p.cfgs
    cur := 0
    insts := List.replicate p.ninst (Memory.fresh c0 [])
    active := 0
    rsv := List.replicate p.nharts []
    smcEn := false
    backstepEn := false
    pending := []
    rsp := none
    notices := [] }

/-- The machine right after reset (10_state.md R49), for the parameters of `Config.params` (log entry 1). -/
def State.reset : State := State.resetOf Config.params

end Sys2Proof.Machine
end

