-- ==== Sys2Proof/Machine/CsrTable.lean ====
section
/-! DEFINITION. The fixed part of the cells: the CSR table of 10_state.md R31, and the names of R24, R27 to R30. -/

namespace Sys2Proof.Machine

/-- The kind of a CSR cell (10_state.md R21, R31): where its storage is among the 12 storage-owning cells, or, for a
Linked cell, which view it is, its base and the bits of the base it covers. A base owns storage, so it is never Linked
(R22). -/
inductive CsrKind where
  | plain (k : Fin 12)
  | masked (k : Fin 12) (mask : Word64)
  | readOnly (k : Fin 12)
  | linked (j : Fin 5) (base : Fin 12) (mask : Word64)
deriving DecidableEq, Repr

/-- A row of the table of 10_state.md R31. -/
structure CsrRow where
  name   : String
  number : Index
  kind   : CsrKind
deriving DecidableEq, Repr

/-- The CSR cells in list order (10_state.md R31). The shift of a Linked cell is derived from its mask, and every reset
value is 0. -/
def csrRows : List CsrRow :=
  [ ⟨"ustatus",  0x000, .masked 0 0xFFFFFFFFFFFFFFEE⟩,
    ⟨"fflags",   0x001, .linked 0 1 0x000000000000001F⟩,
    ⟨"frm",      0x002, .linked 1 1 0x00000000000000E0⟩,
    ⟨"fcsr",     0x003, .masked 1 0xFFFFFFFFFFFFFF00⟩,
    ⟨"uie",      0x004, .plain 2⟩,
    ⟨"utvec",    0x005, .plain 3⟩,
    ⟨"uscratch", 0x040, .plain 4⟩,
    ⟨"uepc",     0x041, .plain 5⟩,
    ⟨"ucause",   0x042, .plain 6⟩,
    ⟨"utval",    0x043, .plain 7⟩,
    ⟨"uip",      0x044, .plain 8⟩,
    ⟨"cycle",    0xC00, .readOnly 9⟩,
    ⟨"time",     0xC01, .readOnly 10⟩,
    ⟨"instret",  0xC02, .readOnly 11⟩,
    ⟨"cycleh",   0xC80, .linked 2 9 0xFFFFFFFF00000000⟩,
    ⟨"timeh",    0xC81, .linked 3 10 0xFFFFFFFF00000000⟩,
    ⟨"instreth", 0xC82, .linked 4 11 0xFFFFFFFF00000000⟩ ]

/-- The cell a row stands for. -/
def CsrKind.ref : CsrKind → CellRef
  | .plain k => .own (.csr k)
  | .masked k _ => .own (.csr k)
  | .readOnly k => .own (.csr k)
  | .linked j _ _ => .view j

/-- The row of a cell. -/
def csrRowOf (r : CellRef) : Option CsrRow := csrRows.find? (fun row => row.kind.ref == r)

/-- The bits of a storage-owning cell that an ordinary write leaves as they are: the mask of a Masked cell; none of a
Plain or ReadOnly cell, whose refusal is the CSR file's and not the cell's (40_register_cells.md R133, R134). -/
def keptBits : Home → Word64
  | .csr k =>
    match csrRowOf (.own (.csr k)) with
    | some ⟨_, _, .masked _ mask⟩ => mask
    | _ => 0
  | _ => 0

/-- The base of a Linked cell (10_state.md R31). -/
def viewBase (j : Fin 5) : Fin 12 :=
  match csrRowOf (.view j) with
  | some ⟨_, _, .linked _ base _⟩ => base
  | _ => 0

/-- The bits of its base that a Linked cell covers (10_state.md R31). -/
def viewMask (j : Fin 5) : Word64 :=
  match csrRowOf (.view j) with
  | some ⟨_, _, .linked _ _ mask⟩ => mask
  | _ => 0

/-- The space of a cell's file in a notice (30_encoding.md R106). -/
def cellSpace : CellRef → Space
  | .own (.x _) => .x
  | .own (.f _) => .f
  | .own .pc => .pc
  | .own (.csr _) => .csr
  | .view _ => .csr

/-- A cell's number as 32 bits: the register number, the CSR number, or -1 for the pc (30_encoding.md R106, 10_state.md
R28). -/
def cellNumber : CellRef → Word32
  | .own (.x i) => BitVec.ofNat 32 i.val
  | .own (.f i) => BitVec.ofNat 32 i.val
  | .own .pc => 0xFFFFFFFF
  | .own (.csr k) => ((csrRowOf (.own (.csr k))).elim 0 CsrRow.number).setWidth 32
  | .view j => ((csrRowOf (.view j)).elim 0 CsrRow.number).setWidth 32

/-- The direct names of the integer cells 0 to 31, the ABI names (10_state.md R27; log entry 7). -/
def integerNames : List String :=
  ["zero", "ra", "sp", "gp", "tp", "t0", "t1", "t2", "s0", "s1", "a0", "a1", "a2", "a3", "a4", "a5", "a6", "a7", "s2",
   "s3", "s4", "s5", "s6", "s7", "s8", "s9", "s10", "s11", "t3", "t4", "t5", "t6"]

/-- The direct names of the floating-point cells 0 to 31 (10_state.md R29; log entry 7). -/
def floatNames : List String :=
  ["ft0", "ft1", "ft2", "ft3", "ft4", "ft5", "ft6", "ft7", "fs0", "fs1", "fa0", "fa1", "fa2", "fa3", "fa4", "fa5",
   "fa6", "fa7", "fs2", "fs3", "fs4", "fs5", "fs6", "fs7", "fs8", "fs9", "fs10", "fs11", "ft8", "ft9", "ft10", "ft11"]

/-- A register block: the prefix character of its lookup syntax and its cells in list order (10_state.md R23). -/
structure RegisterBlock where
  pfx   : Char
  cells : List (String × Nat × CellRef)
deriving DecidableEq, Repr

/-- The integer file's block, prefix `x` (10_state.md R24). The pc is in no block (R28). -/
def integerBlock : RegisterBlock :=
  { pfx := 'x', cells := (List.finRange 32).map fun i => (integerNames.getD i.val "", i.val, .own (.x i)) }

/-- The floating-point file's block, prefix `f` (10_state.md R29). -/
def floatBlock : RegisterBlock :=
  { pfx := 'f', cells := (List.finRange 32).map fun i => (floatNames.getD i.val "", i.val, .own (.f i)) }

/-- The CSR file's block, prefix `_` (10_state.md R30, R31). -/
def csrBlock : RegisterBlock :=
  { pfx := '_', cells := csrRows.map fun row => (row.name, row.number.toNat, row.kind.ref) }

end Sys2Proof.Machine
end

