-- ==== Sys2Proof/Machine/Flags.lean ====
section
/-! DEFINITION. The bit computations of the block. It has no condition codes (10_state.md R34): what stands here are the
masked merge and the linked field of the CSR cells, fflags and frm among them, and NaN-boxing. -/

namespace Sys2Proof.Machine

/-- `lsb_index(m)`, the least i with m[i] = 1 (00_scope.md R8). -/
def lsbIndex (m : Word64) : Nat := ((List.range 64).find? (fun i => m.getLsbD i)).getD 0

/-- What a write leaves in a cell whose bits `kept` an ordinary write does not change: those bits from the old value, the
others from the new one (40_register_cells.md R134; with no kept bit, R133). -/
def mergeKept (kept old v : Word64) : Word64 := (old &&& kept) ||| (v &&& ~~~kept)

/-- The field a Linked cell reads from its base (40_register_cells.md R131). -/
def fieldOf (mask base : Word64) : Word64 := (base &&& mask) >>> lsbIndex mask

/-- The base with a Linked cell's field replaced; bits that do not fit the field are dropped (40_register_cells.md R135). -/
def withField (mask base v : Word64) : Word64 := ((v <<< lsbIndex mask) &&& mask) ||| (base &&& ~~~mask)

/-- The canonical quiet NaN (00_scope.md R6). -/
def canonicalNaN : Word64 := 0x7FC00000

/-- A 32-bit pattern NaN-boxed: the upper half all ones (42_fp_file.md R173). -/
def boxFloat (w : Word32) : Word64 := 0xFFFFFFFF00000000 ||| w.setWidth 64

/-- The 32-bit view of a raw value: its low half if the upper half is all ones, else the canonical quiet NaN
(42_fp_file.md R170). -/
def unboxFloat (raw : Word64) : Word64 :=
  if raw.extractLsb' 32 32 = 0xFFFFFFFF#32 then (raw.extractLsb' 0 32).setWidth 64 else canonicalNaN

/-- The low n bytes of a 32-bit word as a mask, n in 1, 2, 4 (20_memory.md R68). -/
def lowBytesMask (n : Nat) : Word32 := if n = 4 then 0xFFFFFFFF else (1 <<< (8 * n)) - 1

/-- `trunc_{8n}(v)` zero-extended to 32 bits (20_memory.md R75). -/
def truncBytes (n : Nat) (v : Word32) : Word32 := v &&& lowBytesMask n

end Sys2Proof.Machine
end

