-- ==== Sys2Proof/Machine/Operands.lean ====
section
/-! DEFINITION. The operand forms (30_encoding.md R108): register lookup by number and by name, reservation widths, signed
sizes, and which indexes are legal (R110). -/

namespace Sys2Proof.Machine

/-- `lookup_number(block, n)`: a scan of the list, `none` for the spec's absent (40_register_cells.md R140). -/
def lookupNumber (b : RegisterBlock) (n : Nat) : Option CellRef :=
  (b.cells.find? (fun c => c.2.1 == n)).map (fun c => c.2.2)

/-- The value of a decimal numeral: one or more digits, leading zeros allowed, no sign, unbounded
(93_implementation_defined.md U9's default; log entry 7). -/
def numeralValue (cs : List Char) : Option Nat :=
  if cs.isEmpty || !cs.all Char.isDigit then none
  else some (cs.foldl (fun n c => 10 * n + (c.toNat - '0'.toNat)) 0)

/-- `lookup_name(block, s)`: a direct name, else the prefix and a decimal number (40_register_cells.md R141). No command
carries a name. -/
def lookupName (b : RegisterBlock) (s : String) : Option CellRef :=
  match b.cells.find? (fun c => c.1 == s) with
  | some c => some c.2.2
  | none =>
    match s.toList with
    | p :: rest => if p = b.pfx then (numeralValue rest).bind (lookupNumber b) else none
    | [] => none

/-- The cell an integer register number names (30_encoding.md R108). -/
def lookupX (idx : Index) : Option CellRef := lookupNumber integerBlock idx.toNat

/-- The cell a floating-point register number names (30_encoding.md R108). -/
def lookupF (idx : Index) : Option CellRef := lookupNumber floatBlock idx.toNat

/-- The cell a CSR number names (30_encoding.md R108). -/
def lookupCsr (idx : Index) : Option CellRef := lookupNumber csrBlock idx.toNat

/-- Whether a cell is marked ReadOnly (10_state.md R31). -/
def isReadOnly (r : CellRef) : Bool :=
  match csrRowOf r with
  | some ⟨_, _, .readOnly _⟩ => true
  | _ => false

/-- The h-counter numbers, to which an ordinary write is refused (43_csr_file.md R187). -/
def isCounterHigh (idx : Index) : Bool := idx == 0xC80 || idx == 0xC81 || idx == 0xC82

/-- A CSR's position in the block's list (43_csr_file.md R192). -/
def csrPosition (idx : Index) : Option Nat := csrRows.findIdx? (fun row => row.number == idx)

/-- The width operand of RESERVE and UNRESERVE: 4 is W, 8 is D (30_encoding.md R108). -/
def widthOf (len : BitVec 4) : Option Width :=
  if len = 4 then some .word else if len = 8 then some .doubleword else none

/-- The bytes a reservation covers (46_reservation.md R250). -/
def widthBytes : Width → Nat
  | .word => 4
  | .doubleword => 8

/-- ALLOC's operand, a signed 32-bit integer (30_encoding.md R108). -/
def signedSize (size : Word32) : Int := size.toInt

/-- A hart id is legal when it is below NHARTS (30_encoding.md R110). -/
def legalHart (s : State) (hart : Index) : Bool := decide (hart.toNat < s.rsv.length)

/-- An instance index is legal when it is below NINST (30_encoding.md R110). -/
def legalInstance (s : State) (inst : Index) : Bool := decide (inst.toNat < s.insts.length)

/-- A configuration index is legal when it is below NCFG (30_encoding.md R110). -/
def legalConfig (s : State) (cfg : Index) : Bool := decide (cfg.toNat < s.cfgs.length)

/-- A word-aligned address (20_memory.md R65). -/
def wordAligned (a : Addr) : Bool := a &&& 3 == 0

/-- A halfword-aligned address (20_memory.md R65). -/
def halfAligned (a : Addr) : Bool := a &&& 1 == 0

end Sys2Proof.Machine
end

