-- ==== Sys2Proof/Machine/Ops.lean ====
section
/-! DEFINITION. The named operations every meaning is built from: the ports, canonical lists, the cell primitives
(40_register_cells.md), memory (20_memory.md), and the reservation tables (46_reservation.md). -/

namespace Sys2Proof.Machine

/-- The outcome of a step of this machine. -/
abbrev Result := Host.Outcome State Fault Refusal

/-! ## The ports -/

/-- The state with a command's response and notices at the ports (30_encoding.md R103, R106). -/
def State.answer (s : State) (r : Response) (groups : List (List Notice)) : State :=
  { s with rsp := some r, notices := groups }

/-- A response with status OK; fields a rule does not mention are 0 (30_encoding.md R103, R104). -/
def okResponse (data : Word64) (flag : Bool := false) (absent : Bool := false) : Response :=
  { status := .ok, absent := absent, flag := flag, data := data }

/-- The response of an error, with its address (30_encoding.md R104, 60_exceptions.md R272). -/
def errorResponse (e : Status) (a : Addr) : Response :=
  { status := e, absent := false, flag := false, data := a.setWidth 64 }

/-- `respond(…)`: the command ends with status OK (30_encoding.md R104). -/
def respond (s : State) (r : Response) (groups : List (List Notice)) : Result := .next (s.answer r groups)

/-- `raise E(a)`, the block's only exceptional event: the command ends with an error status, the state is unchanged and
no notice is emitted (60_exceptions.md R272). There is no trap to take and none to return from (R273). -/
def raise (s : State) (e : Status) (a : Addr) : Result := .next (s.answer (errorResponse e a) [])

/-- ILLEGAL_CMD (30_encoding.md R109, R110). -/
def raiseIllegal (s : State) : Result := raise s .illegalCmd 0

/-- A register command that names an unmapped number: no effect, OK with absent = 1 (40_register_cells.md R142). -/
def respondAbsent (s : State) : Result := respond s (okResponse 0 false true) []

/-- The parameters, which no step changes (00_scope.md R6). -/
def State.params (s : State) : Params := { nharts := s.rsv.length, ninst := s.insts.length, cfgs := s.cfgs }

/-- What the block finds at its input: nothing, `rst`, or a command, with the state it acts on. -/
inductive Taken where
  | idle
  | reset (s : State)
  | command (w : CommandWord) (s : State)
deriving DecidableEq, Repr

/-- Takes the oldest input. A command's two inputs are sampled with it (30_encoding.md R102); `rst` restores the state of
10_state.md R49, and the inputs behind it stay (log entry 2). -/
def takeInput (s : State) : Taken :=
  match s.pending with
  | [] => .idle
  | .rst :: rest => .reset { State.resetOf s.params with pending := rest }
  | .command c :: rest => .command c.word { s with smcEn := c.smcEn, backstepEn := c.backstepEn, pending := rest }

/-! ## Sets and maps as rising lists -/

/-- Adds an element to a set held as a list with rising keys; a key already there changes nothing. -/
def insertRising {α : Type} (key : α → Nat) (a : α) : List α → List α
  | [] => [a]
  | b :: l => if key a < key b then a :: b :: l else if key a = key b then b :: l else b :: insertRising key a l

/-- The byte a list of cells holds at a place; an unlisted byte is 0 (10_state.md R41). -/
def byteIn (place : Nat) : List Host.Cell → Byte
  | [] => 0
  | c :: l => if c.1 = place then c.2 else byteIn place l

/-- Stores a byte in a rising list of cells that are not 0. -/
def putByte (place : Nat) (b : Byte) : List Host.Cell → List Host.Cell
  | [] => if b = 0 then [] else [(place, b)]
  | c :: l =>
    if place < c.1 then (if b = 0 then c :: l else (place, b) :: c :: l)
    else if place = c.1 then (if b = 0 then l else (place, b) :: l)
    else c :: putByte place b l

/-- The key of a registration in the canonical list of registrations: its three fields side by side. -/
def MemObserver.key (o : MemObserver) : Nat := o.obs.toNat * 2 ^ 64 + o.start.toNat * 2 ^ 32 + o.stop.toNat

/-- `set ∪ {o}` for the observers of a cell (41_integer_file_and_pc.md R155). -/
def addObserver (o : ObserverId) (l : List ObserverId) : List ObserverId := insertRising BitVec.toNat o l

/-- `set \ {o}` for the observers of a cell (41_integer_file_and_pc.md R156). -/
def removeObserver (o : ObserverId) (l : List ObserverId) : List ObserverId := l.filter (fun p => p != o)

/-! ## Cells -/

/-- A function applied to every element of a file. It goes through the list of elements, so that the kernel can
evaluate it; it is `Vector.map` (Laws/Cells.lean, `mapAll_eq_map`). -/
def mapAll {α : Type} {n : Nat} (g : α → α) (v : Vector α n) : Vector α n :=
  { toArray := (v.toList.map g).toArray, size_toArray := by simp }

/-- A storage-owning cell. -/
def State.cell (s : State) : Home → Cell
  | .x i => s.x[i]
  | .f i => s.f[i]
  | .pc => s.pc
  | .csr k => s.csr[k]

/-- The state with one storage-owning cell replaced. -/
def State.setCell (s : State) (h : Home) (c : Cell) : State :=
  match h with
  | .x i => { s with x := s.x.set i c }
  | .f i => { s with f := s.f.set i c }
  | .pc => { s with pc := c }
  | .csr k => { s with csr := s.csr.set k c }

/-- The state with the value of one storage-owning cell replaced. -/
def State.setValue (s : State) (h : Home) (v : Word64) : State := s.setCell h { s.cell h with value := v }

/-- The observers of a cell (10_state.md R21). -/
def observersOf (s : State) : CellRef → List ObserverId
  | .own h => (s.cell h).observers
  | .view j => s.csrViews[j]

/-- `notify_reg(kind, c)`: one notice per observer of the cell, as one group (40_register_cells.md R138). -/
def registerNotices (s : State) (kind : AccessKind) (r : CellRef) : List Notice :=
  (observersOf s r).map fun o =>
    { kind := kind, space := cellSpace r, obs := o, len := 0, id := cellNumber r, value := 0 }

/-- What a cell primitive gives: the state after it, the value it returns, the notices it emits. -/
structure CellAccess where
  state  : State
  value  : Word64
  groups : List (List Notice)
deriving DecidableEq, Repr

/-- `cell_peek(c)` (40_register_cells.md R131). -/
def cellPeek (s : State) : CellRef → Word64
  | .own h => (s.cell h).value
  | .view j => fieldOf (viewMask j) (s.cell (.csr (viewBase j))).value

/-- `cell_get(c)` (40_register_cells.md R132). -/
def cellGet (s : State) (r : CellRef) : CellAccess :=
  { state := s, value := cellPeek s r, groups := [registerNotices s .read r] }

/-- The storing half of `cell_set` on a cell that owns storage: Plain and ReadOnly store v, Masked keeps its masked bits
(40_register_cells.md R133, R134). -/
def storeOwn (s : State) (h : Home) (v : Word64) : State :=
  s.setValue h (mergeKept (keptBits h) (s.cell h).value v)

/-- `cell_set(c, v)` (40_register_cells.md R133 to R135): for a Linked cell the write goes through the base's own
`cell_set`, and the base's notices come before the view's. -/
def cellSet (s : State) (r : CellRef) (v : Word64) : CellAccess :=
  match r with
  | .own h =>
    { state := storeOwn s h v, value := cellPeek s (.own h), groups := [registerNotices s .write (.own h)] }
  | .view j =>
    let base := Home.csr (viewBase j)
    { state := storeOwn s base (withField (viewMask j) (cellPeek s (.own base)) v)
      value := cellPeek s (.view j)
      groups := [registerNotices s .write (.own base), registerNotices s .write (.view j)] }

/-- `cell_set_backdoor(c, v)`: silent, no mask of a Masked cell applied; through a Linked cell into its base's field
(40_register_cells.md R136). -/
def cellSetBackdoor (s : State) (r : CellRef) (v : Word64) : CellAccess :=
  match r with
  | .own h => { state := s.setValue h v, value := cellPeek s (.own h), groups := [] }
  | .view j =>
    let base := Home.csr (viewBase j)
    { state := s.setValue base (withField (viewMask j) (cellPeek s (.own base)) v)
      value := cellPeek s (.view j)
      groups := [] }

/-- `cell_change_reset(c, v)`: no effect on a Linked cell (40_register_cells.md R137). -/
def cellChangeReset (s : State) (r : CellRef) (v : Word64) : State :=
  match r with
  | .own h => s.setCell h { s.cell h with reset := v }
  | .view _ => s

/-- `cell_reset(c)` on a cell that owns storage: its value becomes its reset value, whole and silently; a Linked cell
follows its base (40_register_cells.md R139). -/
def resetCell (c : Cell) : Cell := { c with value := c.reset }

/-- Attaches an observer to a cell that owns storage (41_integer_file_and_pc.md R155). -/
def observeCell (o : ObserverId) (c : Cell) : Cell := { c with observers := addObserver o c.observers }

/-- Detaches an observer from a cell that owns storage (41_integer_file_and_pc.md R156). -/
def unobserveCell (o : ObserverId) (c : Cell) : Cell := { c with observers := removeObserver o c.observers }

/-- Ends a register command with the answer of a cell primitive (30_encoding.md R104). -/
def respondAccess (a : CellAccess) : Result := respond a.state (okResponse a.value) a.groups

/-- A register command on the cell a number names, or the absent answer (40_register_cells.md R142). -/
def onCell (s : State) (found : Option CellRef) (command : CellRef → Result) : Result :=
  match found with
  | none => respondAbsent s
  | some r => command r

/-! ## Memory -/

/-- CFGS[cur] (10_state.md R35). -/
def State.config (s : State) : MemConfig := s.cfgs.getD s.cur .nowhere

/-- The instance a memory command acts on, inst[active] (10_state.md R37). -/
def State.memory (s : State) : Memory := s.insts.getD s.active (Memory.fresh .nowhere [])

/-- The state with the active instance replaced. -/
def State.setMemory (s : State) (m : Memory) : State := { s with insts := s.insts.set s.active m }

/-- The table of a segment (10_state.md R38). -/
def Memory.table (m : Memory) : Segment → Table
  | .text => m.text
  | .data => m.data
  | .stack => m.stack
  | .mmio => m.mmio

/-- The instance with the table of a segment replaced. -/
def Memory.setTable (m : Memory) (S : Segment) (t : Table) : Memory :=
  match S with
  | .text => { m with text := t }
  | .data => { m with data := t }
  | .stack => { m with stack := t }
  | .mmio => { m with mmio := t }

/-- Stores a byte at a place of a table: its granule becomes present with zeros elsewhere (10_state.md R41). -/
def tablePut (S : Segment) (t : Table) (place : Nat) (b : Byte) : Table :=
  { present := insertRising id (place / granuleBytes S) t.present, bytes := putByte place b t.bytes }

/-- The word of a table at a word index, little-endian; 0 where nothing was written (20_memory.md R63, R64). -/
def wordAt (t : Table) (i : Nat) : Word32 :=
  (byteIn (4 * i + 3) t.bytes).setWidth 32 <<< 24 ||| (byteIn (4 * i + 2) t.bytes).setWidth 32 <<< 16 |||
    (byteIn (4 * i + 1) t.bytes).setWidth 32 <<< 8 ||| (byteIn (4 * i) t.bytes).setWidth 32

/-- Stores a word at a word index, little-endian (20_memory.md R63). -/
def putWord (S : Segment) (t : Table) (i : Nat) (w : Word32) : Table :=
  tablePut S (tablePut S (tablePut S (tablePut S t (4 * i) (w.extractLsb' 0 8)) (4 * i + 1) (w.extractLsb' 8 8))
    (4 * i + 2) (w.extractLsb' 16 8)) (4 * i + 3) (w.extractLsb' 24 8)

/-- The word of a table at a word index, or `none` where its granule was never written (10_state.md R40, R41). -/
def wordOrNull (S : Segment) (t : Table) (i : Nat) : Option Word32 :=
  if t.present.contains (4 * i / granuleBytes S) then some (wordAt t i) else none

/-- `byte_get(S, b)` (20_memory.md R64). -/
def byteGet (c : MemConfig) (m : Memory) (S : Segment) (b : Addr) : Byte :=
  byteIn (bytePlace c S b) (m.table S).bytes

/-- `byte_put(S, b, x)` (20_memory.md R64). -/
def bytePut (c : MemConfig) (m : Memory) (S : Segment) (b : Addr) (x : Byte) : Memory :=
  m.setTable S (tablePut S (m.table S) (bytePlace c S b) x)

/-- The bytes at a .. a+n-1, little-endian, each located on its own (20_memory.md R67). -/
def readBytes (c : MemConfig) (m : Memory) (S : Segment) (a : Addr) : Nat → Word32
  | 0 => 0
  | n + 1 => readBytes c m S a n ||| ((byteGet c m S (a + BitVec.ofNat 32 n)).setWidth 32 <<< (8 * n))

/-- Stores the low n bytes of v at a .. a+n-1, little-endian (20_memory.md R68). -/
def writeBytes (c : MemConfig) (m : Memory) (S : Segment) (a : Addr) (v : Word32) : Nat → Memory
  | 0 => m
  | n + 1 => bytePut c (writeBytes c m S a v n) S (a + BitVec.ofNat 32 n) (v.extractLsb' (8 * n) 8)

/-- An error status with the address it carries (60_exceptions.md R272). -/
structure AccessError where
  status : Status
  addr   : Addr
deriving DecidableEq, Repr

/-- Whether some byte of an n-byte access at a lies past the end of its segment, unbounded (20_memory.md R66). -/
def pastEnd (c : MemConfig) (S : Segment) (a : Addr) (n : Nat) : Bool :=
  decide ((c.range S).high.toNat ≤ a.toNat + n - 1)

/-- `MemRead(a, n)` (20_memory.md R67). -/
def memRead (c : MemConfig) (m : Memory) (a : Addr) (n : Nat) : Except AccessError Word32 :=
  match classify c a with
  | none => .error ⟨.loadRange, a⟩
  | some S => if pastEnd c S a n then .error ⟨.loadRange, a⟩ else .ok (readBytes c m S a n)

/-- The merge of the low n bytes of v into a slot's word at the byte position of a (20_memory.md R68, R69). -/
def mergeSlot (old : Word32) (a : Addr) (n : Nat) (v : Word32) : Word32 :=
  let sh := 8 * (a &&& 3).toNat
  let m := lowBytesMask n <<< sh
  (old &&& ~~~m) ||| ((v <<< sh) &&& m)

/-- The previous content of the bytes a slot merge replaces (20_memory.md R68). -/
def slotBytes (old : Word32) (a : Addr) (n : Nat) : Word32 :=
  let sh := 8 * (a &&& 3).toNat
  (old &&& (lowBytesMask n <<< sh)) >>> sh

/-- `MemWrite(a, n, v)`: the instance after it and the previous contents (20_memory.md R68). -/
def memWrite (c : MemConfig) (m : Memory) (a : Addr) (n : Nat) (v : Word32) :
    Except AccessError (Memory × Word32) :=
  match classify c a with
  | none => .error ⟨.storeRange, a⟩
  | some .text =>
    if (a &&& 3).toNat + n > 4 then .error ⟨.storeMisaligned, a⟩
    else
      let i := wordIndex c .text a
      let old := wordAt m.text i
      .ok (m.setTable .text (putWord .text m.text i (mergeSlot old a n v)), slotBytes old a n)
  | some S =>
    if pastEnd c S a n then .error ⟨.storeRange, a⟩
    else .ok (writeBytes c m S a v n, readBytes c m S a n)

/-- Whether a registration matches an access at a: its range meets the word of the first byte (20_memory.md R74). -/
def observes (o : MemObserver) (a : Addr) : Bool :=
  let w := a &&& 0xFFFFFFFC
  decide (w ≤ o.stop) && decide (o.start ≤ w + 3)

/-- `notify_mem(kind, a, n, v)`: one notice per matching registration of the active instance, as one group
(20_memory.md R74). -/
def memoryNotices (s : State) (kind : AccessKind) (a : Addr) (n : Nat) (v : Word32) : List Notice :=
  (s.memory.observers.filter fun o => observes o a).map fun o =>
    { kind := kind, space := .mem, obs := o.obs, len := BitVec.ofNat 4 n, id := a, value := v }

/-- The self-modifying-code gate: a gated access to TEXT with smc_en = 0 is forbidden (20_memory.md R70). -/
def gated (s : State) (S : Segment) : Bool := S == .text && !s.smcEn

/-- A gated read of n bytes: the checks of GET after its length (44_memory_access.md R200). -/
def gatedRead (s : State) (a : Addr) (n : Nat) : Except AccessError Word32 :=
  match classify s.config a with
  | none => .error ⟨.loadRange, a⟩
  | some S => if gated s S then .error ⟨.loadTextForbidden, a⟩ else memRead s.config s.memory a n

/-- A gated write of n bytes: the checks of SET after its length (44_memory_access.md R201). -/
def gatedWrite (s : State) (a : Addr) (n : Nat) (v : Word32) : Except AccessError (Memory × Word32) :=
  match classify s.config a with
  | none => .error ⟨.storeRange, a⟩
  | some S => if gated s S then .error ⟨.storeTextForbidden, a⟩ else memWrite s.config s.memory a n v

/-- A load with notification, GET after its length check (44_memory_access.md R200). -/
def loadBytes (s : State) (a : Addr) (n : Nat) : Result :=
  match gatedRead s a n with
  | .error e => raise s e.status e.addr
  | .ok v => respond s (okResponse (v.setWidth 64)) [memoryNotices s .read a n v]

/-- A store with notification, SET after its length check (44_memory_access.md R201). -/
def storeBytes (s : State) (a : Addr) (n : Nat) (v : Word32) : Result :=
  match gatedWrite s a n v with
  | .error e => raise s e.status e.addr
  | .ok (m, prev) =>
    respond (s.setMemory m) (okResponse (prev.setWidth 64)) [memoryNotices s .write a n (truncBytes n v)]

/-- GETRAWWORDORNULL's answer for an aligned address: LOAD_RANGE, null, or a word (44_memory_access.md R208). -/
def rawWordOrNull (c : MemConfig) (m : Memory) (a : Addr) : Except AccessError (Option Word32) :=
  match classify c a with
  | none => .error ⟨.loadRange, a⟩
  | some S => .ok (wordOrNull S (m.table S) (wordIndex c S a))

/-- FIRSTNULL's scan over at most k words from address a, word by word (45_memory_management.md R231). -/
def scanNull (c : MemConfig) (m : Memory) : Nat → Nat → Except AccessError Nat
  | 0, a => .ok a
  | k + 1, a =>
    match rawWordOrNull c m (BitVec.ofNat 32 a) with
    | .error e => .error e
    | .ok none => .ok a
    | .ok (some _) => scanNull c m k (a + 4)

/-- The words from base that lie below limit: FIRSTNULL scans no more (45_memory_management.md R231). -/
def scanLength (base limit : Addr) : Nat := (limit.toNat - base.toNat + 3) / 4

/-- The size ALLOC takes, rounded up to a multiple of 4, unbounded (45_memory_management.md R230). -/
def roundUp4 (n : Nat) : Nat := (n + 3) / 4 * 4

/-! ## Reservations -/

/-- `matches((A', w'), (A, w))` (46_reservation.md R251). -/
def reservationMatches (e : Reservation) (a : Addr) (w : Width) : Bool :=
  (e.address == a && e.width == w) ||
    (w == .word && e.width == .doubleword && e.address == (a &&& 0xFFFFFFF8))

/-- RSVCAP (00_scope.md R6). -/
def reservationCapacity : Nat := 8

/-- RESERVE's insertion: a duplicate changes nothing, a full table loses its oldest entry (46_reservation.md R252). -/
def addReservation (e : Reservation) (t : List Reservation) : List Reservation :=
  if t.contains e then t
  else if t.length = reservationCapacity then t.tail ++ [e]
  else t ++ [e]

/-- A hart's reservation table (10_state.md R44). -/
def State.reservations (s : State) (h : Nat) : List Reservation := s.rsv.getD h []

end Sys2Proof.Machine
end

