-- ==== Sys2Proof/Machine/Access.lean ====
section
/-! DEFINITION. The memory access commands (44_memory_access.md R200 to R210) and their pseudo-commands
(30_encoding.md R112). -/

namespace Sys2Proof.Machine

/-- GET (R200). -/
def execGet (len : BitVec 4) (addr : Addr) (s : State) : Result :=
  if accessLength len then loadBytes s addr len.toNat else raiseIllegal s

/-- SET (R201). -/
def execSet (len : BitVec 4) (addr : Addr) (value : Word32) (s : State) : Result :=
  if accessLength len then storeBytes s addr len.toNat value else raiseIllegal s

/-- GETWORD (R202): the alignment check comes before everything else. -/
def execGetword (addr : Addr) (s : State) : Result :=
  if wordAligned addr then loadBytes s addr 4 else raise s .loadMisaligned addr

/-- SETWORD (R203). -/
def execSetword (addr : Addr) (value : Word32) (s : State) : Result :=
  if wordAligned addr then storeBytes s addr 4 value else raise s .storeMisaligned addr

/-- GETHALF (R204). -/
def execGethalf (addr : Addr) (s : State) : Result :=
  if halfAligned addr then loadBytes s addr 2 else raise s .loadMisaligned addr

/-- SETHALF (R205). -/
def execSethalf (addr : Addr) (value : BitVec 16) (s : State) : Result :=
  if halfAligned addr then storeBytes s addr 2 (value.setWidth 32) else raise s .storeMisaligned addr

/-- GETRAWWORD (R206): silent and not gated. -/
def execGetrawword (addr : Addr) (s : State) : Result :=
  if wordAligned addr then
    match memRead s.config s.memory addr 4 with
    | .error e => raise s e.status e.addr
    | .ok v => respond s (okResponse (v.setWidth 64)) []
  else raise s .loadMisaligned addr

/-- SETRAWWORD (R207): silent; the write gate applies. -/
def execSetrawword (addr : Addr) (value : Word32) (s : State) : Result :=
  if wordAligned addr then
    match gatedWrite s addr 4 value with
    | .error e => raise s e.status e.addr
    | .ok (m, prev) => respond (s.setMemory m) (okResponse (prev.setWidth 64)) []
  else raise s .storeMisaligned addr

/-- GETRAWWORDORNULL (R208): flag 0 is null. -/
def execGetrawwordornull (addr : Addr) (s : State) : Result :=
  if wordAligned addr then
    match rawWordOrNull s.config s.memory addr with
    | .error e => raise s e.status e.addr
    | .ok none => respond s (okResponse 0 false) []
    | .ok (some w) => respond s (okResponse (w.setWidth 64) true) []
  else raise s .loadMisaligned addr

/-- FETCH (R209): TEXT only, not gated; flag 0 and data 0 for an empty slot. -/
def execFetch (addr : Addr) (s : State) : Result :=
  if wordAligned addr then
    if classify s.config addr = some .text then
      let slot := wordOrNull .text s.memory.text (wordIndex s.config .text addr)
      let w := slot.getD 0
      respond s (okResponse (w.setWidth 64) slot.isSome) [memoryNotices s .read addr 4 w]
    else raise s .loadRange addr
  else raise s .loadMisaligned addr

/-- INSTALL (R210): TEXT only, not gated; the answer is the slot's previous word and whether it held one. -/
def execInstall (addr : Addr) (value : Word32) (s : State) : Result :=
  if wordAligned addr then
    if classify s.config addr = some .text then
      let i := wordIndex s.config .text addr
      let slot := wordOrNull .text s.memory.text i
      respond (s.setMemory (s.memory.setTable .text (putWord .text s.memory.text i value)))
        (okResponse ((slot.getD 0).setWidth 64) slot.isSome) [memoryNotices s .write addr 4 value]
    else raise s .storeRange addr
  else raise s .storeMisaligned addr

/-- GETBYTE, `GET addr, 1` (30_encoding.md R112). -/
def execGetbyte (addr : Addr) (s : State) : Result := execGet 1 addr s

/-- SETBYTE, `SET addr, 1, v` (30_encoding.md R112). -/
def execSetbyte (addr : Addr) (value : Word32) (s : State) : Result := execSet 1 addr value s

end Sys2Proof.Machine
end

