-- ==== Sys2Proof/Machine/ControlStatus.lean ====
section
/-! DEFINITION. The commands of the control and status register file (43_csr_file.md R185 to R192). -/

namespace Sys2Proof.Machine

/-- CSRREAD (R185). -/
def execCsrread (idx : Index) (s : State) : Result :=
  onCell s (lookupCsr idx) fun r => respondAccess (cellGet s r)

/-- CSRREADQ (R186). -/
def execCsrreadq (idx : Index) (s : State) : Result :=
  onCell s (lookupCsr idx) fun r => respond s (okResponse (cellPeek s r)) []

/-- CSRWRITE (R187): a ReadOnly cell and the three h numbers answer unchanged. -/
def execCsrwrite (idx : Index) (data : Word64) (s : State) : Result :=
  onCell s (lookupCsr idx) fun r =>
    if isReadOnly r then respond s (okResponse 0 true) []
    else if isCounterHigh idx then respond s (okResponse 0 true) []
    else respondAccess (cellSet s r data)

/-- CSRWRITEB (R188): no refusal and no mask. -/
def execCsrwriteb (idx : Index) (data : Word64) (s : State) : Result :=
  onCell s (lookupCsr idx) fun r => respondAccess (cellSetBackdoor s r data)

/-- CSRRESET (R189): ReadOnly cells too; Linked cells follow their bases. -/
def execCsrreset (s : State) : Result := respond { s with csr := mapAll resetCell s.csr } (okResponse 0) []

/-- CSROBSADD (R190): all 17 cells, views included. -/
def execCsrobsadd (obs : ObserverId) (s : State) : Result :=
  respond { s with csr := mapAll (observeCell obs) s.csr, csrViews := mapAll (addObserver obs) s.csrViews } (okResponse 0) []

/-- CSROBSDEL (R191): all 17 cells, views included. -/
def execCsrobsdel (obs : ObserverId) (s : State) : Result :=
  respond { s with csr := mapAll (unobserveCell obs) s.csr, csrViews := mapAll (removeObserver obs) s.csrViews }
    (okResponse 0) []

/-- CSRPOS (R192). -/
def execCsrpos (idx : Index) (s : State) : Result :=
  match csrPosition idx with
  | none => respondAbsent s
  | some pos => respond s (okResponse (BitVec.ofNat 64 pos) true) []

end Sys2Proof.Machine
end

