-- ==== Sys2Proof/Machine/FloatingPoint.lean ====
section
/-! DEFINITION. The commands of the floating-point register file (42_fp_file.md R170 to R178). -/

namespace Sys2Proof.Machine

/-- FREAD32 (R170): the NaN-box check is on the value read; the stored value is not changed. -/
def execFread32 (idx : Index) (s : State) : Result :=
  onCell s (lookupF idx) fun r =>
    let a := cellGet s r
    respond a.state (okResponse (unboxFloat a.value)) a.groups

/-- FREAD64 (R171). -/
def execFread64 (idx : Index) (s : State) : Result :=
  onCell s (lookupF idx) fun r => respondAccess (cellGet s r)

/-- FREADQ (R172). -/
def execFreadq (idx : Index) (s : State) : Result :=
  onCell s (lookupF idx) fun r => respond s (okResponse (cellPeek s r)) []

/-- FWRITE32 (R173): the pattern is stored NaN-boxed. -/
def execFwrite32 (idx : Index) (value : Word32) (s : State) : Result :=
  onCell s (lookupF idx) fun r => respondAccess (cellSet s r (boxFloat value))

/-- FWRITE64 (R174): no boxing. -/
def execFwrite64 (idx : Index) (data : Word64) (s : State) : Result :=
  onCell s (lookupF idx) fun r => respondAccess (cellSet s r data)

/-- FWRITEB (R175). -/
def execFwriteb (idx : Index) (data : Word64) (s : State) : Result :=
  onCell s (lookupF idx) fun r => respondAccess (cellSetBackdoor s r data)

/-- FRESET (R176). -/
def execFreset (s : State) : Result := respond { s with f := mapAll resetCell s.f } (okResponse 0) []

/-- FOBSADD (R177). -/
def execFobsadd (obs : ObserverId) (s : State) : Result :=
  respond { s with f := mapAll (observeCell obs) s.f } (okResponse 0) []

/-- FOBSDEL (R178). -/
def execFobsdel (obs : ObserverId) (s : State) : Result :=
  respond { s with f := mapAll (unobserveCell obs) s.f } (okResponse 0) []

end Sys2Proof.Machine
end

