-- ==== Sys2Proof/Machine/Integer.lean ====
section
/-! DEFINITION. The commands of the integer register file (41_integer_file_and_pc.md R150 to R156). -/

namespace Sys2Proof.Machine

/-- XREAD (R150). -/
def execXread (idx : Index) (s : State) : Result :=
  onCell s (lookupX idx) fun r => respondAccess (cellGet s r)

/-- XREADQ (R151). -/
def execXreadq (idx : Index) (s : State) : Result :=
  onCell s (lookupX idx) fun r => respond s (okResponse (cellPeek s r)) []

/-- XWRITE (R152): x0 discards the write, with no notice. -/
def execXwrite (idx : Index) (data : Word64) (s : State) : Result :=
  onCell s (lookupX idx) fun r =>
    if idx = 0 then respond s (okResponse 0) [] else respondAccess (cellSet s r data)

/-- XWRITEB (R153): x0 is hardwired also against the backdoor. -/
def execXwriteb (idx : Index) (data : Word64) (s : State) : Result :=
  onCell s (lookupX idx) fun r =>
    if idx = 0 then respond s (okResponse 0) [] else respondAccess (cellSetBackdoor s r data)

/-- XRESET (R154): every integer cell, not the pc. -/
def execXreset (s : State) : Result := respond { s with x := mapAll resetCell s.x } (okResponse 0) []

/-- XOBSADD (R155). -/
def execXobsadd (obs : ObserverId) (s : State) : Result :=
  respond { s with x := mapAll (observeCell obs) s.x } (okResponse 0) []

/-- XOBSDEL (R156). -/
def execXobsdel (obs : ObserverId) (s : State) : Result :=
  respond { s with x := mapAll (unobserveCell obs) s.x } (okResponse 0) []

end Sys2Proof.Machine
end

