-- ==== Sys2Proof/Machine/Management.lean ====
section
/-! DEFINITION. The heap, scan, instance, observer and configuration commands (45_memory_management.md R230 to R238) and
their pseudo-command (30_encoding.md R112). All are silent. -/

namespace Sys2Proof.Machine

/-- ALLOC (R230): the answer is the old cursor; no block is allocated. -/
def execAlloc (size : Word32) (s : State) : Result :=
  let n := signedSize size
  if n < 0 then raise s .heapBadSize 0
  else
    let old := s.memory.heap
    let new := old.toNat + roundUp4 n.toNat
    if new > s.config.data.high.toNat then raise s .heapExhausted old
    else respond (s.setMemory { s.memory with heap := BitVec.ofNat 32 new }) (okResponse (old.setWidth 64)) []

/-- FIRSTNULL (R231): the base's alignment is checked first. -/
def execFirstnull (base limit : Addr) (s : State) : Result :=
  if wordAligned base then
    match scanNull s.config s.memory (scanLength base limit) base.toNat with
    | .error e => raise s e.status e.addr
    | .ok a => respond s (okResponse (BitVec.ofNat 64 a)) []
  else raise s .loadMisaligned base

/-- MEMCLEAR (R232): the observers, the other instances, registers and reservations are kept. -/
def execMemclear (s : State) : Result :=
  respond (s.setMemory (Memory.fresh s.config s.memory.observers)) (okResponse 0) []

/-- COPYFROM (R233): the four tables, not the cursor and not the observers. -/
def execCopyfrom (inst : Index) (s : State) : Result :=
  match s.insts[inst.toNat]? with
  | none => raiseIllegal s
  | some src =>
    if src.dims = s.memory.dims then
      respond (s.setMemory { s.memory with text := src.text, data := src.data, stack := src.stack, mmio := src.mmio })
        (okResponse 0 true) []
    else respond s (okResponse 0 false) []

/-- SWAPINST (R234): the answer is the index of the previous instance. -/
def execSwapinst (inst : Index) (s : State) : Result :=
  match s.insts[inst.toNat]? with
  | none => raiseIllegal s
  | some target =>
    if target.dims = dimsOf s.config then
      respond { s with active := inst.toNat } (okResponse (BitVec.ofNat 64 s.active)) []
    else raise s .incompatible 0

/-- OBSADD (R235). -/
def execObsadd (obs : ObserverId) (start stop : Addr) (s : State) : Result :=
  if stop < start then raise s .obsRangeInverted start
  else if start < 0x80000000 ∧ 0x80000000 ≤ stop then raise s .obsRangeStraddle start
  else
    respond
      (s.setMemory { s.memory with
        observers := insertRising MemObserver.key ⟨obs, start, stop⟩ s.memory.observers })
      (okResponse 0) []

/-- OBSDEL (R236): every registration of the observer. -/
def execObsdel (obs : ObserverId) (s : State) : Result :=
  respond (s.setMemory { s.memory with observers := s.memory.observers.filter fun o => o.obs != obs })
    (okResponse 0) []

/-- SETCONFIG (R238): the active instance under the new configuration, the reset values of x2, x3 and pc; no register's
value. -/
def execSetconfig (cfg : Index) (s : State) : Result :=
  match s.cfgs[cfg.toNat]? with
  | none => raiseIllegal s
  | some c =>
    if cfg.toNat = s.cur then respond s (okResponse 0 false) []
    else
      let s₁ := { s with cur := cfg.toNat }.setMemory (Memory.fresh c s.memory.observers)
      let s₂ := cellChangeReset s₁ (.own (.x 2)) (c.spReset.setWidth 64)
      let s₃ := cellChangeReset s₂ (.own (.x 3)) (c.gpReset.setWidth 64)
      respond (cellChangeReset s₃ (.own .pc) (c.pcReset.setWidth 64)) (okResponse 0 true) []

/-- OBSADD1, `OBSADD o, addr, addr` (30_encoding.md R112). -/
def execObsadd1 (obs : ObserverId) (addr : Addr) (s : State) : Result := execObsadd obs addr addr s

end Sys2Proof.Machine
end

