-- ==== Sys2Proof/Machine/ProgramCounter.lean ====
section
/-! DEFINITION. The commands of the program counter (41_integer_file_and_pc.md R157 to R165). -/

namespace Sys2Proof.Machine

/-- PCREADQ (R157). -/
def execPcreadq (s : State) : Result := respond s (okResponse (cellPeek s (.own .pc))) []

/-- PCREAD (R158). -/
def execPcread (s : State) : Result := respondAccess (cellGet s (.own .pc))

/-- PCSET (R159): no alignment or range check. -/
def execPcset (data : Word64) (s : State) : Result := respondAccess (cellSet s (.own .pc) data)

/-- PCSETB (R160). -/
def execPcsetb (data : Word64) (s : State) : Result := respondAccess (cellSetBackdoor s (.own .pc) data)

/-- ILEN, the bytes PCINC adds (00_scope.md R6). -/
def instructionLength : Word64 := 4

/-- PCINC (R161): the old value is read silently. -/
def execPcinc (s : State) : Result :=
  respondAccess (cellSet s (.own .pc) (cellPeek s (.own .pc) + instructionLength))

/-- PCINITA (R162): the state change and notices of PCSET. -/
def execPcinita (data : Word64) (s : State) : Result := respondAccess (cellSet s (.own .pc) data)

/-- PCINITM (R163): `main` if it is defined and classified TEXT, else the pc's reset value. -/
def execPcinitm (defined : Bool) (address : Addr) (s : State) : Result :=
  if defined = true ∧ classify s.config address = some .text then
    respondAccess (cellSet s (.own .pc) (address.setWidth 64))
  else respondAccess (cellSet s (.own .pc) s.pc.reset)

/-- PCOBSADD (R164). -/
def execPcobsadd (obs : ObserverId) (s : State) : Result :=
  respond { s with pc := observeCell obs s.pc } (okResponse 0) []

/-- PCOBSDEL (R165). -/
def execPcobsdel (obs : ObserverId) (s : State) : Result :=
  respond { s with pc := unobserveCell obs s.pc } (okResponse 0) []

end Sys2Proof.Machine
end

