-- ==== Sys2Proof/Machine/Reservations.lean ====
section
/-! DEFINITION. The load-reserved/store-conditional commands (46_reservation.md R252, R253, R255). -/

namespace Sys2Proof.Machine

/-- RESERVE (R252). -/
def execReserve (hart : Index) (len : BitVec 4) (addr : Addr) (s : State) : Result :=
  match widthOf len with
  | none => raiseIllegal s
  | some w =>
    if legalHart s hart = false then raiseIllegal s
    else if addr.toNat % widthBytes w ≠ 0 then raise s .reserveMisaligned addr
    else
      respond { s with rsv := s.rsv.modify hart.toNat (addReservation ⟨addr, w⟩) } (okResponse 0) []

/-- UNRESERVE (R253): on success every matching entry of every hart's table is removed, in place. -/
def execUnreserve (hart : Index) (len : BitVec 4) (addr : Addr) (s : State) : Result :=
  match widthOf len with
  | none => raiseIllegal s
  | some w =>
    if legalHart s hart = false then raiseIllegal s
    else if addr.toNat % widthBytes w ≠ 0 then raise s .unreserveMisaligned addr
    else if (s.reservations hart.toNat).any (fun e => reservationMatches e addr w) then
      respond { s with rsv := s.rsv.map fun t => t.filter fun e => !reservationMatches e addr w }
        (okResponse 0 true) []
    else respond s (okResponse 0 false) []

/-- RSVRESET (R255). -/
def execRsvreset (s : State) : Result := respond { s with rsv := s.rsv.map fun _ => [] } (okResponse 0) []

end Sys2Proof.Machine
end

