-- ==== Sys2Proof/Machine/Dispatch.lean ====
section
/-! DEFINITION. One arm per command, each one direct call of its meaning. -/

namespace Sys2Proof.Machine

def exec (i : Instr) (s : State) : Host.Outcome State Fault Refusal :=
  match i with
  | .xread idx => Sys2Proof.Machine.execXread idx s
  | .xreadq idx => Sys2Proof.Machine.execXreadq idx s
  | .xwrite idx data => Sys2Proof.Machine.execXwrite idx data s
  | .xwriteb idx data => Sys2Proof.Machine.execXwriteb idx data s
  | .xreset => Sys2Proof.Machine.execXreset s
  | .xobsadd obs => Sys2Proof.Machine.execXobsadd obs s
  | .xobsdel obs => Sys2Proof.Machine.execXobsdel obs s
  | .pcreadq => Sys2Proof.Machine.execPcreadq s
  | .pcread => Sys2Proof.Machine.execPcread s
  | .pcset data => Sys2Proof.Machine.execPcset data s
  | .pcsetb data => Sys2Proof.Machine.execPcsetb data s
  | .pcinc => Sys2Proof.Machine.execPcinc s
  | .pcinita data => Sys2Proof.Machine.execPcinita data s
  | .pcinitm defined address => Sys2Proof.Machine.execPcinitm defined address s
  | .pcobsadd obs => Sys2Proof.Machine.execPcobsadd obs s
  | .pcobsdel obs => Sys2Proof.Machine.execPcobsdel obs s
  | .fread32 idx => Sys2Proof.Machine.execFread32 idx s
  | .fread64 idx => Sys2Proof.Machine.execFread64 idx s
  | .freadq idx => Sys2Proof.Machine.execFreadq idx s
  | .fwrite32 idx value => Sys2Proof.Machine.execFwrite32 idx value s
  | .fwrite64 idx data => Sys2Proof.Machine.execFwrite64 idx data s
  | .fwriteb idx data => Sys2Proof.Machine.execFwriteb idx data s
  | .freset => Sys2Proof.Machine.execFreset s
  | .fobsadd obs => Sys2Proof.Machine.execFobsadd obs s
  | .fobsdel obs => Sys2Proof.Machine.execFobsdel obs s
  | .csrread idx => Sys2Proof.Machine.execCsrread idx s
  | .csrreadq idx => Sys2Proof.Machine.execCsrreadq idx s
  | .csrwrite idx data => Sys2Proof.Machine.execCsrwrite idx data s
  | .csrwriteb idx data => Sys2Proof.Machine.execCsrwriteb idx data s
  | .csrreset => Sys2Proof.Machine.execCsrreset s
  | .csrobsadd obs => Sys2Proof.Machine.execCsrobsadd obs s
  | .csrobsdel obs => Sys2Proof.Machine.execCsrobsdel obs s
  | .csrpos idx => Sys2Proof.Machine.execCsrpos idx s
  | .get len addr => Sys2Proof.Machine.execGet len addr s
  | .set len addr value => Sys2Proof.Machine.execSet len addr value s
  | .getword addr => Sys2Proof.Machine.execGetword addr s
  | .setword addr value => Sys2Proof.Machine.execSetword addr value s
  | .gethalf addr => Sys2Proof.Machine.execGethalf addr s
  | .sethalf addr value => Sys2Proof.Machine.execSethalf addr value s
  | .getrawword addr => Sys2Proof.Machine.execGetrawword addr s
  | .setrawword addr value => Sys2Proof.Machine.execSetrawword addr value s
  | .getrawwordornull addr => Sys2Proof.Machine.execGetrawwordornull addr s
  | .fetch addr => Sys2Proof.Machine.execFetch addr s
  | .install addr value => Sys2Proof.Machine.execInstall addr value s
  | .alloc size => Sys2Proof.Machine.execAlloc size s
  | .firstnull base limit => Sys2Proof.Machine.execFirstnull base limit s
  | .memclear => Sys2Proof.Machine.execMemclear s
  | .copyfrom inst => Sys2Proof.Machine.execCopyfrom inst s
  | .swapinst inst => Sys2Proof.Machine.execSwapinst inst s
  | .obsadd obs start stop => Sys2Proof.Machine.execObsadd obs start stop s
  | .obsdel obs => Sys2Proof.Machine.execObsdel obs s
  | .setconfig cfg => Sys2Proof.Machine.execSetconfig cfg s
  | .reserve hart len addr => Sys2Proof.Machine.execReserve hart len addr s
  | .unreserve hart len addr => Sys2Proof.Machine.execUnreserve hart len addr s
  | .rsvreset => Sys2Proof.Machine.execRsvreset s
  | .getbyte addr => Sys2Proof.Machine.execGetbyte addr s
  | .setbyte addr value => Sys2Proof.Machine.execSetbyte addr value s
  | .obsadd1 obs addr => Sys2Proof.Machine.execObsadd1 obs addr s

end Sys2Proof.Machine
end

