-- ==== Sys2Proof/Machine/Step.lean ====
section
/-! DEFINITION. One step: the block takes its oldest input and carries it out (00_scope.md R10). -/

namespace Sys2Proof.Machine

/-- One step. With no input the block does nothing (00_scope.md R12); `rst` restores the reset state
(70_reset_and_hazards.md R290); a command is decoded and executed as one atomic transition (00_scope.md R10), a reserved
`op` answered with ILLEGAL_CMD (30_encoding.md R109). -/
def step (s : State) : Host.Outcome State Fault Refusal :=
  match takeInput s with
  | .idle => .next s
  | .reset s' => .next s'
  | .command w s' =>
    match decode w with
    | .ok i => exec i s'
    | .error _ => raiseIllegal s'

/-- The state with one command placed in front of the pending inputs, so that the next step takes it; `smc_en` and
`backstep_en` are 0 with it (log entry 2). -/
def State.withFetchWord (s : State) (nbits w : Nat) : State :=
  { s with
    pending := .command { word := BitVec.ofNat 128 (w % 2 ^ nbits), smcEn := false, backstepEn := false } :: s.pending }

end Sys2Proof.Machine
end

