-- ==== Sys2Proof/Machine/Ports.lean ====
section
/-! DEFINITION. The words at the block's ports: status numbers, the response word, the notice word (30_encoding.md R103,
R105, R106), and the informative mapping of errors to RISC-V causes (60_exceptions.md R282). -/

namespace Sys2Proof.Machine

/-- The number of a status (30_encoding.md R105). -/
def statusCode : Status → BitVec 8
  | .ok => 0x00
  | .illegalCmd => 0x01
  | .loadMisaligned => 0x10
  | .storeMisaligned => 0x11
  | .loadRange => 0x12
  | .storeRange => 0x13
  | .loadTextForbidden => 0x14
  | .storeTextForbidden => 0x15
  | .reserveMisaligned => 0x16
  | .unreserveMisaligned => 0x17
  | .heapExhausted => 0x18
  | .heapBadSize => 0x19
  | .obsRangeInverted => 0x1A
  | .obsRangeStraddle => 0x1B
  | .incompatible => 0x1C

/-- RSP[73:0] = {status, absent, flag, data}, each field shifted to its place (30_encoding.md R103). -/
def responseWord (r : Response) : BitVec 74 :=
  (statusCode r.status).setWidth 74 <<< 66 ||| (BitVec.ofBool r.absent).setWidth 74 <<< 65 |||
    (BitVec.ofBool r.flag).setWidth 74 <<< 64 ||| r.data.setWidth 74

/-- The bit of an access kind (30_encoding.md R106). -/
def kindBit : AccessKind → BitVec 1
  | .read => 0
  | .write => 1

/-- The number of a space (30_encoding.md R106). -/
def spaceCode : Space → BitVec 3
  | .mem => 0
  | .x => 1
  | .f => 2
  | .csr => 3
  | .pc => 4

/-- NTC[87:0] = {kind, space, obs, len, 0000, id, value}, each field shifted to its place (30_encoding.md R106). -/
def noticeWord (n : Notice) : BitVec 88 :=
  (kindBit n.kind).setWidth 88 <<< 87 ||| (spaceCode n.space).setWidth 88 <<< 84 ||| n.obs.setWidth 88 <<< 72 |||
    n.len.setWidth 88 <<< 68 ||| n.id.setWidth 88 <<< 32 ||| n.value.setWidth 88

/-- The RISC-V cause the external loop would typically map an error to; informative, read by no rule (30_encoding.md
R105, 60_exceptions.md R282). -/
def typicalCause : Status → Option Nat
  | .loadMisaligned => some 4
  | .reserveMisaligned => some 4
  | .loadRange => some 5
  | .loadTextForbidden => some 5
  | .storeMisaligned => some 6
  | .unreserveMisaligned => some 6
  | .storeRange => some 7
  | .storeTextForbidden => some 7
  | .ok => none
  | .illegalCmd => none
  | .heapExhausted => none
  | .heapBadSize => none
  | .obsRangeInverted => none
  | .obsRangeStraddle => none
  | .incompatible => none

end Sys2Proof.Machine
end

