-- ==== Sys2Proof/Safety.lean ====
section
/-! DEFINITION. The terms in which claims are stated: the canonical form of plain data, the invariant of the machine, what
a read of one byte gives, which part of the state a command may change, and in which orders notices may be delivered. -/

namespace Sys2Proof.Machine

/-! ## Canonical form -/

/-- A list whose keys are strictly rising, so without repeats. -/
def rising {α : Type} (key : α → Nat) (l : List α) : Bool := decide (l.Pairwise fun a b => key a < key b)

/-- The canonical form of a table: both lists rising, no byte 0 listed, every listed byte in a granule that is present
(10_state.md R40, R41). -/
def Table.wf (S : Segment) (t : Table) : Bool :=
  rising id t.present && rising Prod.fst t.bytes && t.bytes.all (fun c => c.2 != 0) &&
  t.bytes.all (fun c => t.present.contains (c.1 / granuleBytes S))

/-- The canonical form of an instance: its four tables and its set of registrations. -/
def Memory.wf (m : Memory) : Bool :=
  Table.wf .text m.text && Table.wf .data m.data && Table.wf .stack m.stack && Table.wf .mmio m.mmio &&
  rising MemObserver.key m.observers

/-- Every present granule of a table lies in its blocks (10_state.md R38, R41). -/
def Table.within (S : Segment) (blocks : Nat) (t : Table) : Bool :=
  t.present.all fun g => decide (g * granuleBytes S < blocks * blockBytes)

/-- Every table of an instance lies within the instance's dims (10_state.md R38). -/
def Memory.within (m : Memory) : Bool :=
  m.text.within .text m.dims.text && m.data.within .data m.dims.data && m.stack.within .stack m.dims.stack &&
  m.mmio.within .mmio m.dims.mmio

/-- A range that may be registered: not inverted and not straddling 0x80000000 (10_state.md R43). -/
def MemObserver.legal (o : MemObserver) : Bool :=
  decide (o.start ≤ o.stop) && !(decide (o.start < 0x80000000) && decide (0x80000000 ≤ o.stop))

/-- A reservation table as 10_state.md R44 says: at most 8 entries, no duplicates, each aligned to its width. -/
def reservationsLegal (t : List Reservation) : Bool :=
  decide (t.length ≤ reservationCapacity) && decide t.Nodup &&
  t.all fun e => e.address.toNat % widthBytes e.width == 0

/-! ## The invariant -/

/-- What every instance satisfies: canonical form, tables within dims (10_state.md R38), legal registrations (R43), and a
cursor that is a multiple of 4 (00_scope.md R7, 45_memory_management.md R230). -/
structure Memory.Inv (m : Memory) : Prop where
  wf        : m.wf = true
  within    : m.within = true
  observers : ∀ o ∈ m.observers, o.legal = true
  heap      : m.heap.toNat % 4 = 0

/-- The reset value of each cell under a configuration (10_state.md R26, R28, R49): x2, x3 and the pc take it from the
configuration, every other cell's is 0. -/
def resetValue (c : MemConfig) : Home → Word64
  | .x i => if i = 2 then c.spReset.setWidth 64 else if i = 3 then c.gpReset.setWidth 64 else 0
  | .pc => c.pcReset.setWidth 64
  | .f _ => 0
  | .csr _ => 0

/-- The invariant of the machine. -/
structure State.Inv (s : State) : Prop where
  /-- The parameters are valid (00_scope.md R6, R7). -/
  params    : s.params.valid = true
  /-- `cur` is an index of CFGS (10_state.md R35). -/
  cur       : s.cur < s.cfgs.length
  /-- `active` is an index of the bank (10_state.md R37). -/
  active    : s.active < s.insts.length
  /-- Every instance satisfies its invariant. -/
  insts     : ∀ m ∈ s.insts, m.Inv
  /-- The active instance has the dims of the current configuration (10_state.md R38). -/
  dims      : s.memory.dims = dimsOf s.config
  /-- x0 is 0 (10_state.md R25). -/
  x0        : s.x[0].value = 0
  /-- Every reset value is the one the current configuration gives (10_state.md R26, R28, R49). -/
  resets    : ∀ h, (s.cell h).reset = resetValue s.config h
  /-- Every cell's set of observers is in canonical form. -/
  observers : ∀ r, rising BitVec.toNat (observersOf s r) = true
  /-- Every reservation table is as 10_state.md R44 says. -/
  rsv       : ∀ t ∈ s.rsv, reservationsLegal t = true

/-! ## Reading one byte -/

/-- The byte the active instance holds for an address through a segment's table under the current configuration: what
byte_get(S, a) gives (20_memory.md R64). -/
def State.byte (s : State) (S : Segment) (a : Addr) : Byte := byteGet s.config s.memory S a

/-- Whether an address lies in a segment's interval under the current configuration, whatever it classifies as
(20_memory.md R61). -/
def State.inSegment (s : State) (S : Segment) (a : Addr) : Prop := rangeContains (s.config.range S) a = true

/-- The word the active instance holds for the word of an address, or `none` where it was never written
(44_memory_access.md R208). -/
def State.word (s : State) (S : Segment) (a : Addr) : Option Word32 :=
  wordOrNull S (s.memory.table S) (wordIndex s.config S a)

/-- An n-byte access at a whose first byte classifies S stays inside S (20_memory.md R66). -/
def State.fits (s : State) (S : Segment) (a : Addr) (n : Nat) : Prop :=
  classify s.config a = some S ∧ a.toNat + n ≤ (s.config.range S).high.toNat

/-- The registrations of the active instance an access at a notifies, as notices (20_memory.md R74, R75). -/
def State.noticesOf (s : State) (kind : AccessKind) (a : Addr) (n : Nat) (v : Word32) : List Notice :=
  (s.memory.observers.filter fun o =>
    decide ((a &&& 0xFFFFFFFC) ≤ o.stop) && decide (o.start ≤ (a &&& 0xFFFFFFFC) + 3)).map fun o =>
      { kind := kind, space := .mem, obs := o.obs, len := BitVec.ofNat 4 n, id := a, value := v }

/-- Two addresses of a segment share the granule in which "never written" is recorded: the slot in TEXT, the block of 1024
words in the other segments (10_state.md R40, R41). -/
def State.sameGranule (s : State) (S : Segment) (a b : Addr) : Prop :=
  match S with
  | .text => wordIndex s.config .text a = wordIndex s.config .text b
  | S => wordIndex s.config S a / 1024 = wordIndex s.config S b / 1024

/-! ## How a command ends -/

/-- The state with the response and the notices a command ends with, and nothing else changed (30_encoding.md R103). -/
def State.ends (s : State) (r : Response) (groups : List (List Notice)) : State :=
  { s with rsp := some r, notices := groups }

/-- The answer of a command on a number its file does not map: nothing but the ports changes, OK with absent = 1
(40_register_cells.md R142). -/
def State.absent (s : State) : State := s.ends ⟨.ok, true, false, 0⟩ []

/-- The end of a command with an error status and its address (60_exceptions.md R272). -/
def State.failed (s : State) (e : Status) (a : Addr) : State := s.ends ⟨e, false, false, a.setWidth 64⟩ []

/-- A register notice for each observer of a cell (40_register_cells.md R138, 30_encoding.md R106). -/
def cellNotices (kind : AccessKind) (space : Space) (id : Word32) (observers : List ObserverId) : List Notice :=
  observers.map fun o => { kind := kind, space := space, obs := o, len := 0, id := id, value := 0 }

/-- The number of each storage-owning CSR cell with its place in the file (10_state.md R31). -/
def ownCsrs : List (Index × Fin 12) :=
  [(0x000, 0), (0x003, 1), (0x004, 2), (0x005, 3), (0x040, 4), (0x041, 5), (0x042, 6), (0x043, 7), (0x044, 8),
   (0xC00, 9), (0xC01, 10), (0xC02, 11)]

/-- A Linked cell as 10_state.md R31 and R32 give it: its number, its base, and the field of the base it shows. -/
structure ViewSpec where
  number : Index
  view   : Fin 5
  base   : Fin 12
  baseNumber : Index
  low    : Nat
  width  : Nat

/-- fflags and frm over fcsr, then cycleh, timeh, instreth over the counters (10_state.md R31, R32). -/
def linkedCsrs : List ViewSpec :=
  [⟨0x001, 0, 1, 0x003, 0, 5⟩, ⟨0x002, 1, 1, 0x003, 5, 3⟩, ⟨0xC80, 2, 9, 0xC00, 32, 32⟩, ⟨0xC81, 3, 10, 0xC01, 32, 32⟩,
   ⟨0xC82, 4, 11, 0xC02, 32, 32⟩]

/-- The 17 CSR numbers in the block's list order (10_state.md R31). -/
def csrOrder : List Index :=
  [0x000, 0x001, 0x002, 0x003, 0x004, 0x005, 0x040, 0x041, 0x042, 0x043, 0x044, 0xC00, 0xC01, 0xC02, 0xC80, 0xC81, 0xC82]

/-! ## What a command may change -/

/-- Nothing but the response and the notices differs. -/
def OnlyPorts (s t : State) : Prop := t = { s with rsp := t.rsp, notices := t.notices }

/-- Nothing but the integer file, the response and the notices differs. -/
def OnlyInteger (s t : State) : Prop := t = { s with x := t.x, rsp := t.rsp, notices := t.notices }

/-- Nothing but the pc cell, the response and the notices differs. -/
def OnlyPc (s t : State) : Prop := t = { s with pc := t.pc, rsp := t.rsp, notices := t.notices }

/-- Nothing but the floating-point file, the response and the notices differs. -/
def OnlyFloat (s t : State) : Prop := t = { s with f := t.f, rsp := t.rsp, notices := t.notices }

/-- Nothing but the storage-owning CSR cells, the response and the notices differs. -/
def OnlyCsr (s t : State) : Prop := t = { s with csr := t.csr, rsp := t.rsp, notices := t.notices }

/-- Nothing but the active instance, the response and the notices differs. -/
def OnlyMemory (s t : State) : Prop :=
  t = { s with insts := s.insts.set s.active t.memory, rsp := t.rsp, notices := t.notices }

/-- Nothing but the reservation tables, the response and the notices differs. -/
def OnlyReservations (s t : State) : Prop := t = { s with rsv := t.rsv, rsp := t.rsp, notices := t.notices }

/-- The reserved values of `op` (30_encoding.md R109). -/
def reservedOpcode (op : BitVec 8) : Prop :=
  op.toNat ≤ 0x0F ∨ (0x29 ≤ op.toNat ∧ op.toNat ≤ 0x2F) ∨ (0x38 ≤ op.toNat ∧ op.toNat ≤ 0x3F) ∨
  (0x53 ≤ op.toNat ∧ op.toNat ≤ 0x5F) ∨ 0x63 ≤ op.toNat

/-- The op a command is encoded with, from which the decoder reads the command back (30_encoding.md R107). -/
def hasOpcode (op : BitVec 8) (i : Instr) : Prop := opField (encode i) = op ∧ decode (encode i) = .ok i

/-! ## Orders of delivery -/

/-- The orders in which the notices of one command may reach their observers: the groups one after the other, the notices
inside a group in any order (70_reset_and_hazards.md R302, 93_implementation_defined.md U1). -/
def mayDeliver (groups : List (List Notice)) (order : List Notice) : Prop :=
  ∃ parts : List (List Notice), List.Forall₂ List.Perm parts groups ∧ order = parts.flatten

end Sys2Proof.Machine
end

