-- ==== Sys2Proof/Certificates/Slice0/Obligations.lean ====
section
/-! DEFINITION. The statements for the provers. A statement of the form `exec i s = .next (s.ends r g)` says at once that the
command completes, what it answers, which notices it emits, and that nothing else changes. -/

open Sys2Proof Sys2Proof.Machine

/-! ## Encoding -/

/-- Decoding the encoding of any command gives it back with every operand at every value, a pseudo-command as the real
command it spells (30_encoding.md R100, R107, R108, R112). -/
def Obligations.DecodeOfEncodeIsCanonical : Prop := ∀ i : Instr, decode (encode i) = .ok i.canonical

/-- Unused fields are ignored by the decoder and written as 0 by the encoder, and words that differ only there are one
command (30_encoding.md R101). -/
def Obligations.UnusedFieldsAreIgnored : Prop :=
  (∀ i : Instr, encode i &&& ~~~usedBits i = 0) ∧
  ∀ (w : CommandWord) (i : Instr), decode w = .ok i →
    encode i = w &&& usedBits i ∧
    ∀ w' : CommandWord, w' &&& usedBits i = w &&& usedBits i → decode w' = .ok i

/-- The decoder rejects exactly the reserved values of `op`, and such a command is answered with ILLEGAL_CMD and changes
nothing (30_encoding.md R109). -/
def Obligations.ReservedOpcodesAreIllegal : Prop :=
  (∀ w : CommandWord, reservedOpcode (opField w) ↔ ∃ e, decode w = .error e) ∧
  ∀ (s : State) (c : Command) (rest : List Input), s.pending = .command c :: rest → reservedOpcode (opField c.word) →
    step s = .next
      (State.failed { s with smcEn := c.smcEn, backstepEn := c.backstepEn, pending := rest } .illegalCmd 0)

/-- The five words 30_encoding.md R113 computes decode to the commands they stand for and encode back. -/
def Obligations.SpecExampleWords : Prop :=
  ∀ p ∈ [((0x12000500_00000000_00000000_00000010 : CommandWord), Instr.xwrite 5 0x10),
      (0x42000000_10010000_00000000_00000000, .getword 0x10010000),
      (0x41200000_10010002_00000000_0000BEEF, .set 2 0x10010002 0xBEEF),
      (0x60800100_10010008_00000000_00000000, .reserve 1 8 0x10010008),
      (0x32000300_00000000_00000000_000000FF, .csrwrite 0x003 0xFF)],
    decode p.1 = .ok p.2 ∧ encode p.2 = p.1

/-- A pseudo-command is exactly the command it expands to, and the decoder never answers one (30_encoding.md R112). -/
def Obligations.PseudoCommandsAreSpellings : Prop :=
  (∀ (i : Instr) (s : State), exec i s = exec i.canonical s ∧ encode i = encode i.canonical) ∧
  (∀ addr v o, Instr.canonical (.getbyte addr) = .get 1 addr ∧ Instr.canonical (.setbyte addr v) = .set 1 addr v ∧
    Instr.canonical (.obsadd1 o addr) = .obsadd o addr addr) ∧
  ∀ (w : CommandWord) (i : Instr), decode w = .ok i → i.canonical = i

/-- The fields of the response and of the notice at their bits, and the numbers of the statuses and of the spaces, different
for different statuses (30_encoding.md R103, R105, R106). -/
def Obligations.PortWordsHoldTheirFields : Prop :=
  (∀ r : Response, (responseWord r).extractLsb' 66 8 = statusCode r.status ∧ (responseWord r).getLsbD 65 = r.absent ∧
    (responseWord r).getLsbD 64 = r.flag ∧ (responseWord r).extractLsb' 0 64 = r.data) ∧
  (∀ n : Notice, (noticeWord n).getLsbD 87 = decide (n.kind = .write) ∧
    (noticeWord n).extractLsb' 84 3 = spaceCode n.space ∧ (noticeWord n).extractLsb' 72 12 = n.obs ∧
    (noticeWord n).extractLsb' 68 4 = n.len ∧ (noticeWord n).extractLsb' 64 4 = 0 ∧
    (noticeWord n).extractLsb' 32 32 = n.id ∧ (noticeWord n).extractLsb' 0 32 = n.value) ∧
  (∀ p ∈ [(Status.ok, 0x00), (.illegalCmd, 0x01), (.loadMisaligned, 0x10), (.storeMisaligned, 0x11), (.loadRange, 0x12),
      (.storeRange, 0x13), (.loadTextForbidden, 0x14), (.storeTextForbidden, 0x15), (.reserveMisaligned, 0x16),
      (.unreserveMisaligned, 0x17), (.heapExhausted, 0x18), (.heapBadSize, 0x19), (.obsRangeInverted, 0x1A),
      (.obsRangeStraddle, 0x1B), (.incompatible, 0x1C)], statusCode p.1 = BitVec.ofNat 8 p.2) ∧
  (∀ e e' : Status, statusCode e = statusCode e' → e = e') ∧
  ∀ p ∈ [(Space.mem, 0), (.x, 1), (.f, 2), (.csr, 3), (.pc, 4)], spaceCode p.1 = BitVec.ofNat 3 p.2

/-! ## The machine -/

/-- A step takes the oldest command, samples the two inputs presented with it, and runs the decoded command on that state
(00_scope.md R10, 30_encoding.md R102). That inputs wait in a list in State is the model's form (log entry 2). -/
def Obligations.StepRunsTheDecodedCommand : Prop :=
  ∀ (s : State) (c : Command) (rest : List Input) (i : Instr), s.pending = .command c :: rest → decode c.word = .ok i →
    step s = exec i { s with smcEn := c.smcEn, backstepEn := c.backstepEn, pending := rest }

/-- The step function is total: it always gives a next state, and after a command there is a response, the command is
consumed and nothing else of the inputs is touched (60_exceptions.md R278, the spec's own inference; the waiting inputs are
the model's form, log entry 2). -/
def Obligations.StepIsTotal : Prop :=
  ∀ s : State, ∃ t, step s = .next t ∧
    ∀ c rest, s.pending = .command c :: rest →
      t.pending = rest ∧ t.smcEn = c.smcEn ∧ t.backstepEn = c.backstepEn ∧ ∃ r, t.rsp = some r

/-- `rst` gives exactly the reset state, whatever the state was, with no notice; with no input nothing happens
(70_reset_and_hazards.md R290, 00_scope.md R12). That later inputs wait through `rst` is the model's form (log
entry 2), and so is what the ports hold after `rst` and while nothing happens (log entry 3). -/
def Obligations.RstRestoresTheResetState : Prop :=
  (∀ (s : State) (rest : List Input), s.pending = .rst :: rest →
    step s = .next { State.resetOf s.params with pending := rest } ∧ (State.resetOf s.params).notices = []) ∧
  ∀ s : State, s.pending = [] → step s = .next s

/-- The reset values of 10_state.md R49, for every choice of the parameters (the register numbers x2 and x3: log entry 8). The
clauses on the views and on FREAD32 after reset are the spec's own inference. -/
def Obligations.ResetValues : Prop :=
  ∀ (p : Params) (c0 : MemConfig) (others : List MemConfig), p.cfgs = c0 :: others →
    (State.resetOf p).cur = 0 ∧ (State.resetOf p).active = 0 ∧ (State.resetOf p).cfgs = p.cfgs ∧
    (∀ i : Fin 32, (State.resetOf p).x[i].reset =
        (if i = 2 then c0.spReset.setWidth 64 else if i = 3 then c0.gpReset.setWidth 64 else 0) ∧
      (State.resetOf p).x[i].value = (State.resetOf p).x[i].reset ∧ (State.resetOf p).x[i].observers = []) ∧
    (State.resetOf p).pc = ⟨c0.pcReset.setWidth 64, c0.pcReset.setWidth 64, []⟩ ∧
    (∀ i : Fin 32, (State.resetOf p).f[i] = ⟨0, 0, []⟩) ∧
    (∀ k : Fin 12, (State.resetOf p).csr[k] = ⟨0, 0, []⟩) ∧
    (∀ j : Fin 5, (State.resetOf p).csrViews[j] = [] ∧ cellPeek (State.resetOf p) (.view j) = 0) ∧
    (State.resetOf p).insts.length = p.ninst ∧
    (∀ m ∈ (State.resetOf p).insts, m.dims = dimsOf c0 ∧
      (∀ S, (m.table S).present = [] ∧ (m.table S).bytes = []) ∧ m.heap = c0.heapLow ∧ m.observers = []) ∧
    (State.resetOf p).rsv.length = p.nharts ∧ (∀ t ∈ (State.resetOf p).rsv, t = []) ∧
    ∀ (idx : Index), idx.toNat < 32 →
      exec (.fread32 idx) (State.resetOf p) =
        .next ((State.resetOf p).ends ⟨.ok, false, false, 0x7FC00000⟩ [[]])

/-- The reset state satisfies the invariant, for every valid choice of the parameters and for the model's own (log entry 1;
log entry 11 for what names a configuration). -/
def Obligations.ResetMeetsTheInvariant : Prop :=
  (∀ p : Params, p.valid = true → (State.resetOf p).Inv) ∧ State.reset.Inv

/-- Every step keeps the invariant: canonical memory, tables within dims, dims of the active instance = dims(CFGS[cur]),
legal indexes, registrations and reservation tables, x0 = 0, and the reset values of the current configuration. -/
def Obligations.StepKeepsTheInvariant : Prop := ∀ s t : State, s.Inv → step s = .next t → t.Inv

/-! ## Rules about every command -/

/-- A command that ends with an error status changes no field of the state and emits no notice; the response's other
fields are 0 and its data is a 32-bit address (60_exceptions.md R272). -/
def Obligations.ErrorsChangeNothing : Prop :=
  ∀ (i : Instr) (s t : State) (r : Response), exec i s = .next t → t.rsp = some r → r.status ≠ .ok →
    ∃ a : Addr, t = s.failed r.status a

/-- No command changes x0, which is 0 from reset on, and every read of x0 returns 0 (10_state.md R25; the spec marks this
as its own inference). -/
def Obligations.X0IsHardwired : Prop :=
  (∀ p : Params, (State.resetOf p).x[0].value = 0 ∧ (State.resetOf p).x[0].reset = 0) ∧
  (∀ s t : State, s.x[0].value = 0 → s.x[0].reset = 0 → step s = .next t → t.x[0].value = 0 ∧ t.x[0].reset = 0) ∧
  ∀ s : State, s.x[0].value = 0 →
    exec (.xread 0) s = .next (s.ends ⟨.ok, false, false, 0⟩ [cellNotices .read .x 0 s.x[0].observers]) ∧
    exec (.xreadq 0) s = .next (s.ends ⟨.ok, false, false, 0⟩ [])

/-- The pc changes only by PCSET, PCSETB, PCINC, PCINITA, PCINITM and `rst` (41_integer_file_and_pc.md R166). -/
def Obligations.PcChangesOnlyByPcCommands : Prop :=
  ∀ s t : State, step s = .next t → t.pc.value ≠ s.pc.value →
    (∃ rest, s.pending = .rst :: rest) ∨
    ∃ c rest i, s.pending = .command c :: rest ∧ decode c.word = .ok i ∧
      ((∃ v, i = .pcset v) ∨ (∃ v, i = .pcsetb v) ∨ i = .pcinc ∨ (∃ v, i = .pcinita v) ∨ ∃ d a, i = .pcinitm d a)

/-- A cell's reset value changes only by SETCONFIG, and only that of x2, x3 or the pc (10_state.md R22). -/
def Obligations.ResetValuesChangeOnlyBySetconfig : Prop :=
  ∀ (i : Instr) (s t : State) (h : Home), exec i s = .next t → (t.cell h).reset ≠ (s.cell h).reset →
    (∃ k, i = .setconfig k) ∧ (h = .x 2 ∨ h = .x 3 ∨ h = .pc)

/-- The counters do not count by themselves: cycle, time and instret (places 9, 10, 11) change only by CSRWRITEB to the
counter or to its view and by CSRRESET (60_exceptions.md R279; numbers of log entry 8). -/
def Obligations.CountersStandStill : Prop :=
  ∀ (i : Instr) (s t : State), exec i s = .next t →
    (t.csr[9].value ≠ s.csr[9].value → i = .csrreset ∨ ∃ v, i = .csrwriteb 0xC00 v ∨ i = .csrwriteb 0xC80 v) ∧
    (t.csr[10].value ≠ s.csr[10].value → i = .csrreset ∨ ∃ v, i = .csrwriteb 0xC01 v ∨ i = .csrwriteb 0xC81 v) ∧
    (t.csr[11].value ≠ s.csr[11].value → i = .csrreset ∨ ∃ v, i = .csrwriteb 0xC02 v ∨ i = .csrwriteb 0xC82 v)

/-- fflags, fcsr[4:0], changes only by CSRWRITE or CSRWRITEB to fflags or fcsr and by CSRRESET (10_state.md R34; numbers
of log entry 8). -/
def Obligations.FlagsChangeOnlyByCsrWrites : Prop :=
  ∀ (i : Instr) (s t : State), exec i s = .next t → t.csr[1].value.extractLsb' 0 5 ≠ s.csr[1].value.extractLsb' 0 5 →
    i = .csrreset ∨
    ∃ v, i = .csrwrite 0x001 v ∨ i = .csrwrite 0x003 v ∨ i = .csrwriteb 0x001 v ∨ i = .csrwriteb 0x003 v

/-- Only RESERVE, UNRESERVE and RSVRESET change the reservation tables; no other command reads them, and RESERVE and
UNRESERVE neither read nor write memory (46_reservation.md R256). -/
def Obligations.ReservationsAreIndependentOfMemory : Prop :=
  ∀ (i : Instr) (s t : State), exec i s = .next t →
    (¬((∃ h l a, i = .reserve h l a ∨ i = .unreserve h l a) ∨ i = .rsvreset) →
      t.rsv = s.rsv ∧ ∀ tables, exec i { s with rsv := tables } = .next { t with rsv := tables }) ∧
    ((∃ h l a, i = .reserve h l a ∨ i = .unreserve h l a) →
      t.insts = s.insts ∧
      ∀ bank active cur, exec i { s with insts := bank, active := active, cur := cur } =
        .next { t with insts := bank, active := active, cur := cur })

/-- A read changes nothing but the ports, and repeated at once it gives the same response and the same notices: no address
and no register has a side effect on read (20_memory.md R72, 40_register_cells.md R131, R132). -/
def Obligations.ReadsHaveNoSideEffect : Prop :=
  ∀ (i : Instr) (s t : State), exec i s = .next t →
    ((∃ l a, i = .get l a) ∨ (∃ a, i = .getword a) ∨ (∃ a, i = .gethalf a) ∨ (∃ a, i = .getbyte a) ∨
      (∃ a, i = .getrawword a) ∨ (∃ a, i = .getrawwordornull a) ∨ (∃ a, i = .fetch a) ∨ (∃ a b, i = .firstnull a b) ∨
      (∃ k, i = .xread k) ∨ (∃ k, i = .xreadq k) ∨ i = .pcread ∨ i = .pcreadq ∨ (∃ k, i = .fread32 k) ∨
      (∃ k, i = .fread64 k) ∨ (∃ k, i = .freadq k) ∨ (∃ k, i = .csrread k) ∨ (∃ k, i = .csrreadq k) ∨
      ∃ k, i = .csrpos k) →
    OnlyPorts s t ∧ exec i t = .next t

/-- The heap cursor of an instance moves only when the instance is active: up, by ALLOC, or back to HEAP_LOW, by MEMCLEAR
and SETCONFIG (45_memory_management.md R237, 10_state.md R42). -/
def Obligations.HeapCursorIsMonotonic : Prop :=
  ∀ (i : Instr) (s t : State) (k : Nat) (m m' : Memory), exec i s = .next t → s.insts[k]? = some m →
    t.insts[k]? = some m' → m'.heap ≠ m.heap →
    k = s.active ∧
    ((∃ n, i = .alloc n ∧ m.heap < m'.heap) ∨
     ((i = .memclear ∨ ∃ c, i = .setconfig c) ∧ m'.heap = t.config.heapLow))

/-- The parameters never change, only SETCONFIG changes `cur`, only SWAPINST changes `active`, and only the active
instance is ever written (10_state.md R35, R37). -/
def Obligations.SelectionsAndInactiveInstances : Prop :=
  ∀ (i : Instr) (s t : State), exec i s = .next t →
    t.cfgs = s.cfgs ∧ t.insts.length = s.insts.length ∧ t.rsv.length = s.rsv.length ∧
    (t.cur ≠ s.cur → ∃ k, i = .setconfig k ∧ t.cur = k.toNat ∧ t.cur < s.cfgs.length) ∧
    (t.active ≠ s.active → ∃ k, i = .swapinst k ∧ t.active = k.toNat ∧ t.active < s.insts.length) ∧
    ∀ k, k ≠ s.active → t.insts[k]? = s.insts[k]?

/-- Cell observers change only by the OBSADD and OBSDEL command of their file, and an instance's registrations only by
OBSADD and OBSDEL on the active instance (10_state.md R43, 70_reset_and_hazards.md R291). -/
def Obligations.ObserversChangeOnlyByObserverCommands : Prop :=
  ∀ (i : Instr) (s t : State), exec i s = .next t →
    (∀ k : Fin 32, t.x[k].observers ≠ s.x[k].observers → ∃ o, i = .xobsadd o ∨ i = .xobsdel o) ∧
    (t.pc.observers ≠ s.pc.observers → ∃ o, i = .pcobsadd o ∨ i = .pcobsdel o) ∧
    (∀ k : Fin 32, t.f[k].observers ≠ s.f[k].observers → ∃ o, i = .fobsadd o ∨ i = .fobsdel o) ∧
    (∀ k : Fin 12, t.csr[k].observers ≠ s.csr[k].observers → ∃ o, i = .csrobsadd o ∨ i = .csrobsdel o) ∧
    (∀ j : Fin 5, t.csrViews[j] ≠ s.csrViews[j] → ∃ o, i = .csrobsadd o ∨ i = .csrobsdel o) ∧
    ∀ (k : Nat) (m m' : Memory), s.insts[k]? = some m → t.insts[k]? = some m' → m'.observers ≠ m.observers →
      k = s.active ∧ ((∃ o a b, i = .obsadd o a b) ∨ (∃ o a, i = .obsadd1 o a) ∨ ∃ o, i = .obsdel o)

/-- `backstep_en` changes nothing; `smc_en` matters only to the gated commands of 20_memory.md R70 (10_state.md R36). -/
def Obligations.InputsGateOnlyGatedCommands : Prop :=
  ∀ (i : Instr) (s t : State), exec i s = .next t →
    (∀ b, exec i { s with backstepEn := b } = .next { t with backstepEn := b }) ∧
    (¬((∃ l a, i = .get l a) ∨ (∃ l a v, i = .set l a v) ∨ (∃ a, i = .getword a) ∨ (∃ a v, i = .setword a v) ∨
        (∃ a, i = .gethalf a) ∨ (∃ a v, i = .sethalf a v) ∨ (∃ a v, i = .setrawword a v) ∨ (∃ a, i = .getbyte a) ∨
        ∃ a v, i = .setbyte a v) →
      ∀ b, exec i { s with smcEn := b } = .next { t with smcEn := b })

/-- Only the reads and writes that notify emit anything: every other command is silent (20_memory.md R75 for memory,
40_register_cells.md R131, R136, R139 for registers). -/
def Obligations.OtherCommandsAreSilent : Prop :=
  ∀ (i : Instr) (s t : State), exec i s = .next t →
    ¬((∃ l a, i = .get l a) ∨ (∃ l a v, i = .set l a v) ∨ (∃ a, i = .getword a) ∨ (∃ a v, i = .setword a v) ∨
      (∃ a, i = .gethalf a) ∨ (∃ a v, i = .sethalf a v) ∨ (∃ a, i = .getbyte a) ∨ (∃ a v, i = .setbyte a v) ∨
      (∃ a, i = .fetch a) ∨ (∃ a v, i = .install a v) ∨ (∃ k, i = .xread k) ∨ (∃ k v, i = .xwrite k v) ∨
      i = .pcread ∨ (∃ v, i = .pcset v) ∨ i = .pcinc ∨ (∃ v, i = .pcinita v) ∨ (∃ d a, i = .pcinitm d a) ∨
      (∃ k, i = .fread32 k) ∨ (∃ k, i = .fread64 k) ∨ (∃ k v, i = .fwrite32 k v) ∨ (∃ k v, i = .fwrite64 k v) ∨
      (∃ k, i = .csrread k) ∨ ∃ k v, i = .csrwrite k v) →
    t.notices = []

/-! ## The integer file and the pc -/

/-- XREAD and XREADQ answer the register's 64 bits, XREAD with one notice per observer; a number from 32 on is absent
(41_integer_file_and_pc.md R150, R151). -/
def Obligations.IntegerReads : Prop :=
  ∀ (s : State) (idx : Index),
    hasOpcode 0x10 (.xread idx) ∧ hasOpcode 0x11 (.xreadq idx) ∧
    (∀ h : idx.toNat < 32,
      exec (.xread idx) s = .next (s.ends ⟨.ok, false, false, s.x[idx.toNat].value⟩
        [cellNotices .read .x (idx.setWidth 32) s.x[idx.toNat].observers]) ∧
      exec (.xreadq idx) s = .next (s.ends ⟨.ok, false, false, s.x[idx.toNat].value⟩ [])) ∧
    (32 ≤ idx.toNat → exec (.xread idx) s = .next s.absent ∧ exec (.xreadq idx) s = .next s.absent)

/-- XWRITE and XWRITEB store the 64 bits and answer the previous value, XWRITE with one notice per observer; both are
discarded by x0, without a notice; a number from 32 on is absent (41_integer_file_and_pc.md R152, R153). -/
def Obligations.IntegerWrites : Prop :=
  ∀ (s : State) (idx : Index) (data : Word64),
    hasOpcode 0x12 (.xwrite idx data) ∧ hasOpcode 0x13 (.xwriteb idx data) ∧
    (∀ h : idx.toNat < 32, idx ≠ 0 →
      exec (.xwrite idx data) s = .next
        (State.ends { s with x := s.x.set idx.toNat { s.x[idx.toNat] with value := data } }
          ⟨.ok, false, false, s.x[idx.toNat].value⟩
          [cellNotices .write .x (idx.setWidth 32) s.x[idx.toNat].observers]) ∧
      exec (.xwriteb idx data) s = .next
        (State.ends { s with x := s.x.set idx.toNat { s.x[idx.toNat] with value := data } }
          ⟨.ok, false, false, s.x[idx.toNat].value⟩ [])) ∧
    (idx = 0 →
      exec (.xwrite idx data) s = .next (s.ends ⟨.ok, false, false, 0⟩ []) ∧
      exec (.xwriteb idx data) s = .next (s.ends ⟨.ok, false, false, 0⟩ [])) ∧
    (32 ≤ idx.toNat → exec (.xwrite idx data) s = .next s.absent ∧ exec (.xwriteb idx data) s = .next s.absent)

/-- XRESET, FRESET and CSRRESET give every cell of their file its reset value, silently, the pc not included; under the
invariant that value is SP_RESET and GP_RESET for x2 and x3 and 0 for every other cell (41_integer_file_and_pc.md R154,
42_fp_file.md R176, 43_csr_file.md R189). -/
def Obligations.FileResets : Prop :=
  hasOpcode 0x14 .xreset ∧ hasOpcode 0x26 .freset ∧ hasOpcode 0x34 .csrreset ∧
  ∀ s : State,
    exec .xreset s = .next
      (State.ends { s with x := s.x.map fun c => { c with value := c.reset } } ⟨.ok, false, false, 0⟩ []) ∧
    exec .freset s = .next
      (State.ends { s with f := s.f.map fun c => { c with value := c.reset } } ⟨.ok, false, false, 0⟩ []) ∧
    exec .csrreset s = .next
      (State.ends { s with csr := s.csr.map fun c => { c with value := c.reset } } ⟨.ok, false, false, 0⟩ []) ∧
    (s.Inv → s.x[2].reset = s.config.spReset.setWidth 64 ∧ s.x[3].reset = s.config.gpReset.setWidth 64 ∧
      (∀ i : Fin 32, i ≠ 2 → i ≠ 3 → s.x[i].reset = 0) ∧ (∀ i : Fin 32, s.f[i].reset = 0) ∧
      ∀ k : Fin 12, s.csr[k].reset = 0)

/-- XOBSADD, PCOBSADD, FOBSADD and CSROBSADD add the observer to the set of every cell of their file, views included, and
change nothing else (41_integer_file_and_pc.md R155, R164, 42_fp_file.md R177, 43_csr_file.md R190). -/
def Obligations.ObserversAttached : Prop :=
  ∀ (s : State) (o : ObserverId),
    hasOpcode 0x15 (.xobsadd o) ∧ hasOpcode 0x1E (.pcobsadd o) ∧ hasOpcode 0x27 (.fobsadd o) ∧
    hasOpcode 0x35 (.csrobsadd o) ∧
    (∃ t, exec (.xobsadd o) s = .next t ∧ OnlyInteger s t ∧ t.rsp = some ⟨.ok, false, false, 0⟩ ∧ t.notices = [] ∧
      ∀ i : Fin 32, t.x[i].value = s.x[i].value ∧ t.x[i].reset = s.x[i].reset ∧
        ∀ p, p ∈ t.x[i].observers ↔ p ∈ s.x[i].observers ∨ p = o) ∧
    (∃ t, exec (.pcobsadd o) s = .next t ∧ OnlyPc s t ∧ t.rsp = some ⟨.ok, false, false, 0⟩ ∧ t.notices = [] ∧
      t.pc.value = s.pc.value ∧ t.pc.reset = s.pc.reset ∧ ∀ p, p ∈ t.pc.observers ↔ p ∈ s.pc.observers ∨ p = o) ∧
    (∃ t, exec (.fobsadd o) s = .next t ∧ OnlyFloat s t ∧ t.rsp = some ⟨.ok, false, false, 0⟩ ∧ t.notices = [] ∧
      ∀ i : Fin 32, t.f[i].value = s.f[i].value ∧ t.f[i].reset = s.f[i].reset ∧
        ∀ p, p ∈ t.f[i].observers ↔ p ∈ s.f[i].observers ∨ p = o) ∧
    ∃ t, exec (.csrobsadd o) s = .next t ∧
      t = { s with csr := t.csr, csrViews := t.csrViews, rsp := t.rsp, notices := t.notices } ∧
      t.rsp = some ⟨.ok, false, false, 0⟩ ∧ t.notices = [] ∧
      (∀ k : Fin 12, t.csr[k].value = s.csr[k].value ∧ t.csr[k].reset = s.csr[k].reset ∧
        ∀ p, p ∈ t.csr[k].observers ↔ p ∈ s.csr[k].observers ∨ p = o) ∧
      ∀ (j : Fin 5) (p : ObserverId), p ∈ t.csrViews[j] ↔ p ∈ s.csrViews[j] ∨ p = o

/-- XOBSDEL, PCOBSDEL, FOBSDEL and CSROBSDEL remove the observer from the set of every cell of their file, views included,
and change nothing else (41_integer_file_and_pc.md R156, R165, 42_fp_file.md R178, 43_csr_file.md R191). -/
def Obligations.ObserversDetached : Prop :=
  ∀ (s : State) (o : ObserverId),
    hasOpcode 0x16 (.xobsdel o) ∧ hasOpcode 0x1F (.pcobsdel o) ∧ hasOpcode 0x28 (.fobsdel o) ∧
    hasOpcode 0x36 (.csrobsdel o) ∧
    (∃ t, exec (.xobsdel o) s = .next t ∧ OnlyInteger s t ∧ t.rsp = some ⟨.ok, false, false, 0⟩ ∧ t.notices = [] ∧
      ∀ i : Fin 32, t.x[i].value = s.x[i].value ∧ t.x[i].reset = s.x[i].reset ∧
        ∀ p, p ∈ t.x[i].observers ↔ p ∈ s.x[i].observers ∧ p ≠ o) ∧
    (∃ t, exec (.pcobsdel o) s = .next t ∧ OnlyPc s t ∧ t.rsp = some ⟨.ok, false, false, 0⟩ ∧ t.notices = [] ∧
      t.pc.value = s.pc.value ∧ t.pc.reset = s.pc.reset ∧ ∀ p, p ∈ t.pc.observers ↔ p ∈ s.pc.observers ∧ p ≠ o) ∧
    (∃ t, exec (.fobsdel o) s = .next t ∧ OnlyFloat s t ∧ t.rsp = some ⟨.ok, false, false, 0⟩ ∧ t.notices = [] ∧
      ∀ i : Fin 32, t.f[i].value = s.f[i].value ∧ t.f[i].reset = s.f[i].reset ∧
        ∀ p, p ∈ t.f[i].observers ↔ p ∈ s.f[i].observers ∧ p ≠ o) ∧
    ∃ t, exec (.csrobsdel o) s = .next t ∧
      t = { s with csr := t.csr, csrViews := t.csrViews, rsp := t.rsp, notices := t.notices } ∧
      t.rsp = some ⟨.ok, false, false, 0⟩ ∧ t.notices = [] ∧
      (∀ k : Fin 12, t.csr[k].value = s.csr[k].value ∧ t.csr[k].reset = s.csr[k].reset ∧
        ∀ p, p ∈ t.csr[k].observers ↔ p ∈ s.csr[k].observers ∧ p ≠ o) ∧
      ∀ (j : Fin 5) (p : ObserverId), p ∈ t.csrViews[j] ↔ p ∈ s.csrViews[j] ∧ p ≠ o

/-- PCREADQ and PCREAD answer the pc, PCREAD with one notice per pc observer, id -1. PCSET, PCINITA and PCINC store the new
pc and answer the old one, with one notice per pc observer; PCSETB does so silently; PCINC adds 4 modulo 2^64; there is no
alignment or range check (41_integer_file_and_pc.md R157 to R162). -/
def Obligations.PcReadsAndWrites : Prop :=
  ∀ (s : State) (data : Word64),
    hasOpcode 0x17 .pcreadq ∧ hasOpcode 0x18 .pcread ∧ hasOpcode 0x19 (.pcset data) ∧ hasOpcode 0x1A (.pcsetb data) ∧
    hasOpcode 0x1B .pcinc ∧ hasOpcode 0x1C (.pcinita data) ∧
    exec .pcreadq s = .next (s.ends ⟨.ok, false, false, s.pc.value⟩ []) ∧
    exec .pcread s = .next (s.ends ⟨.ok, false, false, s.pc.value⟩
      [cellNotices .read .pc 0xFFFFFFFF s.pc.observers]) ∧
    exec (.pcset data) s = .next (State.ends { s with pc := { s.pc with value := data } }
      ⟨.ok, false, false, s.pc.value⟩ [cellNotices .write .pc 0xFFFFFFFF s.pc.observers]) ∧
    exec (.pcinita data) s = .next (State.ends { s with pc := { s.pc with value := data } }
      ⟨.ok, false, false, s.pc.value⟩ [cellNotices .write .pc 0xFFFFFFFF s.pc.observers]) ∧
    exec (.pcsetb data) s = .next (State.ends { s with pc := { s.pc with value := data } }
      ⟨.ok, false, false, s.pc.value⟩ []) ∧
    exec .pcinc s = .next
      (State.ends { s with pc := { s.pc with value := BitVec.ofNat 64 ((s.pc.value.toNat + 4) % 2 ^ 64) } }
        ⟨.ok, false, false, s.pc.value⟩ [cellNotices .write .pc 0xFFFFFFFF s.pc.observers])

/-- PCINITM loads `main`, zero-extended, if it is defined and classified TEXT under the current configuration, else the
pc's current reset value; either way as a notified write that answers the old pc (41_integer_file_and_pc.md R163). -/
def Obligations.PcInitMain : Prop :=
  ∀ (s : State) (address : Addr),
    (∀ defined, hasOpcode 0x1D (.pcinitm defined address)) ∧
    (classify s.config address = some .text →
      exec (.pcinitm true address) s = .next (State.ends { s with pc := { s.pc with value := address.setWidth 64 } }
        ⟨.ok, false, false, s.pc.value⟩ [cellNotices .write .pc 0xFFFFFFFF s.pc.observers])) ∧
    (classify s.config address ≠ some .text →
      exec (.pcinitm true address) s = .next (State.ends { s with pc := { s.pc with value := s.pc.reset } }
        ⟨.ok, false, false, s.pc.value⟩ [cellNotices .write .pc 0xFFFFFFFF s.pc.observers])) ∧
    exec (.pcinitm false address) s = .next (State.ends { s with pc := { s.pc with value := s.pc.reset } }
      ⟨.ok, false, false, s.pc.value⟩ [cellNotices .write .pc 0xFFFFFFFF s.pc.observers]) ∧
    (s.Inv → s.pc.reset = s.config.pcReset.setWidth 64)

/-! ## The floating-point file -/

/-- FREAD32 answers the low half if the upper half is all ones, else 0x7FC00000; FREAD64 and FREADQ answer the raw 64 bits;
the first two notify; a number from 32 on is absent (42_fp_file.md R170 to R172). -/
def Obligations.FloatReads : Prop :=
  ∀ (s : State) (idx : Index),
    hasOpcode 0x20 (.fread32 idx) ∧ hasOpcode 0x21 (.fread64 idx) ∧ hasOpcode 0x22 (.freadq idx) ∧
    (∀ h : idx.toNat < 32,
      exec (.fread32 idx) s = .next (s.ends
        ⟨.ok, false, false,
          if s.f[idx.toNat].value.extractLsb' 32 32 = 0xFFFFFFFF#32 then
            (s.f[idx.toNat].value.extractLsb' 0 32).setWidth 64
          else 0x7FC00000⟩
        [cellNotices .read .f (idx.setWidth 32) s.f[idx.toNat].observers]) ∧
      exec (.fread64 idx) s = .next (s.ends ⟨.ok, false, false, s.f[idx.toNat].value⟩
        [cellNotices .read .f (idx.setWidth 32) s.f[idx.toNat].observers]) ∧
      exec (.freadq idx) s = .next (s.ends ⟨.ok, false, false, s.f[idx.toNat].value⟩ [])) ∧
    (32 ≤ idx.toNat → exec (.fread32 idx) s = .next s.absent ∧ exec (.fread64 idx) s = .next s.absent ∧
      exec (.freadq idx) s = .next s.absent)

/-- FWRITE32 stores its pattern NaN-boxed, FWRITE64 and FWRITEB store 64 bits unboxed; all answer the previous raw value,
FWRITEB silently; FWRITE32 then FREAD32 answers the pattern, for every pattern (the spec's own inference); a number from
32 on is absent (42_fp_file.md R173 to R175). -/
def Obligations.FloatWrites : Prop :=
  ∀ (s : State) (idx : Index) (w : Word32) (data : Word64),
    hasOpcode 0x23 (.fwrite32 idx w) ∧ hasOpcode 0x24 (.fwrite64 idx data) ∧ hasOpcode 0x25 (.fwriteb idx data) ∧
    (∀ h : idx.toNat < 32,
      exec (.fwrite32 idx w) s = .next
        (State.ends { s with f := s.f.set idx.toNat { s.f[idx.toNat] with value := 0xFFFFFFFF#32 ++ w } }
          ⟨.ok, false, false, s.f[idx.toNat].value⟩
          [cellNotices .write .f (idx.setWidth 32) s.f[idx.toNat].observers]) ∧
      exec (.fwrite64 idx data) s = .next
        (State.ends { s with f := s.f.set idx.toNat { s.f[idx.toNat] with value := data } }
          ⟨.ok, false, false, s.f[idx.toNat].value⟩
          [cellNotices .write .f (idx.setWidth 32) s.f[idx.toNat].observers]) ∧
      exec (.fwriteb idx data) s = .next
        (State.ends { s with f := s.f.set idx.toNat { s.f[idx.toNat] with value := data } }
          ⟨.ok, false, false, s.f[idx.toNat].value⟩ []) ∧
      ∀ t, exec (.fwrite32 idx w) s = .next t →
        ∃ u, exec (.fread32 idx) t = .next u ∧ u.rsp = some ⟨.ok, false, false, w.setWidth 64⟩) ∧
    (32 ≤ idx.toNat → exec (.fwrite32 idx w) s = .next s.absent ∧ exec (.fwrite64 idx data) s = .next s.absent ∧
      exec (.fwriteb idx data) s = .next s.absent)

/-! ## The CSR file -/

/-- CSRREAD and CSRREADQ answer a storage-owning CSR whole and a view as its field of the base; CSRREAD notifies the
addressed cell's observers only; every other number is absent (43_csr_file.md R185, R186; numbers of log entry 8). -/
def Obligations.CsrReads : Prop :=
  (∀ idx, hasOpcode 0x30 (.csrread idx) ∧ hasOpcode 0x31 (.csrreadq idx)) ∧
  ∀ s : State,
    (∀ p ∈ ownCsrs,
      exec (.csrread p.1) s = .next (s.ends ⟨.ok, false, false, s.csr[p.2].value⟩
        [cellNotices .read .csr (p.1.setWidth 32) s.csr[p.2].observers]) ∧
      exec (.csrreadq p.1) s = .next (s.ends ⟨.ok, false, false, s.csr[p.2].value⟩ [])) ∧
    (∀ v ∈ linkedCsrs,
      exec (.csrread v.number) s = .next
        (s.ends ⟨.ok, false, false, (s.csr[v.base].value.extractLsb' v.low v.width).setWidth 64⟩
          [cellNotices .read .csr (v.number.setWidth 32) s.csrViews[v.view]]) ∧
      exec (.csrreadq v.number) s = .next
        (s.ends ⟨.ok, false, false, (s.csr[v.base].value.extractLsb' v.low v.width).setWidth 64⟩ [])) ∧
    ∀ idx : Index, idx ∉ csrOrder → exec (.csrread idx) s = .next s.absent ∧ exec (.csrreadq idx) s = .next s.absent

/-- CSRWRITE answers the previous value and notifies: ustatus takes bits 0 and 4 only, fcsr bits 7:0 only, the seven plain
CSRs all 64 bits; fflags and frm replace their field of fcsr and no other bit, drop what does not fit, answer the previous
field, and notify fcsr's observers before the view's; cycle, time, instret and the h numbers change nothing and answer
unchanged (flag 1); an unmapped number is absent (43_csr_file.md R187, 40_register_cells.md R133 to R135; numbers and masks
of log entry 8). -/
def Obligations.CsrWrites : Prop :=
  ∀ (s : State) (v : Word64),
    (∀ idx, hasOpcode 0x32 (.csrwrite idx v)) ∧
    (∀ p ∈ ownCsrs.take 9, ∃ w : Word64,
      exec (.csrwrite p.1 v) s = .next (State.ends { s with csr := s.csr.set p.2 { s.csr[p.2] with value := w } }
        ⟨.ok, false, false, s.csr[p.2].value⟩
        [cellNotices .write .csr (p.1.setWidth 32) s.csr[p.2].observers]) ∧
      ∀ i < 64, w.getLsbD i =
        if (p.1 = 0x000 ∧ i ≠ 0 ∧ i ≠ 4) ∨ (p.1 = 0x003 ∧ 8 ≤ i) then s.csr[p.2].value.getLsbD i else v.getLsbD i) ∧
    (∀ p ∈ linkedCsrs.take 2, ∃ w : Word64,
      exec (.csrwrite p.number v) s = .next (State.ends { s with csr := s.csr.set 1 { s.csr[1] with value := w } }
        ⟨.ok, false, false, (s.csr[1].value.extractLsb' p.low p.width).setWidth 64⟩
        [cellNotices .write .csr 0x003 s.csr[1].observers,
         cellNotices .write .csr (p.number.setWidth 32) s.csrViews[p.view]]) ∧
      ∀ i < 64, w.getLsbD i =
        if p.low ≤ i ∧ i < p.low + p.width then v.getLsbD (i - p.low) else s.csr[1].value.getLsbD i) ∧
    (∀ idx ∈ [0xC00#12, 0xC01#12, 0xC02#12, 0xC80#12, 0xC81#12, 0xC82#12],
      exec (.csrwrite idx v) s = .next (s.ends ⟨.ok, false, true, 0⟩ [])) ∧
    ∀ idx : Index, idx ∉ csrOrder → exec (.csrwrite idx v) s = .next s.absent

/-- CSRWRITEB stores silently without any mask or refusal: a storage-owning CSR whole, a view's field in its base with the
other bits kept; it answers the previous value or field; an unmapped number is absent (43_csr_file.md R188; numbers and
masks of log entry 8). -/
def Obligations.CsrBackdoorWrites : Prop :=
  ∀ (s : State) (v : Word64),
    (∀ idx, hasOpcode 0x33 (.csrwriteb idx v)) ∧
    (∀ p ∈ ownCsrs,
      exec (.csrwriteb p.1 v) s = .next (State.ends { s with csr := s.csr.set p.2 { s.csr[p.2] with value := v } }
        ⟨.ok, false, false, s.csr[p.2].value⟩ [])) ∧
    (∀ p ∈ linkedCsrs, ∃ w : Word64,
      exec (.csrwriteb p.number v) s = .next
        (State.ends { s with csr := s.csr.set p.base { s.csr[p.base] with value := w } }
          ⟨.ok, false, false, (s.csr[p.base].value.extractLsb' p.low p.width).setWidth 64⟩ []) ∧
      ∀ i < 64, w.getLsbD i =
        if p.low ≤ i ∧ i < p.low + p.width then v.getLsbD (i - p.low) else s.csr[p.base].value.getLsbD i) ∧
    ∀ idx : Index, idx ∉ csrOrder → exec (.csrwriteb idx v) s = .next s.absent

/-- A write through any name is seen at once through the others, whatever the values: v written to fcsr is read through
fflags and frm, and w written to either of them then stands in its field of fcsr beside the other bits of v; the same by
CSRWRITEB for all five views, cycleh, timeh and instreth over their counters included (70_reset_and_hazards.md R294; numbers
and masks of log entry 8). -/
def Obligations.ViewsAliasTheirBase : Prop :=
  ∀ (s : State) (v w : Word64),
    (∃ t, exec (.csrwrite 0x003 v) s = .next t ∧
      (∃ u, exec (.csrreadq 0x001) t = .next u ∧
        u.rsp = some ⟨.ok, false, false, (v.extractLsb' 0 5).setWidth 64⟩) ∧
      (∃ u, exec (.csrreadq 0x002) t = .next u ∧
        u.rsp = some ⟨.ok, false, false, (v.extractLsb' 5 3).setWidth 64⟩) ∧
      (∃ u r d, exec (.csrwrite 0x001 w) t = .next u ∧ exec (.csrreadq 0x003) u = .next r ∧
        r.rsp = some ⟨.ok, false, false, d⟩ ∧ d.extractLsb' 0 8 = v.extractLsb' 5 3 ++ w.extractLsb' 0 5) ∧
      ∃ u r d, exec (.csrwrite 0x002 w) t = .next u ∧ exec (.csrreadq 0x003) u = .next r ∧
        r.rsp = some ⟨.ok, false, false, d⟩ ∧ d.extractLsb' 0 8 = w.extractLsb' 0 3 ++ v.extractLsb' 0 5) ∧
    ∀ p ∈ linkedCsrs, ∃ t, exec (.csrwriteb p.baseNumber v) s = .next t ∧
      (∃ u, exec (.csrreadq p.number) t = .next u ∧
        u.rsp = some ⟨.ok, false, false, (v.extractLsb' p.low p.width).setWidth 64⟩) ∧
      ∃ u r d, exec (.csrwriteb p.number w) t = .next u ∧ exec (.csrreadq p.baseNumber) u = .next r ∧
        r.rsp = some ⟨.ok, false, false, d⟩ ∧
        ∀ i < 64, d.getLsbD i = if p.low ≤ i ∧ i < p.low + p.width then w.getLsbD (i - p.low) else v.getLsbD i

/-- In every order in which the notices of a write to fflags or frm may be delivered, those of fcsr come before those of
the view, each group in some order (70_reset_and_hazards.md R302, 40_register_cells.md R135; the orders of log entry 4). -/
def Obligations.BaseNoticesComeFirst : Prop :=
  ∀ (s t : State) (v : Word64) (order : List Notice), ∀ p ∈ linkedCsrs.take 2, exec (.csrwrite p.number v) s = .next t →
    mayDeliver t.notices order →
    ∃ l₁ l₂, order = l₁ ++ l₂ ∧ l₁.Perm (cellNotices .write .csr 0x003 s.csr[1].observers) ∧
      l₂.Perm (cellNotices .write .csr (p.number.setWidth 32) s.csrViews[p.view])

/-- CSRPOS answers the position in the block's list with flag 1; an unmapped number is absent with flag 0
(43_csr_file.md R192; numbers and order of log entry 8). -/
def Obligations.CsrPositions : Prop :=
  ∀ (s : State) (idx : Index),
    hasOpcode 0x37 (.csrpos idx) ∧
    (∀ pos : Nat, csrOrder[pos]? = some idx →
      exec (.csrpos idx) s = .next (s.ends ⟨.ok, false, true, BitVec.ofNat 64 pos⟩ [])) ∧
    (idx ∉ csrOrder → exec (.csrpos idx) s = .next s.absent)

/-! ## Memory access -/

/-- Classification with the priority data, stack, mmio, text over half-open intervals (20_memory.md R62). -/
def Obligations.ClassificationPriority : Prop :=
  ∀ (c : MemConfig) (a : Addr) (S : Segment), classify c a = some S ↔
    ((c.range S).low.toNat ≤ a.toNat ∧ a.toNat < (c.range S).high.toNat) ∧
    ∀ S' : Segment, (S', S) ∈ [(Segment.data, Segment.stack), (.data, .mmio), (.data, .text), (.stack, .mmio),
        (.stack, .text), (.mmio, .text)] →
      ¬((c.range S').low.toNat ≤ a.toNat ∧ a.toNat < (c.range S').high.toNat)

/-- The notified loads. Where they complete: the answer is the little-endian bytes of the access, zero-extended, with one
READ notice per matching registration, and nothing else changes; storage that was never written holds 0, and a load of it
answers 0 (10_state.md R41, 20_memory.md R67). Their errors in their order: illegal length, alignment, no segment, the gate,
the end of the segment (44_memory_access.md R200, R202, R204). That an access which runs into an overlapping segment of
higher priority completes through the segment of its first byte is the model's reading (log entry 5). -/
def Obligations.Loads : Prop :=
  (∀ len a, hasOpcode 0x40 (.get len a) ∧ hasOpcode 0x42 (.getword a) ∧ hasOpcode 0x44 (.gethalf a)) ∧
  (∀ (s : State) (a : Addr) (i : Instr) (n : Nat) (S : Segment),
     (i, n) ∈ [(Instr.get 1 a, 1), (.get 2 a, 2), (.get 4 a, 4), (.getbyte a, 1), (.gethalf a, 2), (.getword a, 4)] →
     (i = .getword a → a.toNat % 4 = 0) → (i = .gethalf a → a.toNat % 2 = 0) →
     s.fits S a n → (S = .text → s.smcEn = true) →
     ∃ v : Word32,
       exec i s = .next (s.ends ⟨.ok, false, false, v.setWidth 64⟩ [s.noticesOf .read a n v]) ∧
       (∀ k < n, v.extractLsb' (8 * k) 8 = s.byte S (a + BitVec.ofNat 32 k)) ∧
       (∀ j, 8 * n ≤ j → v.getLsbD j = false) ∧
       (s.Inv → (∀ k < n, s.word S (a + BitVec.ofNat 32 k) = none) → v = 0)) ∧
  (∀ (s : State) (S : Segment) (b : Addr), s.Inv → s.word S b = none → s.byte S b = 0) ∧
  ∀ (s : State) (a : Addr),
    (∀ len : BitVec 4, len ≠ 1 → len ≠ 2 → len ≠ 4 → exec (.get len a) s = .next (s.failed .illegalCmd 0)) ∧
    (a.toNat % 4 ≠ 0 → exec (.getword a) s = .next (s.failed .loadMisaligned a)) ∧
    (a.toNat % 2 ≠ 0 → exec (.gethalf a) s = .next (s.failed .loadMisaligned a)) ∧
    ∀ (i : Instr) (n : Nat),
      (i, n) ∈ [(Instr.get 1 a, 1), (.get 2 a, 2), (.get 4 a, 4), (.getbyte a, 1), (.gethalf a, 2), (.getword a, 4)] →
      (i = .getword a → a.toNat % 4 = 0) → (i = .gethalf a → a.toNat % 2 = 0) →
      (classify s.config a = none → exec i s = .next (s.failed .loadRange a)) ∧
      (classify s.config a = some .text → s.smcEn = false → exec i s = .next (s.failed .loadTextForbidden a)) ∧
      ∀ S, classify s.config a = some S → (S = .text → s.smcEn = true) →
        (s.config.range S).high.toNat < a.toNat + n → exec i s = .next (s.failed .loadRange a)

/-- The stores. Where they complete, TEXT with smc_en = 1 included: they store exactly the addressed bytes little-endian,
answer the previous ones, notify unless silent, make present exactly the granules they write, and change nothing else.
Their errors in their order: illegal length, alignment, no segment, the gate, a TEXT write across a word, the end of the
segment (44_memory_access.md R201, R205, R207; SETWORD too). That an access which runs into an overlapping segment of higher
priority completes through the segment of its first byte is the model's reading (log entry 5). -/
def Obligations.Stores : Prop :=
  (∀ len a v h, hasOpcode 0x41 (.set len a v) ∧ hasOpcode 0x43 (.setword a v) ∧ hasOpcode 0x45 (.sethalf a h) ∧
    hasOpcode 0x47 (.setrawword a v)) ∧
  (∀ (s : State) (a : Addr) (v : Word32) (i : Instr) (n : Nat) (S : Segment), s.Inv →
     (i, n) ∈ [(Instr.set 1 a v, 1), (.set 2 a v, 2), (.set 4 a v, 4), (.setbyte a v, 1), (.sethalf a (v.setWidth 16), 2),
       (.setword a v, 4), (.setrawword a v, 4)] →
     (n = 4 → i ≠ .set 4 a v → a.toNat % 4 = 0) → (i = .sethalf a (v.setWidth 16) → a.toNat % 2 = 0) →
     s.fits S a n → (S = .text → s.smcEn = true ∧ a.toNat % 4 + n ≤ 4) →
     ∃ (t : State) (prev : Word32), exec i s = .next t ∧
       t.rsp = some ⟨.ok, false, false, prev.setWidth 64⟩ ∧
       t.notices =
         (if i = .setrawword a v then [] else [s.noticesOf .write a n (BitVec.ofNat 32 (v.toNat % 256 ^ n))]) ∧
       (∀ k < n, prev.extractLsb' (8 * k) 8 = s.byte S (a + BitVec.ofNat 32 k)) ∧ (∀ j, 8 * n ≤ j → prev.getLsbD j = false) ∧
       OnlyMemory s t ∧ t.memory.dims = s.memory.dims ∧ t.memory.heap = s.memory.heap ∧
       t.memory.observers = s.memory.observers ∧ (∀ S', S' ≠ S → t.memory.table S' = s.memory.table S') ∧
       ∀ (S' : Segment) (b : Addr), s.inSegment S' b →
         t.byte S' b =
           (if S' = S ∧ a.toNat ≤ b.toNat ∧ b.toNat < a.toNat + n then v.extractLsb' (8 * (b.toNat - a.toNat)) 8
            else s.byte S' b) ∧
         ((t.word S' b).isSome ↔ (s.word S' b).isSome ∨
           S' = S ∧ ∃ k < n, s.sameGranule S b (a + BitVec.ofNat 32 k))) ∧
  ∀ (s : State) (a : Addr) (v : Word32),
    (∀ len : BitVec 4, len ≠ 1 → len ≠ 2 → len ≠ 4 → exec (.set len a v) s = .next (s.failed .illegalCmd 0)) ∧
    (a.toNat % 4 ≠ 0 → exec (.setword a v) s = .next (s.failed .storeMisaligned a) ∧
      exec (.setrawword a v) s = .next (s.failed .storeMisaligned a)) ∧
    (∀ h : BitVec 16, a.toNat % 2 ≠ 0 → exec (.sethalf a h) s = .next (s.failed .storeMisaligned a)) ∧
    ∀ (i : Instr) (n : Nat),
      (i, n) ∈ [(Instr.set 1 a v, 1), (.set 2 a v, 2), (.set 4 a v, 4), (.setbyte a v, 1),
        (.sethalf a (v.setWidth 16), 2), (.setword a v, 4), (.setrawword a v, 4)] →
      (n = 4 → i ≠ .set 4 a v → a.toNat % 4 = 0) → (i = .sethalf a (v.setWidth 16) → a.toNat % 2 = 0) →
      (classify s.config a = none → exec i s = .next (s.failed .storeRange a)) ∧
      (classify s.config a = some .text → s.smcEn = false → exec i s = .next (s.failed .storeTextForbidden a)) ∧
      (classify s.config a = some .text → s.smcEn = true → 4 < a.toNat % 4 + n →
        exec i s = .next (s.failed .storeMisaligned a)) ∧
      ∀ S, S ≠ .text → classify s.config a = some S → (s.config.range S).high.toNat < a.toNat + n →
        exec i s = .next (s.failed .storeRange a)

/-- A load after a completed store of the same address and length answers the bytes stored, in every segment: every store of n
bytes, INSTALL included, with every load of n bytes, FETCH and GETRAWWORDORNULL included (both with flag 1), wherever the
load's own conditions hold: its alignment, TEXT for FETCH, an open gate for a gated load of TEXT (20_memory.md R76). It does so
after SETWORD wherever GETWORD may read (44_memory_access.md R203; TEXT is the spec's own inference). Which accesses complete
where segments overlap: log entry 5. -/
def Obligations.LoadAfterStore : Prop :=
  (∀ (s t : State) (a : Addr) (v : Word32) (store load : Instr) (n : Nat) (flag : Bool) (r : Response), s.Inv →
    (store, n) ∈ [(Instr.set 1 a v, 1), (.set 2 a v, 2), (.set 4 a v, 4), (.setbyte a v, 1), (.sethalf a (v.setWidth 16), 2),
      (.setword a v, 4), (.setrawword a v, 4), (.install a v, 4)] →
    (load, n, flag) ∈ [(Instr.get 1 a, 1, false), (.get 2 a, 2, false), (.get 4 a, 4, false), (.getbyte a, 1, false),
      (.gethalf a, 2, false), (.getword a, 4, false), (.getrawword a, 4, false), (.getrawwordornull a, 4, true),
      (.fetch a, 4, true)] →
    exec store s = .next t → t.rsp = some r → r.status = .ok →
    (n = 4 → load ≠ .get 4 a → a.toNat % 4 = 0) → (load = .gethalf a → a.toNat % 2 = 0) →
    (load = .fetch a → classify s.config a = some .text) →
    (load ∉ [.getrawword a, .getrawwordornull a, .fetch a] → classify s.config a = some .text → s.smcEn = true) →
    ∃ u, exec load t = .next u ∧ u.rsp = some ⟨.ok, false, flag, BitVec.ofNat 64 (v.toNat % 256 ^ n)⟩) ∧
  ∀ (s t : State) (a : Addr) (v : Word32) (S : Segment), s.Inv → a.toNat % 4 = 0 → classify s.config a = some S →
    (S = .text → s.smcEn = true) → exec (.setword a v) s = .next t →
    ∃ u, exec (.getword a) t = .next u ∧ u.rsp = some ⟨.ok, false, false, v.setWidth 64⟩

/-- GETRAWWORD: misaligned and unmapped addresses fail, every other answers its word silently, TEXT in either mode
(44_memory_access.md R206). -/
def Obligations.RawWordReads : Prop :=
  (∀ a, hasOpcode 0x46 (.getrawword a)) ∧
  ∀ (s : State) (a : Addr), s.Inv →
    (a.toNat % 4 ≠ 0 → exec (.getrawword a) s = .next (s.failed .loadMisaligned a)) ∧
    (a.toNat % 4 = 0 → classify s.config a = none → exec (.getrawword a) s = .next (s.failed .loadRange a)) ∧
    ∀ S, a.toNat % 4 = 0 → classify s.config a = some S → ∃ v : Word32,
      exec (.getrawword a) s = .next (s.ends ⟨.ok, false, false, v.setWidth 64⟩ []) ∧
      ∀ k < 4, v.extractLsb' (8 * k) 8 = s.byte S (a + BitVec.ofNat 32 k)

/-- GETRAWWORDORNULL: null (flag 0) where the granule of the word was never written, else the word with flag 1; silent
(44_memory_access.md R208). -/
def Obligations.NullReads : Prop :=
  (∀ a, hasOpcode 0x48 (.getrawwordornull a)) ∧
  ∀ (s : State) (a : Addr), s.Inv →
    (a.toNat % 4 ≠ 0 → exec (.getrawwordornull a) s = .next (s.failed .loadMisaligned a)) ∧
    (a.toNat % 4 = 0 → classify s.config a = none → exec (.getrawwordornull a) s = .next (s.failed .loadRange a)) ∧
    ∀ S, a.toNat % 4 = 0 → classify s.config a = some S →
      (s.word S a = none → exec (.getrawwordornull a) s = .next (s.ends ⟨.ok, false, false, 0⟩ [])) ∧
      ∀ w, s.word S a = some w →
        exec (.getrawwordornull a) s = .next (s.ends ⟨.ok, false, true, w.setWidth 64⟩ []) ∧
        ∀ k < 4, w.extractLsb' (8 * k) 8 = s.byte S (a + BitVec.ofNat 32 k)

/-- FETCH: TEXT only, not gated; the slot's word with flag 1, or 0 with flag 0 for an empty slot, and a READ notice
(44_memory_access.md R209). -/
def Obligations.Fetches : Prop :=
  ∀ (s : State) (a : Addr),
    hasOpcode 0x49 (.fetch a) ∧
    (a.toNat % 4 ≠ 0 → exec (.fetch a) s = .next (s.failed .loadMisaligned a)) ∧
    (a.toNat % 4 = 0 → classify s.config a ≠ some .text → exec (.fetch a) s = .next (s.failed .loadRange a)) ∧
    (a.toNat % 4 = 0 → classify s.config a = some .text →
      (s.word .text a = none →
        exec (.fetch a) s = .next (s.ends ⟨.ok, false, false, 0⟩ [s.noticesOf .read a 4 0])) ∧
      ∀ w, s.word .text a = some w →
        exec (.fetch a) s = .next (s.ends ⟨.ok, false, true, w.setWidth 64⟩ [s.noticesOf .read a 4 w]))

/-- INSTALL: TEXT only, not gated; the slot holds the word afterwards, every other slot and byte as before; the answer is
the previous word and whether there was one, with a WRITE notice (44_memory_access.md R210). -/
def Obligations.Installs : Prop :=
  (∀ a v, hasOpcode 0x4A (.install a v)) ∧
  ∀ (s : State) (a : Addr) (v : Word32), s.Inv →
    (a.toNat % 4 ≠ 0 → exec (.install a v) s = .next (s.failed .storeMisaligned a)) ∧
    (a.toNat % 4 = 0 → classify s.config a ≠ some .text → exec (.install a v) s = .next (s.failed .storeRange a)) ∧
    (a.toNat % 4 = 0 → classify s.config a = some .text → ∃ t, exec (.install a v) s = .next t ∧
      t.rsp = some ⟨.ok, false, (s.word .text a).isSome, ((s.word .text a).getD 0).setWidth 64⟩ ∧
      t.notices = [s.noticesOf .write a 4 v] ∧ OnlyMemory s t ∧ t.memory.dims = s.memory.dims ∧
      t.memory.heap = s.memory.heap ∧ t.memory.observers = s.memory.observers ∧
      (∀ S', S' ≠ .text → t.memory.table S' = s.memory.table S') ∧
      ∀ b, s.inSegment .text b →
        t.word .text b = (if b.toNat / 4 = a.toNat / 4 then some v else s.word .text b) ∧
        t.byte .text b =
          (if b.toNat / 4 = a.toNat / 4 then v.extractLsb' (8 * (b.toNat - a.toNat)) 8 else s.byte .text b))

/-- `notify_mem` makes a notice for a registration exactly when its range meets the four bytes of the word of the first byte,
one notice per registration (20_memory.md R74); and it is what the commands emit, GETWORD and SETWORD for instance. -/
def Obligations.NoticesFollowTheTouchedWord : Prop :=
  (∀ (s : State) (kind : AccessKind) (a : Addr) (n : Nat) (v : Word32), s.Inv →
    memoryNotices s kind a n v =
      (s.memory.observers.filter fun o =>
        decide (∃ p < 4, o.start.toNat ≤ a.toNat / 4 * 4 + p ∧ a.toNat / 4 * 4 + p ≤ o.stop.toNat)).map fun o =>
          { kind := kind, space := .mem, obs := o.obs, len := BitVec.ofNat 4 n, id := a, value := v }) ∧
  ∀ (s t : State) (a : Addr) (v : Word32) (r : Response), r.status = .ok → t.rsp = some r →
    (exec (.getword a) s = .next t → t.notices = [memoryNotices s .read a 4 (r.data.setWidth 32)]) ∧
    (exec (.setword a v) s = .next t → t.notices = [memoryNotices s .write a 4 v])

/-- An observer of one word is told exactly once, with length and value, of a completed notified store whose first byte lies in
that word, and of no other store: none whose first byte lies elsewhere, whatever it spills into, and no SETRAWWORD
(20_memory.md R74, R75 with its worked property). -/
def Obligations.OneWordObserver : Prop :=
  ∀ (s t u : State) (o : ObserverId) (x b : Addr) (v : Word32) (store : Instr) (n : Nat), s.Inv → s.memory.observers = [] →
    exec (.obsadd1 o x) s = .next t →
    (store, n) ∈ [(Instr.set 1 b v, 1), (.set 2 b v, 2), (.set 4 b v, 4), (.setbyte b v, 1), (.sethalf b (v.setWidth 16), 2),
      (.setword b v, 4), (.install b v, 4), (.setrawword b v, 4)] →
    exec store t = .next u → (∀ r, u.rsp = some r → r.status = .ok) →
    u.notices.flatten =
      if b.toNat / 4 = x.toNat / 4 ∧ store ≠ .setrawword b v then
        [⟨.write, .mem, o, BitVec.ofNat 4 n, b, BitVec.ofNat 32 (v.toNat % 256 ^ n)⟩]
      else []

/-! ## Memory management -/

/-- ALLOC: a negative size and a cursor past DATA_HIGH fail; otherwise the cursor moves up by the size rounded up to a
multiple of 4 and the old cursor is the answer (45_memory_management.md R230). -/
def Obligations.Allocates : Prop :=
  ∀ (s : State) (size : Word32),
    hasOpcode 0x4B (.alloc size) ∧
    (size.toInt < 0 → exec (.alloc size) s = .next (s.failed .heapBadSize 0)) ∧
    (0 ≤ size.toInt → s.config.data.high.toNat < s.memory.heap.toNat + (size.toNat + 3) / 4 * 4 →
      exec (.alloc size) s = .next (s.failed .heapExhausted s.memory.heap)) ∧
    (0 ≤ size.toInt → s.memory.heap.toNat + (size.toNat + 3) / 4 * 4 ≤ s.config.data.high.toNat →
      exec (.alloc size) s = .next
        (State.ends
          { s with
            insts := s.insts.set s.active
              { s.memory with heap := BitVec.ofNat 32 (s.memory.heap.toNat + (size.toNat + 3) / 4 * 4) } }
          ⟨.ok, false, false, s.memory.heap.setWidth 64⟩ []))

/-- FIRSTNULL answers the first word from base on that was never written, or the first address not below limit, or fails
at the first scanned address in no segment; a misaligned base fails first (45_memory_management.md R231). -/
def Obligations.FirstNullScans : Prop :=
  ∀ (s : State) (base limit : Addr),
    hasOpcode 0x4C (.firstnull base limit) ∧
    (base.toNat % 4 ≠ 0 → exec (.firstnull base limit) s = .next (s.failed .loadMisaligned base)) ∧
    (base.toNat % 4 = 0 → ∀ k : Nat,
      (∀ j < k, base.toNat + 4 * j < limit.toNat ∧ ∃ S w, classify s.config (BitVec.ofNat 32 (base.toNat + 4 * j)) = some S ∧
        s.word S (BitVec.ofNat 32 (base.toNat + 4 * j)) = some w) →
      (limit.toNat ≤ base.toNat + 4 * k →
        exec (.firstnull base limit) s =
          .next (s.ends ⟨.ok, false, false, BitVec.ofNat 64 (base.toNat + 4 * k)⟩ [])) ∧
      (base.toNat + 4 * k < limit.toNat → classify s.config (BitVec.ofNat 32 (base.toNat + 4 * k)) = none →
        exec (.firstnull base limit) s = .next (s.failed .loadRange (BitVec.ofNat 32 (base.toNat + 4 * k)))) ∧
      ∀ S, base.toNat + 4 * k < limit.toNat → classify s.config (BitVec.ofNat 32 (base.toNat + 4 * k)) = some S →
        s.word S (BitVec.ofNat 32 (base.toNat + 4 * k)) = none →
        exec (.firstnull base limit) s =
          .next (s.ends ⟨.ok, false, false, BitVec.ofNat 64 (base.toNat + 4 * k)⟩ []))

/-- MEMCLEAR empties the four tables of the active instance and returns its cursor to HEAP_LOW, keeping its registrations
and everything else (45_memory_management.md R232). -/
def Obligations.MemoryCleared : Prop :=
  hasOpcode 0x4D .memclear ∧
  ∀ s : State, s.Inv → ∃ t, exec .memclear s = .next t ∧ t.rsp = some ⟨.ok, false, false, 0⟩ ∧ t.notices = [] ∧
    OnlyMemory s t ∧ t.memory.dims = s.memory.dims ∧ t.memory.heap = s.config.heapLow ∧
    t.memory.observers = s.memory.observers ∧
    ∀ (S : Segment) (a : Addr), t.word S a = none ∧ t.byte S a = 0

/-- COPYFROM: with equal dims the four tables become those of the source, flag 1, the cursor and the registrations kept;
with other dims nothing changes, flag 0; an instance that is not there is illegal (45_memory_management.md R233). -/
def Obligations.InstancesCopied : Prop :=
  ∀ (s : State) (k : Index),
    hasOpcode 0x4E (.copyfrom k) ∧
    (s.insts.length ≤ k.toNat → exec (.copyfrom k) s = .next (s.failed .illegalCmd 0)) ∧
    ∀ h : k.toNat < s.insts.length,
      (s.insts[k.toNat].dims ≠ s.memory.dims → exec (.copyfrom k) s = .next (s.ends ⟨.ok, false, false, 0⟩ [])) ∧
      (s.insts[k.toNat].dims = s.memory.dims → exec (.copyfrom k) s = .next
        (State.ends
          { s with
            insts := s.insts.set s.active
              { s.memory with
                text := s.insts[k.toNat].text, data := s.insts[k.toNat].data, stack := s.insts[k.toNat].stack,
                mmio := s.insts[k.toNat].mmio } }
          ⟨.ok, false, true, 0⟩ []))

/-- SWAPINST: an instance with the current configuration's dims becomes active and the answer is the previous one's index;
other dims are INCOMPATIBLE; an instance that is not there is illegal (45_memory_management.md R234). -/
def Obligations.InstancesSwapped : Prop :=
  ∀ (s : State) (k : Index),
    hasOpcode 0x4F (.swapinst k) ∧
    (s.insts.length ≤ k.toNat → exec (.swapinst k) s = .next (s.failed .illegalCmd 0)) ∧
    ∀ h : k.toNat < s.insts.length,
      (s.insts[k.toNat].dims ≠ dimsOf s.config → exec (.swapinst k) s = .next (s.failed .incompatible 0)) ∧
      (s.insts[k.toNat].dims = dimsOf s.config → exec (.swapinst k) s = .next
        (State.ends { s with active := k.toNat } ⟨.ok, false, false, BitVec.ofNat 64 s.active⟩ []))

/-- OBSADD and OBSADD1 add exactly their triple to the active instance's set, after rejecting an inverted or a straddling
range; OBSDEL drops exactly the observer's triples (45_memory_management.md R235, R236, 30_encoding.md R112). -/
def Obligations.MemoryObserversRegistered : Prop :=
  ∀ (s : State) (o : ObserverId) (a b : Addr),
    hasOpcode 0x50 (.obsadd o a b) ∧ hasOpcode 0x51 (.obsdel o) ∧
    (b.toNat < a.toNat → exec (.obsadd o a b) s = .next (s.failed .obsRangeInverted a)) ∧
    (a.toNat < 0x80000000 → 0x80000000 ≤ b.toNat → exec (.obsadd o a b) s = .next (s.failed .obsRangeStraddle a)) ∧
    (s.active < s.insts.length →
      (a.toNat ≤ b.toNat → ¬(a.toNat < 0x80000000 ∧ 0x80000000 ≤ b.toNat) → ∃ t, exec (.obsadd o a b) s = .next t ∧
        t.rsp = some ⟨.ok, false, false, 0⟩ ∧ t.notices = [] ∧ OnlyMemory s t ∧
        t.memory = { s.memory with observers := t.memory.observers } ∧
        ∀ r, r ∈ t.memory.observers ↔ r ∈ s.memory.observers ∨ r = ⟨o, a, b⟩) ∧
      (∃ t, exec (.obsadd1 o a) s = .next t ∧
        t.rsp = some ⟨.ok, false, false, 0⟩ ∧ t.notices = [] ∧ OnlyMemory s t ∧
        t.memory = { s.memory with observers := t.memory.observers } ∧
        ∀ r, r ∈ t.memory.observers ↔ r ∈ s.memory.observers ∨ r = ⟨o, a, a⟩) ∧
      ∃ t, exec (.obsdel o) s = .next t ∧
        t.rsp = some ⟨.ok, false, false, 0⟩ ∧ t.notices = [] ∧ OnlyMemory s t ∧
        t.memory = { s.memory with observers := t.memory.observers } ∧
        ∀ r, r ∈ t.memory.observers ↔ r ∈ s.memory.observers ∧ r.obs ≠ o)

/-- SETCONFIG: another configuration becomes current, the active instance is emptied under it, the reset values of x2, x3
and the pc become its own, no register's value changes, flag 1; the current one changes nothing, flag 0; an index that is
not there is illegal (45_memory_management.md R238). -/
def Obligations.ConfigurationSelected : Prop :=
  ∀ (s : State) (k : Index),
    hasOpcode 0x52 (.setconfig k) ∧
    (s.cfgs.length ≤ k.toNat → exec (.setconfig k) s = .next (s.failed .illegalCmd 0)) ∧
    (k.toNat < s.cfgs.length → k.toNat = s.cur →
      exec (.setconfig k) s = .next (s.ends ⟨.ok, false, false, 0⟩ [])) ∧
    ∀ h : k.toNat < s.cfgs.length, k.toNat ≠ s.cur → s.active < s.insts.length →
      ∃ t, exec (.setconfig k) s = .next t ∧ t.rsp = some ⟨.ok, false, true, 0⟩ ∧ t.notices = [] ∧
        t.cur = k.toNat ∧ t.config = s.cfgs[k.toNat] ∧ t.memory.dims = dimsOf s.cfgs[k.toNat] ∧
        t.memory.heap = s.cfgs[k.toNat].heapLow ∧ t.memory.observers = s.memory.observers ∧
        (∀ S, (t.memory.table S).present = [] ∧ (t.memory.table S).bytes = []) ∧
        t.x = (s.x.set 2 { s.x[2] with reset := s.cfgs[k.toNat].spReset.setWidth 64 }).set 3
          { s.x[3] with reset := s.cfgs[k.toNat].gpReset.setWidth 64 } ∧
        t.pc = { s.pc with reset := s.cfgs[k.toNat].pcReset.setWidth 64 } ∧
        t = { s with
          x := t.x, pc := t.pc, cur := t.cur, insts := s.insts.set s.active t.memory, rsp := t.rsp,
          notices := t.notices }

/-! ## Reservations -/

/-- RESERVE: illegal width or hart, then alignment; a duplicate changes nothing; otherwise the entry is appended to the
hart's table, the oldest entry leaving a full one, and no other table changes (46_reservation.md R252). -/
def Obligations.ReservationsRecorded : Prop :=
  ∀ (s : State) (h : Index) (a : Addr),
    (∀ len, hasOpcode 0x60 (.reserve h len a)) ∧
    (∀ len : BitVec 4, len ≠ 4 → len ≠ 8 → exec (.reserve h len a) s = .next (s.failed .illegalCmd 0)) ∧
    ∀ (len : BitVec 4) (w : Width), (len, w) ∈ [(4#4, Width.word), (8#4, Width.doubleword)] →
      (s.rsv.length ≤ h.toNat → exec (.reserve h len a) s = .next (s.failed .illegalCmd 0)) ∧
      ∀ hh : h.toNat < s.rsv.length,
        (a.toNat % len.toNat ≠ 0 → exec (.reserve h len a) s = .next (s.failed .reserveMisaligned a)) ∧
        (a.toNat % len.toNat = 0 →
          (⟨a, w⟩ ∈ s.rsv[h.toNat] → exec (.reserve h len a) s = .next (s.ends ⟨.ok, false, false, 0⟩ [])) ∧
          (⟨a, w⟩ ∉ s.rsv[h.toNat] → exec (.reserve h len a) s = .next
            (State.ends
              { s with
                rsv := s.rsv.set h.toNat
                  ((if s.rsv[h.toNat].length = 8 then s.rsv[h.toNat].tail else s.rsv[h.toNat]) ++ [⟨a, w⟩]) }
              ⟨.ok, false, false, 0⟩ [])))

/-- An entry matches a request when address and width are the same, or when it is a doubleword entry that covers the
requested word (46_reservation.md R251). UNRESERVE: illegal width or hart, then alignment; without a matching entry in the
hart's own table nothing changes, flag 0; with one, every matching entry of every table is removed, the rest kept in
order, flag 1; RSVRESET empties every table (46_reservation.md R253, R255). -/
def Obligations.UnreservesOnMatch : Prop :=
  (∀ (e : Reservation) (a : Addr) (w : Width), reservationMatches e a w = true ↔
    (e.address = a ∧ e.width = w) ∨
      (w = .word ∧ e.width = .doubleword ∧ e.address.toNat = a.toNat / 8 * 8)) ∧
  hasOpcode 0x62 .rsvreset ∧
  ∀ (s : State) (h : Index) (a : Addr),
    (∀ len, hasOpcode 0x61 (.unreserve h len a)) ∧
    (∀ len : BitVec 4, len ≠ 4 → len ≠ 8 → exec (.unreserve h len a) s = .next (s.failed .illegalCmd 0)) ∧
    (∀ (len : BitVec 4) (w : Width), (len, w) ∈ [(4#4, Width.word), (8#4, Width.doubleword)] →
      (s.rsv.length ≤ h.toNat → exec (.unreserve h len a) s = .next (s.failed .illegalCmd 0)) ∧
      ∀ hh : h.toNat < s.rsv.length,
        (a.toNat % len.toNat ≠ 0 → exec (.unreserve h len a) s = .next (s.failed .unreserveMisaligned a)) ∧
        (a.toNat % len.toNat = 0 →
          ((∀ e ∈ s.rsv[h.toNat], reservationMatches e a w = false) →
            exec (.unreserve h len a) s = .next (s.ends ⟨.ok, false, false, 0⟩ [])) ∧
          ((∃ e ∈ s.rsv[h.toNat], reservationMatches e a w = true) →
            exec (.unreserve h len a) s = .next
              (State.ends { s with rsv := s.rsv.map fun t => t.filter fun e => !reservationMatches e a w }
                ⟨.ok, false, true, 0⟩ [])))) ∧
    exec .rsvreset s = .next (State.ends { s with rsv := s.rsv.map fun _ => [] } ⟨.ok, false, false, 0⟩ [])

/-- Same hart: RESERVE then UNRESERVE succeeds and a second UNRESERVE fails. Two harts: both RESERVE, the first UNRESERVE
succeeds and the other hart's fails. The spec marks these two properties as its own inference (46_reservation.md R254). -/
def Obligations.FirstStoreConditionalWins : Prop :=
  ∀ (s : State) (g h : Index) (len : BitVec 4) (a : Addr), (len = 4 ∨ len = 8) → a.toNat % len.toNat = 0 →
    g.toNat < s.rsv.length → h.toNat < s.rsv.length → ∃ s₁, exec (.reserve g len a) s = .next s₁ ∧
    (∃ s₂ s₃, exec (.unreserve g len a) s₁ = .next s₂ ∧ s₂.rsp = some ⟨.ok, false, true, 0⟩ ∧
      exec (.unreserve g len a) s₂ = .next s₃ ∧ s₃.rsp = some ⟨.ok, false, false, 0⟩) ∧
    (g ≠ h → ∃ s₂ s₃ s₄, exec (.reserve h len a) s₁ = .next s₂ ∧ exec (.unreserve g len a) s₂ = .next s₃ ∧
      s₃.rsp = some ⟨.ok, false, true, 0⟩ ∧ exec (.unreserve h len a) s₃ = .next s₄ ∧
      s₄.rsp = some ⟨.ok, false, false, 0⟩)
end

