-- ==== Sys2Proof/Laws/AddressMap.lean ====
section
/-! SUPPORT. The laws of the address map (Machine/Layout.lean): which place of which table an address reaches. -/

namespace Sys2Proof.Machine

/-! ## Address arithmetic -/

/-- The byte position inside a word. -/
theorem toNat_and_three (a : Addr) : (a &&& 3).toNat = a.toNat % 4 := by
  rw [BitVec.toNat_and]
  exact Nat.and_two_pow_sub_one_eq_mod a.toNat 2

/-- The address of the word a byte is in. -/
theorem toNat_word (a : Addr) : (a &&& (0xFFFFFFFC : Addr)).toNat = a.toNat / 4 * 4 := by
  have h : a &&& (0xFFFFFFFC : Addr) = (a >>> 2) <<< 2 := by
    have hm : ∀ i < 32, (0xFFFFFFFC : Addr).getLsbD i = decide (2 ≤ i) := by decide
    apply BitVec.eq_of_getLsbD_eq
    intro i hi
    simp only [BitVec.getLsbD_and, hm i hi, BitVec.getLsbD_shiftLeft, BitVec.getLsbD_ushiftRight, hi, decide_true,
      Bool.true_and]
    by_cases h2 : 2 ≤ i
    · simp [h2, show ¬ i < 2 by omega, show 2 + (i - 2) = i by omega]
    · simp [h2, show i < 2 by omega]
  have := a.isLt
  rw [h, BitVec.toNat_shiftLeft, BitVec.toNat_ushiftRight, Nat.shiftRight_eq_div_pow, Nat.shiftLeft_eq]
  omega

theorem wordAligned_iff (a : Addr) : wordAligned a = true ↔ a.toNat % 4 = 0 := by
  rw [wordAligned, beq_iff_eq, ← toNat_and_three]
  exact ⟨fun h => by rw [h]; rfl, fun h => BitVec.eq_of_toNat_eq (by simpa using h)⟩

theorem halfAligned_iff (a : Addr) : halfAligned a = true ↔ a.toNat % 2 = 0 := by
  have h1 : (a &&& 1).toNat = a.toNat % 2 := by
    rw [BitVec.toNat_and]
    exact Nat.and_two_pow_sub_one_eq_mod a.toNat 1
  rw [halfAligned, beq_iff_eq, ← h1]
  exact ⟨fun h => by rw [h]; rfl, fun h => BitVec.eq_of_toNat_eq (by simpa using h)⟩

/-- The address of a byte of an access that does not wrap. -/
theorem toNat_add_offset (a : Addr) (k : Nat) (h : a.toNat + k < 2 ^ 32) :
    (a + BitVec.ofNat 32 k).toNat = a.toNat + k := by
  rw [BitVec.toNat_add, BitVec.toNat_ofNat]
  omega

/-! ## Segments -/

theorem rangeContains_iff (r : Range) (a : Addr) :
    rangeContains r a = true ↔ r.low.toNat ≤ a.toNat ∧ a.toNat < r.high.toNat := by
  simp [rangeContains, BitVec.le_def, BitVec.lt_def]

/-- An address that classifies a segment is in its interval (20_memory.md R62). -/
theorem contains_of_classify (c : MemConfig) (a : Addr) (S : Segment) (h : classify c a = some S) :
    rangeContains (c.range S) a = true := by
  simp only [classify] at h
  split at h
  · cases h; assumption
  · split at h
    · cases h; assumption
    · split at h
      · cases h; assumption
      · split at h
        · cases h; assumption
        · cases h

theorem rangeValid_iff (r : Range) :
    r.valid = true ↔ r.low.toNat % 4 = 0 ∧ r.high.toNat % 4 = 0 ∧ r.low.toNat ≤ r.high.toNat := by
  simp [Range.valid, and_assoc]

/-- Every segment of a valid configuration has valid bounds (00_scope.md R7). -/
theorem range_valid (c : MemConfig) (h : c.valid = true) (S : Segment) : (c.range S).valid = true := by
  simp only [MemConfig.valid, Bool.and_eq_true] at h
  cases S <;> simp_all [MemConfig.range]

/-! ## Places -/

/-- The word index of an address of a segment that is not the stack, in natural numbers. -/
theorem wordIndex_eq (c : MemConfig) (S : Segment) (a : Addr) (hS : S ≠ .stack)
    (hc : rangeContains (c.range S) a = true) :
    wordIndex c S a = (a.toNat - (c.range S).low.toNat) / 4 := by
  have := (rangeContains_iff _ _).1 hc
  have := a.isLt
  cases S with
  | stack => exact absurd rfl hS
  | _ =>
    simp only [wordIndex, MemConfig.range, BitVec.toNat_ushiftRight, BitVec.toNat_sub, Nat.shiftRight_eq_div_pow] at *
    omega

/-- The word index of a stack address, in natural numbers: it counts down from the word below STACK_HIGH. -/
theorem wordIndex_stack (c : MemConfig) (a : Addr) (hv : c.valid = true) (hc : rangeContains c.stack a = true) :
    wordIndex c .stack a = (c.stack.high.toNat - 4 - a.toNat / 4 * 4) / 4 := by
  have h1 := (rangeContains_iff _ _).1 hc
  have h2 := (rangeValid_iff _).1 (range_valid c hv .stack)
  have h3 := c.stack.high.isLt
  simp only [MemConfig.range] at h2
  simp only [wordIndex, BitVec.toNat_ushiftRight, BitVec.toNat_sub, Nat.shiftRight_eq_div_pow, toNat_word]
  simp only [show (4 : Addr).toNat = 4 from rfl]
  omega

/-- The place of an address's byte, in natural numbers. -/
theorem bytePlace_eq (c : MemConfig) (S : Segment) (a : Addr) (hv : c.valid = true)
    (hc : rangeContains (c.range S) a = true) :
    bytePlace c S a =
      if S = .stack then c.stack.high.toNat - 4 - a.toNat / 4 * 4 + a.toNat % 4
      else a.toNat - (c.range S).low.toNat := by
  have h1 := (rangeContains_iff _ _).1 hc
  have h2 := (rangeValid_iff _).1 (range_valid c hv S)
  rw [bytePlace, toNat_and_three]
  split
  · next hS =>
    subst hS
    rw [wordIndex_stack c a hv hc]
    simp only [MemConfig.range] at *
    omega
  · next hS =>
    rw [wordIndex_eq c S a hS hc]
    omega

/-- Two addresses of one segment have two places (10_state.md R39). -/
theorem bytePlace_injective (c : MemConfig) (S : Segment) (a b : Addr) (hv : c.valid = true)
    (ha : rangeContains (c.range S) a = true) (hb : rangeContains (c.range S) b = true)
    (h : bytePlace c S a = bytePlace c S b) : a = b := by
  have h1 := (rangeContains_iff _ _).1 ha
  have h2 := (rangeContains_iff _ _).1 hb
  have h3 := (rangeValid_iff _).1 (range_valid c hv S)
  rw [bytePlace_eq c S a hv ha, bytePlace_eq c S b hv hb] at h
  apply BitVec.eq_of_toNat_eq
  split at h
  · next hS =>
    subst hS
    simp only [MemConfig.range] at *
    omega
  · omega

/-- The place of a segment's byte lies in the segment's blocks (10_state.md R38). -/
theorem bytePlace_lt (c : MemConfig) (S : Segment) (a : Addr) (hv : c.valid = true)
    (hc : rangeContains (c.range S) a = true) : bytePlace c S a < blockCount (c.range S) * blockBytes := by
  have h1 := (rangeContains_iff _ _).1 hc
  have h2 := (rangeValid_iff _).1 (range_valid c hv S)
  rw [bytePlace_eq c S a hv hc]
  simp only [blockCount, blockBytes]
  split
  · next hS =>
    subst hS
    simp only [MemConfig.range] at *
    omega
  · omega

/-- The four bytes of an aligned word of a segment stand side by side in its table. -/
theorem bytePlace_aligned (c : MemConfig) (S : Segment) (a : Addr) (ha : a.toNat % 4 = 0) :
    bytePlace c S a = 4 * wordIndex c S a := by rw [bytePlace, toNat_and_three, ha]; rfl

/-- The index of a byte's word is the place of the byte without its position. -/
theorem bytePlace_div (c : MemConfig) (S : Segment) (a : Addr) : bytePlace c S a / 4 = wordIndex c S a := by
  rw [bytePlace, toNat_and_three]
  omega

theorem bytePlace_mod (c : MemConfig) (S : Segment) (a : Addr) : bytePlace c S a % 4 = a.toNat % 4 := by
  rw [bytePlace, toNat_and_three]
  omega

/-- Two addresses of one word share a word index. -/
theorem wordIndex_congr (c : MemConfig) (S : Segment) (a b : Addr) (hv : c.valid = true)
    (ha : rangeContains (c.range S) a = true) (hb : rangeContains (c.range S) b = true)
    (h : a.toNat / 4 = b.toNat / 4) : wordIndex c S a = wordIndex c S b := by
  have h1 := (rangeContains_iff _ _).1 ha
  have h2 := (rangeContains_iff _ _).1 hb
  have h3 := (rangeValid_iff _).1 (range_valid c hv S)
  by_cases hS : S = .stack
  · subst hS
    rw [wordIndex_stack c a hv ha, wordIndex_stack c b hv hb, h]
  · rw [wordIndex_eq c S a hS ha, wordIndex_eq c S b hS hb]
    omega

/-- Two addresses of one segment with one word index are in one word. -/
theorem word_of_wordIndex (c : MemConfig) (S : Segment) (a b : Addr) (hv : c.valid = true)
    (ha : rangeContains (c.range S) a = true) (hb : rangeContains (c.range S) b = true)
    (h : wordIndex c S a = wordIndex c S b) : a.toNat / 4 = b.toNat / 4 := by
  have h1 := (rangeContains_iff _ _).1 ha
  have h2 := (rangeContains_iff _ _).1 hb
  have h3 := (rangeValid_iff _).1 (range_valid c hv S)
  by_cases hS : S = .stack
  · subst hS
    rw [wordIndex_stack c a hv ha, wordIndex_stack c b hv hb] at h
    simp only [MemConfig.range] at *
    omega
  · rw [wordIndex_eq c S a hS ha, wordIndex_eq c S b hS hb] at h
    omega

/-! ## dims -/

/-- The number of blocks of a segment under a configuration's dims (10_state.md R38). -/
def Dims.blocks (d : Dims) : Segment → Nat
  | .text => d.text
  | .data => d.data
  | .stack => d.stack
  | .mmio => d.mmio

theorem dimsOf_blocks (c : MemConfig) (S : Segment) : (dimsOf c).blocks S = blockCount (c.range S) := by cases S <;> rfl

end Sys2Proof.Machine
end

