-- ==== Sys2Proof/Laws/Bits.lean ====
section
/-! SUPPORT. The fields of a packed command word, and the laws of the bit computations of Machine/Flags.lean. -/

namespace Sys2Proof.Machine

/-! ## Command words -/

section
variable (op : BitVec 8) (len : BitVec 4) (idx : BitVec 12) (addr : Addr) (data : Word64)

/-- A bit of a packed word, field by field. -/
theorem getLsbD_pack (i : Nat) :
    (packCommand op len idx addr data).getLsbD i =
      (decide (i < 128) &&
        ((!decide (i < 120) && op.getLsbD (i - 120)) || (!decide (i < 116) && len.getLsbD (i - 116)) ||
         (!decide (i < 104) && idx.getLsbD (i - 104)) || (!decide (i < 64) && addr.getLsbD (i - 64)) ||
         data.getLsbD i)) := by
  simp [packCommand]
  grind

@[simp] theorem opField_pack : opField (packCommand op len idx addr data) = op := by
  apply BitVec.eq_of_getLsbD_eq
  intro i hi
  have h1 : len.getLsbD (i + 120 - 116) = false := BitVec.getLsbD_of_ge _ _ (by omega)
  have h2 : idx.getLsbD (i + 120 - 104) = false := BitVec.getLsbD_of_ge _ _ (by omega)
  have h3 : addr.getLsbD (i + 120 - 64) = false := BitVec.getLsbD_of_ge _ _ (by omega)
  have h4 : data.getLsbD (i + 120) = false := BitVec.getLsbD_of_ge _ _ (by omega)
  simp only [opField, BitVec.getLsbD_extractLsb', getLsbD_pack, Nat.add_comm 120 i, h1, h2, h3, h4]
  simp; grind

@[simp] theorem lenField_pack : lenField (packCommand op len idx addr data) = len := by
  apply BitVec.eq_of_getLsbD_eq
  intro i hi
  have h2 : idx.getLsbD (i + 116 - 104) = false := BitVec.getLsbD_of_ge _ _ (by omega)
  have h3 : addr.getLsbD (i + 116 - 64) = false := BitVec.getLsbD_of_ge _ _ (by omega)
  have h4 : data.getLsbD (i + 116) = false := BitVec.getLsbD_of_ge _ _ (by omega)
  simp only [lenField, BitVec.getLsbD_extractLsb', getLsbD_pack, Nat.add_comm 116 i, h2, h3, h4]
  simp; grind

@[simp] theorem idxField_pack : idxField (packCommand op len idx addr data) = idx := by
  apply BitVec.eq_of_getLsbD_eq
  intro i hi
  have h3 : addr.getLsbD (i + 104 - 64) = false := BitVec.getLsbD_of_ge _ _ (by omega)
  have h4 : data.getLsbD (i + 104) = false := BitVec.getLsbD_of_ge _ _ (by omega)
  simp only [idxField, BitVec.getLsbD_extractLsb', getLsbD_pack, Nat.add_comm 104 i, h3, h4]
  simp; grind

@[simp] theorem addrField_pack : addrField (packCommand op len idx addr data) = addr := by
  apply BitVec.eq_of_getLsbD_eq
  intro i hi
  have h4 : data.getLsbD (i + 64) = false := BitVec.getLsbD_of_ge _ _ (by omega)
  simp only [addrField, BitVec.getLsbD_extractLsb', getLsbD_pack, Nat.add_comm 64 i, h4]
  simp; grind

/-- The low half of a packed word is its `data` field. -/
theorem getLsbD_pack_low (i : Nat) (hi : i < 64) :
    (packCommand op len idx addr data).getLsbD i = data.getLsbD i := by
  simp only [getLsbD_pack]; grind

@[simp] theorem dataField_pack : dataField (packCommand op len idx addr data) = data := by
  apply BitVec.eq_of_getLsbD_eq
  intro i hi
  simp [dataField, getLsbD_pack_low, hi]

@[simp] theorem data32Field_pack : data32Field (packCommand op len idx addr data) = data.setWidth 32 := by
  apply BitVec.eq_of_getLsbD_eq
  intro i hi
  simp [data32Field, getLsbD_pack_low op len idx addr data i (by omega), hi]
@[simp] theorem data16Field_pack : data16Field (packCommand op len idx addr data) = data.setWidth 16 := by
  apply BitVec.eq_of_getLsbD_eq
  intro i hi
  simp [data16Field, getLsbD_pack_low op len idx addr data i (by omega), hi]
@[simp] theorem mainDefinedField_pack : mainDefinedField (packCommand op len idx addr data) = data[32] :=
  getLsbD_pack_low op len idx addr data 32 (by decide)

end

@[simp] theorem mainOperand_address (d : Bool) (a : Addr) : (mainOperand d a).setWidth 32 = a := by
  apply BitVec.eq_of_getLsbD_eq
  intro i hi
  simp [mainOperand]
@[simp] theorem mainOperand_defined (d : Bool) (a : Addr) : (mainOperand d a)[32] = d := by
  cases d <;> simp [mainOperand]

/-! ## Masked merge and linked fields -/

/-- With no kept bit, a write stores the value whole (40_register_cells.md R133). -/
@[simp] theorem mergeKept_zero (old v : Word64) : mergeKept 0 old v = v := by
  simp only [mergeKept, BitVec.ofNat_eq_ofNat, BitVec.and_zero, BitVec.not_zero, BitVec.and_allOnes, BitVec.zero_or]

/-- A kept bit comes from the old value, any other from the new one (40_register_cells.md R134). -/
theorem getLsbD_mergeKept (kept old v : Word64) (i : Nat) (hi : i < 64) :
    (mergeKept kept old v).getLsbD i = if kept.getLsbD i then old.getLsbD i else v.getLsbD i := by
  simp [mergeKept, hi]
  cases kept[i] <;> simp

/-- Outside its mask a view's write leaves the base's bits (40_register_cells.md R135). -/
theorem withField_outside (mask base v : Word64) : withField mask base v &&& ~~~mask = base &&& ~~~mask := by
  apply BitVec.eq_of_getLsbD_eq
  intro i hi
  simp [withField, hi]
  grind

/-- The least covered bit of each view's mask is the shift 10_state.md R31 lists. -/
@[simp] theorem lsbIndex_fflags : lsbIndex 0x1F#64 = 0 := by decide
@[simp] theorem lsbIndex_frm : lsbIndex 0xE0#64 = 5 := by decide
@[simp] theorem lsbIndex_high : lsbIndex 0xFFFFFFFF00000000#64 = 32 := by decide

/-- fflags reads fcsr[4:0] (10_state.md R32). -/
theorem fieldOf_fflags (b : Word64) : fieldOf 0x1F#64 b = (b.extractLsb' 0 5).setWidth 64 := by
  have hm : ∀ i < 64, (0x1F#64).getLsbD i = decide (i < 5) := by decide
  apply BitVec.eq_of_getLsbD_eq
  intro i hi
  simp only [fieldOf, lsbIndex_fflags, BitVec.getLsbD_ushiftRight, BitVec.getLsbD_and, BitVec.getLsbD_setWidth,
    BitVec.getLsbD_extractLsb', Nat.zero_add, hm i hi, hi]
  simp [Bool.and_comm]

/-- frm reads fcsr[7:5] (10_state.md R32). -/
theorem fieldOf_frm (b : Word64) : fieldOf 0xE0#64 b = (b.extractLsb' 5 3).setWidth 64 := by
  have hm : ∀ i < 64, (0xE0#64).getLsbD (5 + i) = decide (i < 3) := by decide
  apply BitVec.eq_of_getLsbD_eq
  intro i hi
  simp only [fieldOf, lsbIndex_frm, BitVec.getLsbD_ushiftRight, BitVec.getLsbD_and, BitVec.getLsbD_setWidth,
    BitVec.getLsbD_extractLsb', hm i hi, hi]
  simp [Bool.and_comm]

/-- An h view reads the upper half of its counter (10_state.md R32). -/
theorem fieldOf_high (b : Word64) : fieldOf 0xFFFFFFFF00000000#64 b = (b.extractLsb' 32 32).setWidth 64 := by
  have hm : ∀ i < 64, (0xFFFFFFFF00000000#64).getLsbD (32 + i) = decide (i < 32) := by decide
  apply BitVec.eq_of_getLsbD_eq
  intro i hi
  simp only [fieldOf, lsbIndex_high, BitVec.getLsbD_ushiftRight, BitVec.getLsbD_and, BitVec.getLsbD_setWidth,
    BitVec.getLsbD_extractLsb', hm i hi, hi]
  simp [Bool.and_comm]

/-! ## NaN-boxing -/

/-- The 32-bit view of a boxed pattern is the pattern (42_fp_file.md R173). -/
@[simp] theorem unboxFloat_boxFloat (w : Word32) : unboxFloat (boxFloat w) = w.setWidth 64 := by
  have hm : ∀ i < 32, (0xFFFFFFFF00000000 : Word64).getLsbD (32 + i) = true := by decide
  have hl : ∀ i < 32, (0xFFFFFFFF00000000 : Word64).getLsbD i = false := by decide
  have h₁ : (boxFloat w).extractLsb' 32 32 = 0xFFFFFFFF#32 := by
    have ha : ∀ i < 32, (0xFFFFFFFF#32).getLsbD i = true := by decide
    apply BitVec.eq_of_getLsbD_eq
    intro i hi
    simp only [boxFloat, BitVec.getLsbD_extractLsb', BitVec.getLsbD_or, hm i hi, ha i hi, hi]
    simp
  have h₂ : (boxFloat w).extractLsb' 0 32 = w := by
    apply BitVec.eq_of_getLsbD_eq
    intro i hi
    simp only [boxFloat, BitVec.getLsbD_extractLsb', BitVec.getLsbD_or, Nat.zero_add, hl i hi, BitVec.getLsbD_setWidth]
    simp [hi, show i < 64 by omega]
  rw [unboxFloat, if_pos h₁, h₂]

/-- A Linked cell's write sets its field and no other bit of its base, for a mask of w bits from lo (40_register_cells.md
R135). -/
theorem getLsbD_withField (lo w : Nat) (mask base v : Word64)
    (hm : ∀ i < 64, mask.getLsbD i = decide (lo ≤ i ∧ i < lo + w)) (hl : lsbIndex mask = lo) (i : Nat) (hi : i < 64) :
    (withField mask base v).getLsbD i = if lo ≤ i ∧ i < lo + w then v.getLsbD (i - lo) else base.getLsbD i := by
  simp only [withField, hl, BitVec.getLsbD_or, BitVec.getLsbD_and, BitVec.getLsbD_shiftLeft, BitVec.getLsbD_not,
    hm i hi, hi]
  split
  · next h => simp [h, show ¬ i < lo by omega]
  · next h => simp [h]

/-- A NaN-boxed pattern is the pattern under 32 ones (42_fp_file.md R173). -/
theorem boxFloat_eq (w : Word32) : boxFloat w = 0xFFFFFFFF#32 ++ w := by
  have hm : ∀ i < 64, (0xFFFFFFFF00000000 : Word64).getLsbD i = decide (32 ≤ i) := by decide
  have ho : ∀ i < 32, (0xFFFFFFFF#32).getLsbD i = true := by decide
  apply BitVec.eq_of_getLsbD_eq
  intro i hi
  simp only [boxFloat, BitVec.getLsbD_or, hm i hi, BitVec.getLsbD_append, BitVec.getLsbD_setWidth, hi]
  by_cases h : i < 32
  · simp [h]
  · rw [ho (i - 32) (by omega)]
    simp [h]
    left
    omega

/-- The low n bytes of a value, as a number (20_memory.md R75). -/
theorem truncBytes_eq (n : Nat) (hn : n = 1 ∨ n = 2 ∨ n = 4) (v : Word32) :
    truncBytes n v = BitVec.ofNat 32 (v.toNat % 256 ^ n) := by
  have h : (truncBytes n v).toNat = v.toNat % 256 ^ n := by
    rcases hn with rfl | rfl | rfl <;> simp only [truncBytes, BitVec.toNat_and]
    · exact Nat.and_two_pow_sub_one_eq_mod v.toNat 8
    · exact Nat.and_two_pow_sub_one_eq_mod v.toNat 16
    · exact Nat.and_two_pow_sub_one_eq_mod v.toNat 32
  rw [← h, BitVec.ofNat_toNat, BitVec.setWidth_eq]

end Sys2Proof.Machine
end

