-- ==== Sys2Proof/Laws/Lists.lean ====
section
/-! SUPPORT. The laws of the canonical lists of Machine/Ops.lean: rising lists of keys, of observers and of bytes. -/

namespace Sys2Proof.Machine

/-! ## Rising lists -/

theorem rising_iff {α : Type} (key : α → Nat) (l : List α) :
    rising key l = true ↔ l.Pairwise fun a b => key a < key b := by simp [rising]

@[simp] theorem rising_nil {α : Type} (key : α → Nat) : rising key ([] : List α) = true := by simp [rising]

/-- Filtering keeps a list rising. -/
theorem rising_filter {α : Type} (key : α → Nat) (p : α → Bool) (l : List α) (h : rising key l = true) :
    rising key (l.filter p) = true := by
  rw [rising_iff] at *
  exact h.filter p

/-- What an insertion adds is the element, unless its key is there. -/
theorem mem_of_mem_insertRising {α : Type} (key : α → Nat) (a b : α) (l : List α) (h : b ∈ insertRising key a l) :
    b = a ∨ b ∈ l := by
  induction l with
  | nil => simpa [insertRising] using h
  | cons c l ih =>
    simp only [insertRising] at h
    split at h
    · simpa using h
    · split at h
      · exact .inr h
      · rcases List.mem_cons.1 h with rfl | h
        · simp
        · rcases ih h with rfl | h <;> simp_all

/-- An insertion keeps every element. -/
theorem mem_insertRising_of_mem {α : Type} (key : α → Nat) (a b : α) (l : List α) (h : b ∈ l) :
    b ∈ insertRising key a l := by
  induction l with
  | nil => simp at h
  | cons c l ih =>
    simp only [insertRising]
    split
    · exact List.mem_cons_of_mem _ h
    · split
      · exact h
      · rcases List.mem_cons.1 h with rfl | h
        · simp
        · exact List.mem_cons_of_mem _ (ih h)

/-- With keys that tell elements apart, an insertion adds exactly the element: it is set union with a singleton. -/
theorem mem_insertRising {α : Type} (key : α → Nat) (hk : ∀ a b, key a = key b → a = b) (a b : α) (l : List α) :
    b ∈ insertRising key a l ↔ b = a ∨ b ∈ l := by
  refine ⟨mem_of_mem_insertRising key a b l, ?_⟩
  rintro (rfl | h)
  · induction l with
    | nil => simp [insertRising]
    | cons c l ih =>
      simp only [insertRising]
      split
      · simp
      · split
        · next h => rw [hk _ _ h]; simp
        · exact List.mem_cons_of_mem _ ih
  · exact mem_insertRising_of_mem key a b l h

/-- An insertion keeps a list rising. -/
theorem rising_insertRising {α : Type} (key : α → Nat) (a : α) (l : List α) (h : rising key l = true) :
    rising key (insertRising key a l) = true := by
  rw [rising_iff] at *
  induction l with
  | nil => simp [insertRising]
  | cons c l ih =>
    have hc := List.pairwise_cons.1 h
    simp only [insertRising]
    split
    · next hlt =>
      refine List.pairwise_cons.2 ⟨fun b hb => ?_, h⟩
      rcases List.mem_cons.1 hb with rfl | hb
      · exact hlt
      · exact lt_trans hlt (hc.1 b hb)
    · split
      · exact h
      · refine List.pairwise_cons.2 ⟨fun b hb => ?_, ih hc.2⟩
        rcases mem_of_mem_insertRising key a b l hb with rfl | hb
        · omega
        · exact hc.1 b hb

/-! ## Observers of a cell -/

theorem mem_addObserver (o p : ObserverId) (l : List ObserverId) : p ∈ addObserver o l ↔ p = o ∨ p ∈ l :=
  mem_insertRising _ (fun _ _ => BitVec.eq_of_toNat_eq) o p l

theorem mem_removeObserver (o p : ObserverId) (l : List ObserverId) : p ∈ removeObserver o l ↔ p ∈ l ∧ p ≠ o := by
  simp [removeObserver]

theorem rising_addObserver (o : ObserverId) (l : List ObserverId) (h : rising BitVec.toNat l = true) :
    rising BitVec.toNat (addObserver o l) = true := rising_insertRising _ o l h

theorem rising_removeObserver (o : ObserverId) (l : List ObserverId) (h : rising BitVec.toNat l = true) :
    rising BitVec.toNat (removeObserver o l) = true := rising_filter _ _ l h

/-- The key of a registration tells registrations apart. -/
theorem MemObserver.key_injective (a b : MemObserver) (h : a.key = b.key) : a = b := by
  obtain ⟨o₁, s₁, e₁⟩ := a
  obtain ⟨o₂, s₂, e₂⟩ := b
  simp only [MemObserver.key] at h
  have := s₁.isLt; have := s₂.isLt; have := e₁.isLt; have := e₂.isLt
  have he : e₁.toNat = e₂.toNat := by omega
  have hs : s₁.toNat = s₂.toNat := by omega
  have ho : o₁.toNat = o₂.toNat := by omega
  rw [BitVec.eq_of_toNat_eq ho, BitVec.eq_of_toNat_eq hs, BitVec.eq_of_toNat_eq he]

/-! ## Bytes -/

/-- A place below every listed place is unlisted. -/
theorem byteIn_eq_zero (p : Nat) (l : List Host.Cell) (h : ∀ c ∈ l, p < c.1) : byteIn p l = 0 := by
  induction l with
  | nil => rfl
  | cons c l ih =>
    have := h c (by simp)
    simp only [byteIn, show ¬ c.1 = p by omega, if_false]
    exact ih fun d hd => h d (List.mem_cons_of_mem _ hd)

/-- A place that is not listed holds 0 (10_state.md R41). -/
theorem byteIn_eq_zero_of_unlisted (p : Nat) (l : List Host.Cell) (h : ∀ c ∈ l, c.1 ≠ p) : byteIn p l = 0 := by
  induction l with
  | nil => rfl
  | cons c l ih =>
    simp only [byteIn, h c (by simp), if_false]
    exact ih fun d hd => h d (List.mem_cons_of_mem _ hd)

/-- Read after write of bytes. -/
theorem byteIn_putByte (p q : Nat) (b : Byte) (l : List Host.Cell) (h : rising Prod.fst l = true) :
    byteIn q (putByte p b l) = if q = p then b else byteIn q l := by
  rw [rising_iff] at h
  induction l with
  | nil =>
    simp only [putByte]
    split <;> by_cases hq : q = p <;> simp_all [byteIn, eq_comm (a := p)]
  | cons c l ih =>
    have hc := List.pairwise_cons.1 h
    simp only [putByte]
    by_cases h₁ : p < c.1
    · have hz : byteIn p (c :: l) = 0 := byteIn_eq_zero p _ (by
        intro d hd
        rcases List.mem_cons.1 hd with rfl | hd
        · exact h₁
        · exact lt_trans h₁ (hc.1 d hd))
      by_cases hb : b = 0
      · rw [if_pos h₁, if_pos hb]
        split
        · next hq => rw [hq, hz, hb]
        · rfl
      · rw [if_pos h₁, if_neg hb]
        simp only [byteIn, eq_comm]
    · rw [if_neg h₁]
      by_cases h₂ : p = c.1
      · have hz : byteIn p l = 0 := byteIn_eq_zero p _ (by
          intro d hd
          rw [h₂]
          exact hc.1 d hd)
        by_cases hb : b = 0
        · rw [if_pos h₂, if_pos hb]
          by_cases hq : q = p
          · rw [if_pos hq, hq, hz, hb]
          · rw [if_neg hq]
            simp [byteIn, show ¬ c.1 = q by omega]
        · rw [if_pos h₂, if_neg hb]
          by_cases hq : q = p
          · simp [byteIn, hq]
          · rw [if_neg hq]
            simp [byteIn, show ¬ c.1 = q by omega, show ¬ p = q by omega]
      · rw [if_neg h₂]
        simp only [byteIn]
        by_cases hq : c.1 = q
        · simp [hq, show ¬ q = p by omega]
        · simp only [if_neg hq]
          exact ih hc.2

/-- A store adds at most the stored place. -/
theorem mem_of_mem_putByte (p : Nat) (b : Byte) (l : List Host.Cell) (c : Host.Cell) (h : c ∈ putByte p b l) :
    (c = (p, b) ∧ b ≠ 0) ∨ c ∈ l := by
  induction l with
  | nil =>
    simp only [putByte] at h
    split at h <;> simp_all
  | cons d l ih =>
    simp only [putByte] at h
    split at h
    · split at h <;> simp_all
    · split at h
      · split at h <;> simp_all
        rcases h with h | h <;> simp [h]
      · rcases List.mem_cons.1 h with rfl | h
        · simp
        · exact (ih h).imp_right (List.mem_cons_of_mem _)

/-- A store keeps a list of bytes rising. -/
theorem rising_putByte (p : Nat) (b : Byte) (l : List Host.Cell) (h : rising Prod.fst l = true) :
    rising Prod.fst (putByte p b l) = true := by
  rw [rising_iff] at *
  induction l with
  | nil =>
    simp only [putByte]
    split <;> simp
  | cons c l ih =>
    have hc := List.pairwise_cons.1 h
    simp only [putByte]
    split
    · next hlt =>
      split
      · exact h
      · refine List.pairwise_cons.2 ⟨fun d hd => ?_, h⟩
        rcases List.mem_cons.1 hd with rfl | hd
        · exact hlt
        · exact lt_trans hlt (hc.1 d hd)
    · split
      · next heq =>
        split
        · exact hc.2
        · refine List.pairwise_cons.2 ⟨fun d hd => ?_, hc.2⟩
          have := hc.1 d hd
          simpa [heq] using this
      · refine List.pairwise_cons.2 ⟨fun d hd => ?_, ih hc.2⟩
        rcases mem_of_mem_putByte p b l d hd with ⟨rfl, -⟩ | hd
        · show c.1 < p
          omega
        · exact hc.1 d hd

end Sys2Proof.Machine
end

