-- ==== Sys2Proof/Laws/State.lean ====
section
/-! SUPPORT. One lemma per field per update of State, so that no proof unfolds a record update, and the laws of the
accessors of cells and of the active instance. -/

namespace Sys2Proof.Machine

/-! ## The ports -/

@[simp] theorem State.answer_x (s : State) (r : Response) (g : List (List Notice)) : (s.answer r g).x = s.x := rfl
@[simp] theorem State.answer_pc (s : State) (r : Response) (g : List (List Notice)) : (s.answer r g).pc = s.pc := rfl
@[simp] theorem State.answer_f (s : State) (r : Response) (g : List (List Notice)) : (s.answer r g).f = s.f := rfl
@[simp] theorem State.answer_csr (s : State) (r : Response) (g : List (List Notice)) : (s.answer r g).csr = s.csr := rfl
@[simp] theorem State.answer_csrViews (s : State) (r : Response) (g : List (List Notice)) : (s.answer r g).csrViews = s.csrViews := rfl
@[simp] theorem State.answer_cfgs (s : State) (r : Response) (g : List (List Notice)) : (s.answer r g).cfgs = s.cfgs := rfl
@[simp] theorem State.answer_cur (s : State) (r : Response) (g : List (List Notice)) : (s.answer r g).cur = s.cur := rfl
@[simp] theorem State.answer_insts (s : State) (r : Response) (g : List (List Notice)) : (s.answer r g).insts = s.insts := rfl
@[simp] theorem State.answer_active (s : State) (r : Response) (g : List (List Notice)) : (s.answer r g).active = s.active := rfl
@[simp] theorem State.answer_rsv (s : State) (r : Response) (g : List (List Notice)) : (s.answer r g).rsv = s.rsv := rfl
@[simp] theorem State.answer_smcEn (s : State) (r : Response) (g : List (List Notice)) : (s.answer r g).smcEn = s.smcEn := rfl
@[simp] theorem State.answer_backstepEn (s : State) (r : Response) (g : List (List Notice)) : (s.answer r g).backstepEn = s.backstepEn := rfl
@[simp] theorem State.answer_pending (s : State) (r : Response) (g : List (List Notice)) : (s.answer r g).pending = s.pending := rfl
@[simp] theorem State.answer_rsp (s : State) (r : Response) (g : List (List Notice)) : (s.answer r g).rsp = some r := rfl
@[simp] theorem State.answer_notices (s : State) (r : Response) (g : List (List Notice)) : (s.answer r g).notices = g := rfl
@[simp] theorem State.answer_config (s : State) (r : Response) (g : List (List Notice)) :
    (s.answer r g).config = s.config := rfl
@[simp] theorem State.answer_memory (s : State) (r : Response) (g : List (List Notice)) :
    (s.answer r g).memory = s.memory := rfl
@[simp] theorem State.answer_params (s : State) (r : Response) (g : List (List Notice)) :
    (s.answer r g).params = s.params := rfl
@[simp] theorem State.answer_cell (s : State) (r : Response) (g : List (List Notice)) (h : Home) :
    (s.answer r g).cell h = s.cell h := by cases h <;> rfl
@[simp] theorem State.answer_observersOf (s : State) (r : Response) (g : List (List Notice)) (c : CellRef) :
    observersOf (s.answer r g) c = observersOf s c := by
  cases c with
  | own h => simp [observersOf]
  | view j => rfl

/-- The ports are all an answer changes. -/
theorem State.answer_onlyPorts (s : State) (r : Response) (g : List (List Notice)) : OnlyPorts s (s.answer r g) := rfl

/-! ## Cells -/

@[simp] theorem State.setCell_csrViews (s : State) (h : Home) (c : Cell) : (s.setCell h c).csrViews = s.csrViews := by cases h <;> rfl
@[simp] theorem State.setCell_cfgs (s : State) (h : Home) (c : Cell) : (s.setCell h c).cfgs = s.cfgs := by cases h <;> rfl
@[simp] theorem State.setCell_cur (s : State) (h : Home) (c : Cell) : (s.setCell h c).cur = s.cur := by cases h <;> rfl
@[simp] theorem State.setCell_insts (s : State) (h : Home) (c : Cell) : (s.setCell h c).insts = s.insts := by cases h <;> rfl
@[simp] theorem State.setCell_active (s : State) (h : Home) (c : Cell) : (s.setCell h c).active = s.active := by cases h <;> rfl
@[simp] theorem State.setCell_rsv (s : State) (h : Home) (c : Cell) : (s.setCell h c).rsv = s.rsv := by cases h <;> rfl
@[simp] theorem State.setCell_smcEn (s : State) (h : Home) (c : Cell) : (s.setCell h c).smcEn = s.smcEn := by cases h <;> rfl
@[simp] theorem State.setCell_backstepEn (s : State) (h : Home) (c : Cell) : (s.setCell h c).backstepEn = s.backstepEn := by cases h <;> rfl
@[simp] theorem State.setCell_pending (s : State) (h : Home) (c : Cell) : (s.setCell h c).pending = s.pending := by cases h <;> rfl
@[simp] theorem State.setCell_rsp (s : State) (h : Home) (c : Cell) : (s.setCell h c).rsp = s.rsp := by cases h <;> rfl
@[simp] theorem State.setCell_notices (s : State) (h : Home) (c : Cell) : (s.setCell h c).notices = s.notices := by cases h <;> rfl
@[simp] theorem State.setCell_config (s : State) (h : Home) (c : Cell) : (s.setCell h c).config = s.config := by
  cases h <;> rfl
@[simp] theorem State.setCell_memory (s : State) (h : Home) (c : Cell) : (s.setCell h c).memory = s.memory := by
  cases h <;> rfl
@[simp] theorem State.setCell_params (s : State) (h : Home) (c : Cell) : (s.setCell h c).params = s.params := by
  cases h <;> rfl

/-- Read after write of cells: the cell written holds what was written, every other cell what it held. -/
@[simp] theorem State.setCell_cell (s : State) (h h' : Home) (c : Cell) :
    (s.setCell h c).cell h' = if h' = h then c else s.cell h' := by
  cases h <;> cases h' <;> simp [State.setCell, State.cell, Vector.getElem_set, Fin.ext_iff, eq_comm]

@[simp] theorem State.setCell_cell_self (s : State) (h : Home) (c : Cell) : (s.setCell h c).cell h = c := by simp

theorem State.setCell_cell_other (s : State) (h h' : Home) (c : Cell) (hne : h' ≠ h) :
    (s.setCell h c).cell h' = s.cell h' := by simp [hne]

/-- Writing a cell does not touch the observers of a view. -/
theorem observersOf_view_setCell (s : State) (h : Home) (c : Cell) (j : Fin 5) :
    observersOf (s.setCell h c) (.view j) = observersOf s (.view j) := by simp [observersOf]

@[simp] theorem State.cell_x (s : State) (i : Fin 32) : s.cell (.x i) = s.x[i] := rfl
@[simp] theorem State.cell_f (s : State) (i : Fin 32) : s.cell (.f i) = s.f[i] := rfl
@[simp] theorem State.cell_pc (s : State) : s.cell .pc = s.pc := rfl
@[simp] theorem State.cell_csr (s : State) (k : Fin 12) : s.cell (.csr k) = s.csr[k] := rfl

/-! ## The active instance -/

@[simp] theorem State.setMemory_x (s : State) (m : Memory) : (s.setMemory m).x = s.x := rfl
@[simp] theorem State.setMemory_pc (s : State) (m : Memory) : (s.setMemory m).pc = s.pc := rfl
@[simp] theorem State.setMemory_f (s : State) (m : Memory) : (s.setMemory m).f = s.f := rfl
@[simp] theorem State.setMemory_csr (s : State) (m : Memory) : (s.setMemory m).csr = s.csr := rfl
@[simp] theorem State.setMemory_csrViews (s : State) (m : Memory) : (s.setMemory m).csrViews = s.csrViews := rfl
@[simp] theorem State.setMemory_cfgs (s : State) (m : Memory) : (s.setMemory m).cfgs = s.cfgs := rfl
@[simp] theorem State.setMemory_cur (s : State) (m : Memory) : (s.setMemory m).cur = s.cur := rfl
@[simp] theorem State.setMemory_active (s : State) (m : Memory) : (s.setMemory m).active = s.active := rfl
@[simp] theorem State.setMemory_rsv (s : State) (m : Memory) : (s.setMemory m).rsv = s.rsv := rfl
@[simp] theorem State.setMemory_smcEn (s : State) (m : Memory) : (s.setMemory m).smcEn = s.smcEn := rfl
@[simp] theorem State.setMemory_backstepEn (s : State) (m : Memory) : (s.setMemory m).backstepEn = s.backstepEn := rfl
@[simp] theorem State.setMemory_pending (s : State) (m : Memory) : (s.setMemory m).pending = s.pending := rfl
@[simp] theorem State.setMemory_rsp (s : State) (m : Memory) : (s.setMemory m).rsp = s.rsp := rfl
@[simp] theorem State.setMemory_notices (s : State) (m : Memory) : (s.setMemory m).notices = s.notices := rfl
@[simp] theorem State.setMemory_insts (s : State) (m : Memory) : (s.setMemory m).insts = s.insts.set s.active m := rfl
@[simp] theorem State.setMemory_config (s : State) (m : Memory) : (s.setMemory m).config = s.config := rfl
@[simp] theorem State.setMemory_params (s : State) (m : Memory) : (s.setMemory m).params = s.params := by
  simp [State.params]
@[simp] theorem State.setMemory_cell (s : State) (m : Memory) (h : Home) : (s.setMemory m).cell h = s.cell h := by
  cases h <;> rfl
@[simp] theorem State.setMemory_observersOf (s : State) (m : Memory) (r : CellRef) :
    observersOf (s.setMemory m) r = observersOf s r := by
  cases r with
  | own h => simp [observersOf]
  | view j => rfl

/-- Read after write of the active instance. -/
theorem State.setMemory_memory (s : State) (m : Memory) (h : s.active < s.insts.length) : (s.setMemory m).memory = m := by
  simp [State.memory, State.setMemory, List.getD_eq_getElem?_getD, h]

/-- The active instance is one of the bank. -/
theorem State.memory_mem (s : State) (h : s.active < s.insts.length) : s.memory ∈ s.insts := by
  simp [State.memory, List.getD_eq_getElem?_getD, h]

/-- The active instance by its index. -/
theorem State.memory_eq (s : State) (h : s.active < s.insts.length) : s.memory = s.insts[s.active] := by
  simp [State.memory, List.getD_eq_getElem?_getD, h]

/-- An instance after the active one was replaced: it is the active one, or as before. -/
theorem State.setMemory_cases (s : State) (x m m' : Memory) (k : Nat) (h : s.insts[k]? = some m)
    (h' : (s.setMemory x).insts[k]? = some m') : (k = s.active ∧ m = s.memory ∧ m' = x) ∨ m' = m := by
  rw [State.setMemory_insts, List.getElem?_set] at h'
  by_cases hk : s.active = k
  · subst hk
    obtain ⟨hlt, -⟩ := List.getElem?_eq_some_iff.1 h
    simp only [hlt, if_true, Option.some.injEq] at h'
    refine .inl ⟨rfl, ?_, h'.symm⟩
    simp [State.memory, List.getD_eq_getElem?_getD, h]
  · rw [if_neg hk, h] at h'
    exact .inr (Option.some.inj h').symm

/-- Another instance than the active one keeps. -/
theorem State.setMemory_other (s : State) (x : Memory) (k : Nat) (hk : k ≠ s.active) :
    (s.setMemory x).insts[k]? = s.insts[k]? := by simp [hk.symm]

@[simp] theorem Memory.setTable_table (m : Memory) (S S' : Segment) (t : Table) :
    (m.setTable S t).table S' = if S' = S then t else m.table S' := by cases S <;> cases S' <;> rfl
@[simp] theorem Memory.setTable_dims (m : Memory) (S : Segment) (t : Table) : (m.setTable S t).dims = m.dims := by
  cases S <;> rfl
@[simp] theorem Memory.setTable_heap (m : Memory) (S : Segment) (t : Table) : (m.setTable S t).heap = m.heap := by
  cases S <;> rfl
@[simp] theorem Memory.setTable_observers (m : Memory) (S : Segment) (t : Table) :
    (m.setTable S t).observers = m.observers := by cases S <;> rfl

end Sys2Proof.Machine
end

