-- ==== Sys2Proof/Laws/Cells.lean ====
section
/-! SUPPORT. The laws of register lookup and of the cell primitives (40_register_cells.md). -/

namespace Sys2Proof.Machine

/-! ## Files -/

theorem mapAll_eq_map {α : Type} {n : Nat} (g : α → α) (v : Vector α n) : mapAll g v = v.map g := by
  apply Vector.ext
  intro i hi
  simp [mapAll]

@[simp] theorem getElem_mapAll {α : Type} {n : Nat} (g : α → α) (v : Vector α n) (i : Nat) (h : i < n) :
    (mapAll g v)[i] = g v[i] := by simp [mapAll_eq_map]

@[simp] theorem resetCell_value (c : Cell) : (resetCell c).value = c.reset := rfl
@[simp] theorem resetCell_reset (c : Cell) : (resetCell c).reset = c.reset := rfl
@[simp] theorem resetCell_observers (c : Cell) : (resetCell c).observers = c.observers := rfl
@[simp] theorem observeCell_value (o : ObserverId) (c : Cell) : (observeCell o c).value = c.value := rfl
@[simp] theorem observeCell_reset (o : ObserverId) (c : Cell) : (observeCell o c).reset = c.reset := rfl
@[simp] theorem observeCell_observers (o : ObserverId) (c : Cell) :
    (observeCell o c).observers = addObserver o c.observers := rfl
@[simp] theorem unobserveCell_value (o : ObserverId) (c : Cell) : (unobserveCell o c).value = c.value := rfl
@[simp] theorem unobserveCell_reset (o : ObserverId) (c : Cell) : (unobserveCell o c).reset = c.reset := rfl
@[simp] theorem unobserveCell_observers (o : ObserverId) (c : Cell) :
    (unobserveCell o c).observers = removeObserver o c.observers := rfl

/-! ## Lookup -/

/-- A mapped integer register number names its cell (40_register_cells.md R140). -/
theorem lookupX_of_lt (idx : Index) (h : idx.toNat < 32) : lookupX idx = some (.own (.x ⟨idx.toNat, h⟩)) := by
  have key : ∀ i : Fin 32, lookupNumber integerBlock i.val = some (.own (.x i)) := by decide
  exact key ⟨idx.toNat, h⟩

theorem lookupX_of_ge (idx : Index) (h : 32 ≤ idx.toNat) : lookupX idx = none := by
  have key : ∀ c ∈ integerBlock.cells, c.2.1 < 32 := by decide
  simp only [lookupX, lookupNumber, Option.map_eq_none_iff, List.find?_eq_none]
  intro c hc
  have := key c hc
  simp
  omega

/-- A mapped floating-point register number names its cell (40_register_cells.md R140). -/
theorem lookupF_of_lt (idx : Index) (h : idx.toNat < 32) : lookupF idx = some (.own (.f ⟨idx.toNat, h⟩)) := by
  have key : ∀ i : Fin 32, lookupNumber floatBlock i.val = some (.own (.f i)) := by decide
  exact key ⟨idx.toNat, h⟩

theorem lookupF_of_ge (idx : Index) (h : 32 ≤ idx.toNat) : lookupF idx = none := by
  have key : ∀ c ∈ floatBlock.cells, c.2.1 < 32 := by decide
  simp only [lookupF, lookupNumber, Option.map_eq_none_iff, List.find?_eq_none]
  intro c hc
  have := key c hc
  simp
  omega

/-- What integer lookup can give. -/
theorem lookupX_cases (idx : Index) (r : CellRef) (h : lookupX idx = some r) :
    ∃ hi : idx.toNat < 32, r = .own (.x ⟨idx.toNat, hi⟩) := by
  by_cases hi : idx.toNat < 32
  · rw [lookupX_of_lt idx hi] at h
    exact ⟨hi, by simpa using h.symm⟩
  · rw [lookupX_of_ge idx (by omega)] at h
    simp at h

/-- What floating-point lookup can give. -/
theorem lookupF_cases (idx : Index) (r : CellRef) (h : lookupF idx = some r) :
    ∃ hi : idx.toNat < 32, r = .own (.f ⟨idx.toNat, hi⟩) := by
  by_cases hi : idx.toNat < 32
  · rw [lookupF_of_lt idx hi] at h
    exact ⟨hi, by simpa using h.symm⟩
  · rw [lookupF_of_ge idx (by omega)] at h
    simp at h

/-- What CSR lookup can give: the row of the table with that number (10_state.md R31). -/
theorem lookupCsr_cases (idx : Index) (r : CellRef) (h : lookupCsr idx = some r) :
    ∃ row ∈ csrRows, row.number = idx ∧ row.kind.ref = r := by
  simp only [lookupCsr, lookupNumber, csrBlock, Option.map_eq_some_iff] at h
  obtain ⟨c, hc, rfl⟩ := h
  have hm := List.mem_of_find?_eq_some hc
  have hn := List.find?_some hc
  obtain ⟨row, hrow, rfl⟩ := List.mem_map.1 hm
  exact ⟨row, hrow, BitVec.eq_of_toNat_eq (by simpa using hn), rfl⟩

/-- A CSR number of the table is found. -/
theorem lookupCsr_of_mem (row : CsrRow) (h : row ∈ csrRows) : lookupCsr row.number = some row.kind.ref := by
  revert row
  decide

/-- A CSR number outside the table is absent (10_state.md R30). -/
theorem lookupCsr_eq_none (idx : Index) (h : idx ∉ csrRows.map CsrRow.number) : lookupCsr idx = none := by
  cases hl : lookupCsr idx with
  | none => rfl
  | some r =>
    obtain ⟨row, hrow, rfl, -⟩ := lookupCsr_cases idx r hl
    exact absurd (List.mem_map_of_mem hrow) h

/-! ## The fixed part of the cells -/

@[simp] theorem keptBits_x (i : Fin 32) : keptBits (.x i) = 0 := rfl
@[simp] theorem keptBits_f (i : Fin 32) : keptBits (.f i) = 0 := rfl
@[simp] theorem keptBits_pc : keptBits .pc = 0 := rfl

@[simp] theorem cellNumber_x (i : Fin 32) : cellNumber (.own (.x i)) = BitVec.ofNat 32 i.val := rfl
@[simp] theorem cellNumber_f (i : Fin 32) : cellNumber (.own (.f i)) = BitVec.ofNat 32 i.val := rfl
@[simp] theorem cellNumber_pc : cellNumber (.own .pc) = 0xFFFFFFFF := rfl

/-- The number in a CSR's notice is its number (30_encoding.md R106). -/
theorem cellNumber_csr (row : CsrRow) (h : row ∈ csrRows) : cellNumber row.kind.ref = row.number.setWidth 32 := by
  revert row
  decide

/-- Every CSR cell is in the space CSR (30_encoding.md R106). -/
theorem cellSpace_csr (k : CsrKind) : cellSpace k.ref = .csr := by cases k <;> rfl

/-! ## The primitives -/

@[simp] theorem State.setValue_cell (s : State) (h h' : Home) (v : Word64) :
    (s.setValue h v).cell h' = if h' = h then { s.cell h with value := v } else s.cell h' := by
  simp [State.setValue]

/-- A new value leaves every cell's set of observers. -/
@[simp] theorem observersOf_setValue (s : State) (h : Home) (v : Word64) (r : CellRef) :
    observersOf (s.setValue h v) r = observersOf s r := by
  cases r with
  | view j => simp [observersOf, State.setValue]
  | own h' =>
    simp only [observersOf, State.setValue_cell]
    split
    · next e => rw [e]
    · rfl

/-- A new reset value leaves every cell's set of observers. -/
@[simp] theorem observersOf_cellChangeReset (s : State) (r r' : CellRef) (v : Word64) :
    observersOf (cellChangeReset s r v) r' = observersOf s r' := by
  cases r with
  | view j => rfl
  | own h =>
    cases r' with
    | view j => simp [observersOf, cellChangeReset]
    | own h' =>
      simp only [observersOf, cellChangeReset, State.setCell_cell]
      split
      · next e => rw [e]
      · rfl

/-- The cell whose storage a cell shows: itself, or the base of a view (10_state.md R21). -/
def storageOf : CellRef → Home
  | .own h => h
  | .view j => .csr (viewBase j)

/-- A store into a cell is one new value. -/
theorem storeOwn_eq (s : State) (h : Home) (v : Word64) :
    storeOwn s h v = s.setValue h (mergeKept (keptBits h) (s.cell h).value v) := rfl

/-- Everything a write can do to the state: give one storage-owning cell a new value. For a cell that owns storage it is
that cell; for a view it is the base (40_register_cells.md R133 to R135). -/
theorem cellSet_state (s : State) (r : CellRef) (v : Word64) :
    ∃ w, (cellSet s r v).state = s.setValue (storageOf r) w := by
  cases r with
  | own h => exact ⟨_, rfl⟩
  | view j => exact ⟨_, rfl⟩

/-- Everything a backdoor write can do to the state (40_register_cells.md R136). -/
theorem cellSetBackdoor_state (s : State) (r : CellRef) (v : Word64) :
    ∃ w, (cellSetBackdoor s r v).state = s.setValue (storageOf r) w := by
  cases r with
  | own h => exact ⟨_, rfl⟩
  | view j => exact ⟨_, rfl⟩

/-- A read changes nothing (40_register_cells.md R132). -/
@[simp] theorem cellGet_state (s : State) (r : CellRef) : (cellGet s r).state = s := rfl
@[simp] theorem cellGet_value (s : State) (r : CellRef) : (cellGet s r).value = cellPeek s r := rfl
@[simp] theorem cellGet_groups (s : State) (r : CellRef) :
    (cellGet s r).groups = [registerNotices s .read r] := rfl

/-- A backdoor write emits nothing (40_register_cells.md R136). -/
@[simp] theorem cellSetBackdoor_groups (s : State) (r : CellRef) (v : Word64) :
    (cellSetBackdoor s r v).groups = [] := by cases r <;> rfl

/-- A write returns what a silent read returned before it (40_register_cells.md R133 to R136). -/
theorem cellSet_value (s : State) (r : CellRef) (v : Word64) : (cellSet s r v).value = cellPeek s r := by
  cases r <;> rfl

theorem cellSetBackdoor_value (s : State) (r : CellRef) (v : Word64) :
    (cellSetBackdoor s r v).value = cellPeek s r := by cases r <;> rfl

/-- What a register command on a looked-up cell can be. -/
theorem onCell_cases (s : State) (found : Option CellRef) (command : CellRef → Result) :
    (found = none ∧ onCell s found command = respondAbsent s) ∨
      ∃ r, found = some r ∧ onCell s found command = command r := by
  cases found with
  | none => exact .inl ⟨rfl, rfl⟩
  | some r => exact .inr ⟨r, rfl, rfl⟩

@[simp] theorem onCell_none (s : State) (command : CellRef → Result) : onCell s none command = respondAbsent s := rfl
@[simp] theorem onCell_some (s : State) (r : CellRef) (command : CellRef → Result) :
    onCell s (some r) command = command r := rfl

/-- The notices of an integer cell carry its number (30_encoding.md R106). -/
theorem registerNotices_x (s : State) (kind : AccessKind) (idx : Index) (h : idx.toNat < 32) :
    registerNotices s kind (.own (.x ⟨idx.toNat, h⟩)) =
      cellNotices kind .x (idx.setWidth 32) s.x[idx.toNat].observers := by
  have e : (BitVec.ofNat 32 idx.toNat : Word32) = idx.setWidth 32 := BitVec.eq_of_toNat_eq (by simp)
  rw [← e]
  rfl

/-- The notices of a floating-point cell carry its number (30_encoding.md R106). -/
theorem registerNotices_f (s : State) (kind : AccessKind) (idx : Index) (h : idx.toNat < 32) :
    registerNotices s kind (.own (.f ⟨idx.toNat, h⟩)) =
      cellNotices kind .f (idx.setWidth 32) s.f[idx.toNat].observers := by
  have e : (BitVec.ofNat 32 idx.toNat : Word32) = idx.setWidth 32 := BitVec.eq_of_toNat_eq (by simp)
  rw [← e]
  rfl

/-- A new value that changes a CSR cell was given to that cell. -/
theorem home_of_csr_changed (s : State) (h : Home) (v : Word64) (k : Fin 12)
    (hne : (s.setValue h v).csr[k] ≠ s.csr[k]) : h = .csr k := by
  by_contra hc
  apply hne
  have e : (s.setValue h v).cell (.csr k) = s.cell (.csr k) := by
    rw [State.setValue_cell, if_neg fun e => hc e.symm]
  exact e

end Sys2Proof.Machine
end

