-- ==== Sys2Proof/Laws/Tables.lean ====
section
/-! SUPPORT. The laws of tables: every store keeps the canonical form, stays within the table, and is read back. -/

namespace Sys2Proof.Machine

/-! ## One byte -/

theorem tableWf_iff (S : Segment) (t : Table) :
    Table.wf S t = true ↔ rising id t.present = true ∧ rising Prod.fst t.bytes = true ∧ (∀ c ∈ t.bytes, c.2 ≠ 0) ∧
      ∀ c ∈ t.bytes, c.1 / granuleBytes S ∈ t.present := by
  simp [Table.wf, and_assoc]

@[simp] theorem tableEmpty_wf (S : Segment) : Table.wf S .empty = true := by simp [tableWf_iff, Table.empty]

@[simp] theorem tableEmpty_within (S : Segment) (n : Nat) : Table.within S n .empty = true := by
  simp [Table.within, Table.empty]

/-- A store of a byte keeps the canonical form. -/
theorem tablePut_wf (S : Segment) (t : Table) (p : Nat) (b : Byte) (h : Table.wf S t = true) :
    Table.wf S (tablePut S t p b) = true := by
  obtain ⟨h₁, h₂, h₃, h₄⟩ := (tableWf_iff S t).1 h
  refine (tableWf_iff S _).2 ⟨rising_insertRising _ _ _ h₁, rising_putByte _ _ _ h₂, fun c hc => ?_, fun c hc => ?_⟩
  · rcases mem_of_mem_putByte _ _ _ _ hc with ⟨rfl, hb⟩ | hc
    · exact hb
    · exact h₃ c hc
  · rcases mem_of_mem_putByte _ _ _ _ hc with ⟨rfl, -⟩ | hc
    · exact (mem_insertRising id (fun _ _ h => h) _ _ _).2 (.inl rfl)
    · exact mem_insertRising_of_mem _ _ _ _ (h₄ c hc)

theorem granuleBytes_pos (S : Segment) : 0 < granuleBytes S := by cases S <;> decide

/-- Every granule is a whole number of words. -/
theorem four_dvd_granuleBytes (S : Segment) : 4 ∣ granuleBytes S := by cases S <;> decide

/-- A store of a byte at a place of the table's blocks stays within them. -/
theorem tablePut_within (S : Segment) (n : Nat) (t : Table) (p : Nat) (b : Byte) (h : Table.within S n t = true)
    (hp : p < n * blockBytes) : Table.within S n (tablePut S t p b) = true := by
  simp only [Table.within, List.all_eq_true, decide_eq_true_eq] at *
  intro g hg
  rcases mem_of_mem_insertRising _ _ _ _ hg with rfl | hg
  · exact lt_of_le_of_lt (Nat.div_mul_le_self _ _) hp
  · exact h g hg

/-- Read after write of one byte of a table. -/
theorem byteIn_tablePut (S : Segment) (t : Table) (p q : Nat) (b : Byte) (h : Table.wf S t = true) :
    byteIn q (tablePut S t p b).bytes = if q = p then b else byteIn q t.bytes :=
  byteIn_putByte p q b t.bytes ((tableWf_iff S t).1 h).2.1

/-- A store makes its granule present and no other (10_state.md R41). -/
theorem mem_tablePut_present (S : Segment) (t : Table) (p g : Nat) (b : Byte) :
    g ∈ (tablePut S t p b).present ↔ g = p / granuleBytes S ∨ g ∈ t.present :=
  mem_insertRising id (fun _ _ h => h) _ _ _

/-! ## One word -/

/-- A byte of a table's word (20_memory.md R63). -/
theorem wordAt_byte (t : Table) (i p : Nat) (hp : p < 4) :
    (wordAt t i).extractLsb' (8 * p) 8 = byteIn (4 * i + p) t.bytes := by
  have hcases : p = 0 ∨ p = 1 ∨ p = 2 ∨ p = 3 := by omega
  rcases hcases with rfl | rfl | rfl | rfl <;>
  · apply BitVec.eq_of_getLsbD_eq
    intro j hj
    simp only [wordAt, BitVec.getLsbD_extractLsb', BitVec.getLsbD_or, BitVec.getLsbD_shiftLeft, BitVec.getLsbD_setWidth]
    generalize byteIn (4 * i) t.bytes = b₀
    generalize byteIn (4 * i + 1) t.bytes = b₁
    generalize byteIn (4 * i + 2) t.bytes = b₂
    generalize byteIn (4 * i + 3) t.bytes = b₃
    have hge : ∀ (b : Byte) (k : Nat), 8 ≤ k → b.getLsbD k = false := fun b k hk => BitVec.getLsbD_of_ge b k hk
    grind

/-- Words are equal when their four bytes are. -/
theorem word_ext (v w : Word32) (h : ∀ p < 4, v.extractLsb' (8 * p) 8 = w.extractLsb' (8 * p) 8) : v = w := by
  apply BitVec.eq_of_getLsbD_eq
  intro j hj
  have := congrArg (fun b => b.getLsbD (j % 8)) (h (j / 8) (by omega))
  simpa [BitVec.getLsbD_extractLsb', show j % 8 < 8 by omega, show 8 * (j / 8) + j % 8 = j by omega] using this

theorem putWord_wf (S : Segment) (t : Table) (i : Nat) (w : Word32) (h : Table.wf S t = true) :
    Table.wf S (putWord S t i w) = true :=
  tablePut_wf _ _ _ _ (tablePut_wf _ _ _ _ (tablePut_wf _ _ _ _ (tablePut_wf _ _ _ _ h)))

theorem putWord_within (S : Segment) (n : Nat) (t : Table) (i : Nat) (w : Word32) (h : Table.within S n t = true)
    (hi : 4 * i + 3 < n * blockBytes) : Table.within S n (putWord S t i w) = true :=
  tablePut_within _ _ _ _ _ (tablePut_within _ _ _ _ _ (tablePut_within _ _ _ _ _ (tablePut_within _ _ _ _ _ h
    (by omega)) (by omega)) (by omega)) hi

/-- Read after write of a word, byte by byte. -/
theorem byteIn_putWord (S : Segment) (t : Table) (i q : Nat) (w : Word32) (h : Table.wf S t = true) :
    byteIn q (putWord S t i w).bytes = if q / 4 = i then w.extractLsb' (8 * (q % 4)) 8 else byteIn q t.bytes := by
  have h₁ := tablePut_wf S t (4 * i) (w.extractLsb' 0 8) h
  have h₂ := tablePut_wf S _ (4 * i + 1) (w.extractLsb' 8 8) h₁
  have h₃ := tablePut_wf S _ (4 * i + 2) (w.extractLsb' 16 8) h₂
  rw [putWord, byteIn_tablePut _ _ _ _ _ h₃, byteIn_tablePut _ _ _ _ _ h₂, byteIn_tablePut _ _ _ _ _ h₁,
    byteIn_tablePut _ _ _ _ _ h]
  by_cases hq : q / 4 = i
  · rw [if_pos hq]
    have hr : q % 4 = 0 ∨ q % 4 = 1 ∨ q % 4 = 2 ∨ q % 4 = 3 := by omega
    rcases hr with hr | hr | hr | hr
    · rw [if_neg (by omega), if_neg (by omega), if_neg (by omega), if_pos (by omega), hr]
    · rw [if_neg (by omega), if_neg (by omega), if_pos (by omega), hr]
    · rw [if_neg (by omega), if_pos (by omega), hr]
    · rw [if_pos (by omega), hr]
  · rw [if_neg hq, if_neg (by omega), if_neg (by omega), if_neg (by omega), if_neg (by omega)]

/-- A stored word is read back, and the other words keep. -/
theorem wordAt_putWord (S : Segment) (t : Table) (i j : Nat) (w : Word32) (h : Table.wf S t = true) :
    wordAt (putWord S t i w) j = if j = i then w else wordAt t j := by
  apply word_ext
  intro p hp
  rw [wordAt_byte _ _ _ hp, byteIn_putWord S t i _ w h, show (4 * j + p) / 4 = j by omega,
    show (4 * j + p) % 4 = p by omega]
  split
  · rfl
  · rw [wordAt_byte _ _ _ hp]

/-- A stored word makes its granule present and no other. -/
theorem mem_putWord_present (S : Segment) (t : Table) (i g : Nat) (w : Word32) :
    g ∈ (putWord S t i w).present ↔ g = 4 * i / granuleBytes S ∨ g ∈ t.present := by
  obtain ⟨d, hd⟩ := four_dvd_granuleBytes S
  have hpos := granuleBytes_pos S
  have hdiv : ∀ k < 4, (4 * i + k) / granuleBytes S = 4 * i / granuleBytes S := by
    intro k hk
    rw [hd, ← Nat.div_div_eq_div_mul, ← Nat.div_div_eq_div_mul]
    congr 1
    omega
  simp only [putWord, mem_tablePut_present, hdiv 1 (by omega), hdiv 2 (by omega), hdiv 3 (by omega)]
  tauto

end Sys2Proof.Machine
end

