-- ==== Sys2Proof/Laws/Memory.lean ====
section
/-! SUPPORT. The laws of the memory operations of Machine/Ops.lean: every one keeps the canonical form, says once what it
can do, and what a later read of one byte gives. -/

namespace Sys2Proof.Machine

/-! ## An instance and its tables -/

theorem memoryWf_iff (m : Memory) :
    m.wf = true ↔ (∀ S, Table.wf S (m.table S) = true) ∧ rising MemObserver.key m.observers = true := by
  constructor
  · intro h
    simp only [Memory.wf, Bool.and_eq_true] at h
    refine ⟨fun S => ?_, h.2⟩
    cases S <;> simp_all [Memory.table]
  · rintro ⟨h, ho⟩
    simp only [Memory.wf, Bool.and_eq_true]
    exact ⟨⟨⟨⟨h .text, h .data⟩, h .stack⟩, h .mmio⟩, ho⟩

theorem memoryWithin_iff (m : Memory) :
    m.within = true ↔ ∀ S, Table.within S (m.dims.blocks S) (m.table S) = true := by
  constructor
  · intro h S
    simp only [Memory.within, Bool.and_eq_true] at h
    cases S <;> simp_all [Memory.table, Dims.blocks]
  · intro h
    simp only [Memory.within, Bool.and_eq_true]
    exact ⟨⟨⟨h .text, h .data⟩, h .stack⟩, h .mmio⟩

/-- Replacing a table by one in canonical form keeps the canonical form. -/
theorem setTable_wf (m : Memory) (S : Segment) (t : Table) (h : m.wf = true) (ht : Table.wf S t = true) :
    (m.setTable S t).wf = true := by
  obtain ⟨h₁, h₂⟩ := (memoryWf_iff m).1 h
  refine (memoryWf_iff _).2 ⟨fun S' => ?_, by simpa using h₂⟩
  rw [Memory.setTable_table]
  split
  · next e => rw [e]; exact ht
  · exact h₁ S'

/-- Replacing a table by one within the instance's blocks keeps the instance within its dims. -/
theorem setTable_within (m : Memory) (S : Segment) (t : Table) (h : m.within = true)
    (ht : Table.within S (m.dims.blocks S) t = true) : (m.setTable S t).within = true := by
  have h₁ := (memoryWithin_iff m).1 h
  refine (memoryWithin_iff _).2 fun S' => ?_
  rw [Memory.setTable_table, Memory.setTable_dims]
  split
  · next e => rw [e]; exact ht
  · exact h₁ S'

/-- A fresh instance is in canonical form when its registrations are; so is every instance of the reset state. -/
theorem fresh_wf (c : MemConfig) (l : List MemObserver) (h : rising MemObserver.key l = true) :
    (Memory.fresh c l).wf = true :=
  (memoryWf_iff _).2 ⟨fun S => by cases S <;> exact tableEmpty_wf _, h⟩

theorem fresh_within (c : MemConfig) (l : List MemObserver) : (Memory.fresh c l).within = true :=
  (memoryWithin_iff _).2 fun S => by cases S <;> exact tableEmpty_within _ _

/-- Every instance of the reset state is in canonical form, whatever the parameters. -/
theorem resetOf_wf (p : Params) (m : Memory) (h : m ∈ (State.resetOf p).insts) : m.wf = true := by
  simp only [State.resetOf, List.mem_replicate] at h
  rw [h.2]
  exact fresh_wf _ _ (rising_nil _)

theorem reset_wf (m : Memory) (h : m ∈ State.reset.insts) : m.wf = true := resetOf_wf _ m h

/-! ## Stores of bytes -/

theorem bytePut_wf (c : MemConfig) (m : Memory) (S : Segment) (b : Addr) (x : Byte) (h : m.wf = true) :
    (bytePut c m S b x).wf = true := setTable_wf _ _ _ h (tablePut_wf _ _ _ _ (((memoryWf_iff m).1 h).1 S))

/-- Everything a store of bytes can do to an instance: replace one table. -/
theorem writeBytes_eq (c : MemConfig) (m : Memory) (S : Segment) (a : Addr) (v : Word32) (n : Nat) :
    ∃ t, writeBytes c m S a v n = m.setTable S t := by
  induction n with
  | zero => exact ⟨m.table S, by cases S <;> rfl⟩
  | succ n ih =>
    obtain ⟨t, ht⟩ := ih
    refine ⟨tablePut S t (bytePlace c S (a + BitVec.ofNat 32 n)) (v.extractLsb' (8 * n) 8), ?_⟩
    rw [writeBytes, ht, bytePut, Memory.setTable_table, if_pos rfl]
    cases S <;> rfl

theorem writeBytes_wf (c : MemConfig) (m : Memory) (S : Segment) (a : Addr) (v : Word32) (n : Nat) (h : m.wf = true) :
    (writeBytes c m S a v n).wf = true := by
  induction n with
  | zero => exact h
  | succ n ih => exact bytePut_wf _ _ _ _ _ ih

@[simp] theorem writeBytes_dims (c : MemConfig) (m : Memory) (S : Segment) (a : Addr) (v : Word32) (n : Nat) :
    (writeBytes c m S a v n).dims = m.dims := by
  obtain ⟨t, ht⟩ := writeBytes_eq c m S a v n
  simp [ht]

/-- A store of bytes inside a segment keeps the instance within its dims. -/
theorem writeBytes_within (c : MemConfig) (m : Memory) (S : Segment) (a : Addr) (v : Word32) (n : Nat)
    (hv : c.valid = true) (hd : m.dims = dimsOf c) (h : m.within = true)
    (hin : ∀ k < n, rangeContains (c.range S) (a + BitVec.ofNat 32 k) = true) :
    (writeBytes c m S a v n).within = true := by
  induction n with
  | zero => exact h
  | succ n ih =>
    have h' := ih fun k hk => hin k (by omega)
    refine setTable_within _ _ _ h' (tablePut_within _ _ _ _ _ ((memoryWithin_iff _).1 h' S) ?_)
    rw [writeBytes_dims, hd, dimsOf_blocks]
    exact bytePlace_lt c S _ hv (hin n (by omega))

/-- Read after write of one byte, across segments. -/
theorem byteGet_bytePut (c : MemConfig) (m : Memory) (S S' : Segment) (a b : Addr) (x : Byte) (hv : c.valid = true)
    (h : m.wf = true) (ha : rangeContains (c.range S) a = true) (hb : rangeContains (c.range S') b = true) :
    byteGet c (bytePut c m S a x) S' b = if S' = S ∧ b = a then x else byteGet c m S' b := by
  have ht := ((memoryWf_iff m).1 h).1 S
  simp only [byteGet, bytePut, Memory.setTable_table]
  by_cases hS : S' = S
  · subst hS
    rw [if_pos rfl, byteIn_tablePut _ _ _ _ _ ht]
    by_cases hab : b = a
    · simp [hab]
    · have : bytePlace c S' b ≠ bytePlace c S' a := fun e => hab (bytePlace_injective c S' b a hv hb ha e)
      simp [hab, this]
  · simp [hS]

/-- The bytes a store of n bytes at a changes, and what they hold after it (20_memory.md R63, R68). -/
theorem byteGet_writeBytes (c : MemConfig) (m : Memory) (S S' : Segment) (a b : Addr) (v : Word32) (n : Nat)
    (hv : c.valid = true) (h : m.wf = true) (hend : a.toNat + n ≤ 2 ^ 32)
    (hin : ∀ k < n, rangeContains (c.range S) (a + BitVec.ofNat 32 k) = true)
    (hb : rangeContains (c.range S') b = true) :
    byteGet c (writeBytes c m S a v n) S' b =
      if S' = S ∧ a.toNat ≤ b.toNat ∧ b.toNat < a.toNat + n then v.extractLsb' (8 * (b.toNat - a.toNat)) 8
      else byteGet c m S' b := by
  induction n with
  | zero => rw [writeBytes, if_neg (by omega)]
  | succ n ih =>
    have ih := ih (by omega) fun k hk => hin k (by omega)
    rw [writeBytes, byteGet_bytePut c _ S S' _ b _ hv (writeBytes_wf _ _ _ _ _ _ h) (hin n (by omega)) hb, ih]
    have hn := toNat_add_offset a n (by omega)
    have hbn : b = a + BitVec.ofNat 32 n ↔ b.toNat = a.toNat + n := by
      rw [← hn]
      exact ⟨fun e => by rw [e], BitVec.eq_of_toNat_eq⟩
    simp only [hbn]
    by_cases hS : S' = S
    · by_cases h1 : b.toNat = a.toNat + n
      · rw [if_pos ⟨hS, h1⟩, if_pos ⟨hS, by omega, by omega⟩, h1, Nat.add_sub_cancel_left]
      · rw [if_neg (by tauto)]
        by_cases h2 : a.toNat ≤ b.toNat ∧ b.toNat < a.toNat + n
        · rw [if_pos ⟨hS, h2⟩, if_pos ⟨hS, h2.1, by omega⟩]
        · rw [if_neg (by tauto), if_neg (by omega)]
    · simp [hS]

/-- Which granules of the written table are present after a store of bytes (10_state.md R41). -/
theorem mem_writeBytes_present (c : MemConfig) (m : Memory) (S S' : Segment) (a : Addr) (v : Word32) (n g : Nat) :
    g ∈ ((writeBytes c m S a v n).table S').present ↔
      g ∈ (m.table S').present ∨ S' = S ∧ ∃ k < n, g = bytePlace c S (a + BitVec.ofNat 32 k) / granuleBytes S := by
  induction n with
  | zero => simp [writeBytes]
  | succ n ih =>
    rw [writeBytes, bytePut, Memory.setTable_table]
    by_cases hS : S' = S
    · subst hS
      rw [if_pos rfl, mem_tablePut_present, ih]
      constructor
      · rintro (h | h | ⟨-, k, hk, h⟩)
        · exact .inr ⟨rfl, n, by omega, h⟩
        · exact .inl h
        · exact .inr ⟨rfl, k, by omega, h⟩
      · rintro (h | ⟨-, k, hk, h⟩)
        · exact .inr (.inl h)
        · by_cases hkn : k = n
          · exact .inl (by rw [h, hkn])
          · exact .inr (.inr ⟨rfl, k, by omega, h⟩)
    · rw [if_neg hS, ih]
      simp only [hS, false_and]

/-! ## Reads of bytes -/

/-- A byte of an n-byte read (20_memory.md R67). -/
theorem readBytes_byte (c : MemConfig) (m : Memory) (S : Segment) (a : Addr) (n k : Nat) (hn : n ≤ 4) (hk : k < n) :
    (readBytes c m S a n).extractLsb' (8 * k) 8 = byteGet c m S (a + BitVec.ofNat 32 k) := by
  have high : ∀ n i, 8 * n ≤ i → (readBytes c m S a n).getLsbD i = false := by
    intro n
    induction n with
    | zero => intro i _; simp [readBytes]
    | succ n ih =>
      intro i hi
      simp only [readBytes, BitVec.getLsbD_or, ih i (by omega), BitVec.getLsbD_shiftLeft, BitVec.getLsbD_setWidth,
        BitVec.getLsbD_of_ge (byteGet c m S (a + BitVec.ofNat 32 n)) (i - 8 * n) (by omega)]
      simp
  induction n with
  | zero => omega
  | succ n ih =>
    apply BitVec.eq_of_getLsbD_eq
    intro i hi
    simp only [readBytes, BitVec.getLsbD_extractLsb', BitVec.getLsbD_or, BitVec.getLsbD_shiftLeft,
      BitVec.getLsbD_setWidth, hi, decide_true, Bool.true_and]
    by_cases hkn : k = n
    · subst hkn
      rw [high k _ (by omega), show 8 * k + i - 8 * k = i by omega]
      simp [show ¬ 8 * k + i < 8 * k by omega, show i < 32 by omega, show 8 * k + i < 32 by omega]
    · have h := congrArg (fun b => b.getLsbD i) (ih (by omega) (by omega))
      simp only [BitVec.getLsbD_extractLsb', hi, decide_true, Bool.true_and] at h
      rw [h]
      simp [show 8 * k + i < 8 * n by omega]

/-- The bits above an n-byte read are 0 (20_memory.md R67). -/
theorem readBytes_high (c : MemConfig) (m : Memory) (S : Segment) (a : Addr) (n i : Nat) (hi : 8 * n ≤ i) :
    (readBytes c m S a n).getLsbD i = false := by
  induction n generalizing i with
  | zero => simp [readBytes]
  | succ n ih =>
    simp only [readBytes, BitVec.getLsbD_or, ih i (by omega), BitVec.getLsbD_shiftLeft, BitVec.getLsbD_setWidth,
      BitVec.getLsbD_of_ge (byteGet c m S (a + BitVec.ofNat 32 n)) (i - 8 * n) (by omega)]
    simp

/-- A byte of a table's word is the byte an address of it reads (20_memory.md R64). -/
theorem byteGet_wordAt (c : MemConfig) (m : Memory) (S : Segment) (a : Addr) :
    byteGet c m S a = (wordAt (m.table S) (wordIndex c S a)).extractLsb' (8 * (a.toNat % 4)) 8 := by
  rw [wordAt_byte _ _ _ (by omega), byteGet, bytePlace, toNat_and_three]

/-- An aligned word read is the word of the table: the fast path has no visible difference (44_memory_access.md R202). -/
theorem readBytes_word (c : MemConfig) (m : Memory) (S : Segment) (a : Addr) (hv : c.valid = true)
    (ha : a.toNat % 4 = 0) (hc : rangeContains (c.range S) a = true) :
    readBytes c m S a 4 = wordAt (m.table S) (wordIndex c S a) := by
  have h1 := (rangeContains_iff _ _).1 hc
  have h2 := (rangeValid_iff _).1 (range_valid c hv S)
  have hlt := (c.range S).high.isLt
  apply word_ext
  intro p hp
  have hn := toNat_add_offset a p (by omega)
  have hc' : rangeContains (c.range S) (a + BitVec.ofNat 32 p) = true := (rangeContains_iff _ _).2 (by omega)
  rw [readBytes_byte c m S a 4 p (le_refl 4) hp, byteGet_wordAt,
    wordIndex_congr c S _ a hv hc' hc (by omega), hn, show (a.toNat + p) % 4 = p by omega]

/-! ## The access primitives -/

/-- The bytes of an access that does not pass the end of its segment lie in it (20_memory.md R66). -/
theorem bytes_contained (c : MemConfig) (S : Segment) (a : Addr) (n : Nat) (hc : rangeContains (c.range S) a = true)
    (hend : a.toNat + n ≤ (c.range S).high.toNat) :
    ∀ k < n, rangeContains (c.range S) (a + BitVec.ofNat 32 k) = true := by
  intro k hk
  have h1 := (rangeContains_iff _ _).1 hc
  have hlt := (c.range S).high.isLt
  have hn := toNat_add_offset a k (by omega)
  exact (rangeContains_iff _ _).2 (by omega)

theorem pastEnd_eq_false (c : MemConfig) (S : Segment) (a : Addr) (n : Nat) (hn : 0 < n) :
    pastEnd c S a n = false ↔ a.toNat + n ≤ (c.range S).high.toNat := by
  simp only [pastEnd, decide_eq_false_iff_not]
  omega

/-- Everything MemRead can answer (20_memory.md R67). -/
theorem memRead_cases (c : MemConfig) (m : Memory) (a : Addr) (n : Nat) :
    (memRead c m a n = .error ⟨.loadRange, a⟩ ∧
      (classify c a = none ∨ ∃ S, classify c a = some S ∧ pastEnd c S a n = true)) ∨
    ∃ S, classify c a = some S ∧ pastEnd c S a n = false ∧ memRead c m a n = .ok (readBytes c m S a n) := by
  simp only [memRead]
  cases hcl : classify c a with
  | none => simp
  | some S => cases hp : pastEnd c S a n <;> simp [hp]

/-- The merge of a sub-word write, byte by byte (20_memory.md R69). -/
theorem mergeSlot_byte (old v : Word32) (a : Addr) (n p : Nat) (hn : n = 1 ∨ n = 2 ∨ n = 4) (hp : p < 4)
    (hfit : a.toNat % 4 + n ≤ 4) :
    (mergeSlot old a n v).extractLsb' (8 * p) 8 =
      if a.toNat % 4 ≤ p ∧ p < a.toNat % 4 + n then v.extractLsb' (8 * (p - a.toNat % 4)) 8
      else old.extractLsb' (8 * p) 8 := by
  have hm : ∀ n q p : Fin 5, (n.val = 1 ∨ n.val = 2 ∨ n.val = 4) → q.val + n.val ≤ 4 → p.val < 4 → ∀ j : Fin 8,
      (lowBytesMask n.val <<< (8 * q.val)).getLsbD (8 * p.val + j.val) =
        decide (q.val ≤ p.val ∧ p.val < q.val + n.val) := by decide
  have hm' : ∀ j < 8, (lowBytesMask n <<< (8 * (a.toNat % 4))).getLsbD (8 * p + j) =
      decide (a.toNat % 4 ≤ p ∧ p < a.toNat % 4 + n) := fun j hj =>
    hm ⟨n, by omega⟩ ⟨a.toNat % 4, by omega⟩ ⟨p, by omega⟩ hn hfit hp ⟨j, hj⟩
  apply BitVec.eq_of_getLsbD_eq
  intro j hj
  simp only [mergeSlot, toNat_and_three, BitVec.getLsbD_extractLsb', hj, decide_true, Bool.true_and, BitVec.getLsbD_or,
    BitVec.getLsbD_and, BitVec.getLsbD_not, hm' j hj, BitVec.getLsbD_shiftLeft, show 8 * p + j < 32 by omega]
  split
  · next h =>
    simp [h, hj, show ¬ 8 * p + j < 8 * (a.toNat % 4) by omega,
      show 8 * p + j - 8 * (a.toNat % 4) = 8 * (p - a.toNat % 4) + j by omega]
  · next h => simp [h, hj]

/-- The previous bytes of a sub-word write (20_memory.md R69). -/
theorem slotBytes_byte (old : Word32) (a : Addr) (n k : Nat) (hn : n = 1 ∨ n = 2 ∨ n = 4) (hk : k < n)
    (hfit : a.toNat % 4 + n ≤ 4) :
    (slotBytes old a n).extractLsb' (8 * k) 8 = old.extractLsb' (8 * (a.toNat % 4 + k)) 8 := by
  have hm : ∀ n q p : Fin 5, (n.val = 1 ∨ n.val = 2 ∨ n.val = 4) → q.val + n.val ≤ 4 → p.val < n.val → ∀ j : Fin 8,
      (lowBytesMask n.val <<< (8 * q.val)).getLsbD (8 * q.val + (8 * p.val + j.val)) = true := by decide
  apply BitVec.eq_of_getLsbD_eq
  intro j hj
  have hm' := hm ⟨n, by omega⟩ ⟨a.toNat % 4, by omega⟩ ⟨k, by omega⟩ hn hfit hk ⟨j, hj⟩
  simp only at hm'
  simp only [slotBytes, toNat_and_three, BitVec.getLsbD_extractLsb', hj, decide_true, Bool.true_and,
    BitVec.getLsbD_ushiftRight, BitVec.getLsbD_and, hm', Bool.and_true]
  congr 1
  omega

/-- The bits above the previous bytes of a sub-word write are 0. -/
theorem slotBytes_high (old : Word32) (a : Addr) (n i : Nat) (hn : n = 1 ∨ n = 2 ∨ n = 4) (hi : 8 * n ≤ i)
    (hfit : a.toNat % 4 + n ≤ 4) : (slotBytes old a n).getLsbD i = false := by
  have hm : ∀ n q : Fin 5, (n.val = 1 ∨ n.val = 2 ∨ n.val = 4) → q.val + n.val ≤ 4 → ∀ i : Fin 32, 8 * n.val ≤ i.val →
      (lowBytesMask n.val <<< (8 * q.val)).getLsbD (8 * q.val + i.val) = false := by decide
  by_cases hlt : i < 32
  · have hm' := hm ⟨n, by omega⟩ ⟨a.toNat % 4, by omega⟩ hn hfit ⟨i, hlt⟩ hi
    simp only at hm'
    simp only [slotBytes, toNat_and_three, BitVec.getLsbD_ushiftRight, BitVec.getLsbD_and, hm', Bool.and_false]
  · exact BitVec.getLsbD_of_ge _ _ (by omega)

/-- Everything MemWrite can answer (20_memory.md R68). -/
theorem memWrite_cases (c : MemConfig) (m : Memory) (a : Addr) (n : Nat) (v : Word32) :
    (∃ e, memWrite c m a n v = .error e ∧ e.addr = a ∧ (e.status = .storeRange ∨ e.status = .storeMisaligned)) ∨
    (classify c a = some .text ∧ a.toNat % 4 + n ≤ 4 ∧
      memWrite c m a n v = .ok (m.setTable .text (putWord .text m.text (wordIndex c .text a)
        (mergeSlot (wordAt m.text (wordIndex c .text a)) a n v)),
        slotBytes (wordAt m.text (wordIndex c .text a)) a n)) ∨
    ∃ S, S ≠ .text ∧ classify c a = some S ∧ pastEnd c S a n = false ∧
      memWrite c m a n v = .ok (writeBytes c m S a v n, readBytes c m S a n) := by
  simp only [memWrite]
  cases hcl : classify c a with
  | none => simp
  | some S =>
    have other : S ≠ .text →
        (∃ e, (if pastEnd c S a n = true then Except.error (AccessError.mk .storeRange a)
            else Except.ok (writeBytes c m S a v n, readBytes c m S a n)) = .error e ∧ e.addr = a ∧
          (e.status = .storeRange ∨ e.status = .storeMisaligned)) ∨
        (pastEnd c S a n = false ∧ (if pastEnd c S a n = true then Except.error (AccessError.mk .storeRange a)
            else Except.ok (writeBytes c m S a v n, readBytes c m S a n)) =
          .ok (writeBytes c m S a v n, readBytes c m S a n)) := by
      intro _
      cases hp : pastEnd c S a n <;> simp
    cases S with
    | text =>
      simp only [toNat_and_three]
      by_cases hfit : a.toNat % 4 + n > 4
      · left; exact ⟨_, if_pos hfit, rfl, .inr rfl⟩
      · right; left; exact ⟨trivial, by omega, if_neg hfit⟩
    | data | stack | mmio =>
      rcases other (by decide) with h | h
      · exact .inl h
      · exact .inr (.inr ⟨_, by decide, rfl, h⟩)

/-- Every write keeps the canonical form. -/
theorem memWrite_wf (c : MemConfig) (m m' : Memory) (a : Addr) (n : Nat) (v prev : Word32)
    (h : memWrite c m a n v = .ok (m', prev)) (hw : m.wf = true) : m'.wf = true := by
  rcases memWrite_cases c m a n v with ⟨e, he, -⟩ | ⟨-, -, he⟩ | ⟨S, -, -, -, he⟩ <;> rw [he] at h
  · cases h
  · cases h
    exact setTable_wf _ _ _ hw (putWord_wf _ _ _ _ (((memoryWf_iff m).1 hw).1 .text))
  · cases h
    exact writeBytes_wf _ _ _ _ _ _ hw

/-- A write replaces one table of the instance and nothing else. -/
theorem memWrite_eq (c : MemConfig) (m m' : Memory) (a : Addr) (n : Nat) (v prev : Word32)
    (h : memWrite c m a n v = .ok (m', prev)) : ∃ S t, classify c a = some S ∧ m' = m.setTable S t := by
  rcases memWrite_cases c m a n v with ⟨e, he, -⟩ | ⟨hcl, -, he⟩ | ⟨S, -, hcl, -, he⟩ <;> rw [he] at h
  · cases h
  · cases h
    exact ⟨_, _, hcl, rfl⟩
  · cases h
    obtain ⟨t, ht⟩ := writeBytes_eq c m S a v n
    exact ⟨S, t, hcl, ht⟩

/-- A write under a valid configuration with the instance's dims keeps the instance within them. -/
theorem memWrite_within (c : MemConfig) (m m' : Memory) (a : Addr) (n : Nat) (v prev : Word32) (hn : 0 < n)
    (h : memWrite c m a n v = .ok (m', prev)) (hv : c.valid = true) (hd : m.dims = dimsOf c) (hw : m.within = true) :
    m'.within = true := by
  rcases memWrite_cases c m a n v with ⟨e, he, -⟩ | ⟨hcl, -, he⟩ | ⟨S, -, hcl, hp, he⟩ <;> rw [he] at h
  · cases h
  · cases h
    have hc := contains_of_classify c a _ hcl
    have h1 := (rangeContains_iff _ _).1 hc
    have h2 := (rangeValid_iff _).1 (range_valid c hv .text)
    refine setTable_within _ _ _ hw (putWord_within _ _ _ _ _ ((memoryWithin_iff m).1 hw .text) ?_)
    rw [hd, dimsOf_blocks, wordIndex_eq c .text a (by decide) hc]
    simp only [MemConfig.range, blockCount, blockBytes] at *
    omega
  · cases h
    exact writeBytes_within c m S a v n hv hd hw
      (bytes_contained c S a n (contains_of_classify c a S hcl) ((pastEnd_eq_false c S a n hn).1 hp))

/-! ## The gated accesses -/

/-- Everything a gated read can answer (44_memory_access.md R200). -/
theorem gatedRead_cases (s : State) (a : Addr) (n : Nat) :
    (∃ e, gatedRead s a n = .error e ∧ e.addr = a ∧ (e.status = .loadRange ∨ e.status = .loadTextForbidden)) ∨
    ∃ S, classify s.config a = some S ∧ gated s S = false ∧ pastEnd s.config S a n = false ∧
      gatedRead s a n = .ok (readBytes s.config s.memory S a n) := by
  simp only [gatedRead]
  cases hcl : classify s.config a with
  | none => simp
  | some S =>
    cases hg : gated s S
    · rcases memRead_cases s.config s.memory a n with ⟨h, -⟩ | ⟨S', h1, h2, h3⟩
      · simp [hg, h]
      · rw [hcl] at h1
        cases h1
        simp [hg, h2, h3]
    · simp [hg]

/-- Everything a gated write can answer: an error, or what MemWrite answers (44_memory_access.md R201). -/
theorem gatedWrite_cases (s : State) (a : Addr) (n : Nat) (v : Word32) :
    (∃ e, gatedWrite s a n v = .error e ∧ e.addr = a ∧
      (e.status = .storeRange ∨ e.status = .storeMisaligned ∨ e.status = .storeTextForbidden)) ∨
    ∃ S r, classify s.config a = some S ∧ gated s S = false ∧ memWrite s.config s.memory a n v = .ok r ∧
      gatedWrite s a n v = .ok r := by
  simp only [gatedWrite]
  cases hcl : classify s.config a with
  | none => simp
  | some S =>
    cases hg : gated s S
    · cases h : memWrite s.config s.memory a n v with
      | ok r => simp [hg]
      | error e =>
        rcases memWrite_cases s.config s.memory a n v with ⟨e', he, h1, h2⟩ | ⟨-, -, he⟩ | ⟨_, -, -, -, he⟩
        · rw [h] at he
          cases he
          left
          exact ⟨e, by simp [hg], h1, by tauto⟩
        · rw [h] at he; cases he
        · rw [h] at he; cases he
    · simp [hg]

/-- Everything a notified load can do: the response and the notices (44_memory_access.md R200). -/
theorem loadBytes_next (s : State) (a : Addr) (n : Nat) : ∃ r g, loadBytes s a n = .next (s.answer r g) := by
  simp only [loadBytes]
  cases gatedRead s a n with
  | error e => exact ⟨_, _, rfl⟩
  | ok v => exact ⟨_, _, rfl⟩

/-- Everything a notified store can do: fail and leave the ports, or write the active instance (44_memory_access.md
R201). -/
theorem storeBytes_next (s : State) (a : Addr) (n : Nat) (v : Word32) :
    (∃ e, storeBytes s a n v = .next (s.answer (errorResponse e a) []) ∧ e ≠ .ok) ∨
    ∃ m prev, gatedWrite s a n v = .ok (m, prev) ∧
      storeBytes s a n v = .next ((s.setMemory m).answer (okResponse (prev.setWidth 64))
        [memoryNotices s .write a n (truncBytes n v)]) := by
  simp only [storeBytes]
  rcases gatedWrite_cases s a n v with ⟨e, he, h1, h2⟩ | ⟨S, ⟨m, prev⟩, -, -, -, he⟩ <;> rw [he]
  · exact .inl ⟨e.status, by rw [← h1]; rfl, by rcases h2 with h | h | h <;> rw [h] <;> decide⟩
  · exact .inr ⟨m, prev, rfl, rfl⟩

/-! ## What a completed store does -/

/-- When a table's word is not null: its granule is present (10_state.md R40, R41). -/
theorem wordOrNull_isSome (S : Segment) (t : Table) (i : Nat) :
    (wordOrNull S t i).isSome = true ↔ 4 * i / granuleBytes S ∈ t.present := by
  simp only [wordOrNull]
  split
  · next h => simpa using h
  · next h => simpa using h

/-- Storage that was never written holds 0 (10_state.md R41, 20_memory.md R67). -/
theorem byteGet_eq_zero_of_null (c : MemConfig) (m : Memory) (S : Segment) (a : Addr) (h : m.wf = true)
    (hn : wordOrNull S (m.table S) (wordIndex c S a) = none) : byteGet c m S a = 0 := by
  have hp : 4 * wordIndex c S a / granuleBytes S ∉ (m.table S).present := by
    rw [← wordOrNull_isSome, hn]; simp
  have ht := ((memoryWf_iff m).1 h).1 S
  simp only [Table.wf, Bool.and_eq_true, List.all_eq_true, List.contains_iff_mem] at ht
  refine byteIn_eq_zero_of_unlisted _ _ fun e he heq => hp ?_
  have hg : bytePlace c S a / granuleBytes S = 4 * wordIndex c S a / granuleBytes S := by
    have := bytePlace_div c S a
    cases S <;> simp only [granuleBytes, blockBytes] <;> omega
  rw [← hg, ← heq]
  exact ht.2 e he

/-- A registration matches an access when its range meets the four bytes of the word of the first byte (20_memory.md R74),
for a range that is not inverted. -/
theorem observes_iff (o : MemObserver) (a : Addr) (h : o.start.toNat ≤ o.stop.toNat) :
    observes o a = true ↔ ∃ p < 4, o.start.toNat ≤ a.toNat / 4 * 4 + p ∧ a.toNat / 4 * 4 + p ≤ o.stop.toNat := by
  have hw : (a &&& 0xFFFFFFFC).toNat = a.toNat / 4 * 4 := toNat_word a
  have hw3 : ((a &&& 0xFFFFFFFC) + 3).toNat = a.toNat / 4 * 4 + 3 := by
    rw [BitVec.toNat_add, hw]
    have := a.isLt
    simp; omega
  simp only [observes, Bool.and_eq_true, decide_eq_true_eq, BitVec.le_def, hw, hw3]
  constructor
  · rintro ⟨h1, h2⟩
    by_cases h : o.start.toNat ≤ a.toNat / 4 * 4
    · exact ⟨0, by omega, by omega, by omega⟩
    · exact ⟨o.start.toNat - a.toNat / 4 * 4, by omega, by omega, by omega⟩
  · rintro ⟨p, hp, h1, h2⟩
    omega

/-- Everything MemWrite does where it completes (20_memory.md R68, R69, 10_state.md R41): the previous bytes, the bytes of
every segment after it, and which words are no longer null. -/
theorem memWrite_ok (c : MemConfig) (m : Memory) (a : Addr) (n : Nat) (v : Word32) (S : Segment) (hv : c.valid = true)
    (hw : m.wf = true) (hc : classify c a = some S) (hend : a.toNat + n ≤ (c.range S).high.toNat)
    (hn : n = 1 ∨ n = 2 ∨ n = 4) (ht : S = .text → a.toNat % 4 + n ≤ 4) :
    ∃ m' prev, memWrite c m a n v = .ok (m', prev) ∧
      (∀ k < n, prev.extractLsb' (8 * k) 8 = byteGet c m S (a + BitVec.ofNat 32 k)) ∧
      (∀ j, 8 * n ≤ j → prev.getLsbD j = false) ∧ m'.dims = m.dims ∧ m'.heap = m.heap ∧ m'.observers = m.observers ∧
      m'.wf = true ∧ (∀ S', S' ≠ S → m'.table S' = m.table S') ∧
      ∀ S' b, rangeContains (c.range S') b = true →
        byteGet c m' S' b =
          (if S' = S ∧ a.toNat ≤ b.toNat ∧ b.toNat < a.toNat + n then v.extractLsb' (8 * (b.toNat - a.toNat)) 8
           else byteGet c m S' b) ∧
        ((wordOrNull S' (m'.table S') (wordIndex c S' b)).isSome ↔
          (wordOrNull S' (m.table S') (wordIndex c S' b)).isSome ∨
          S' = S ∧ ∃ k < n,
            match S with
            | .text => wordIndex c .text b = wordIndex c .text (a + BitVec.ofNat 32 k)
            | S => wordIndex c S b / 1024 = wordIndex c S (a + BitVec.ofNat 32 k) / 1024) := by
  have hcont := contains_of_classify c a S hc
  have hbytes := bytes_contained c S a n hcont hend
  have hlt := (c.range S).high.isLt
  rcases memWrite_cases c m a n v with ⟨e, he, -, -⟩ | ⟨hS, hfit, he⟩ | ⟨S', hne, hS, hp, he⟩
  · exfalso
    have hpe := (pastEnd_eq_false c S a n (by omega)).2 hend
    simp only [memWrite, hc] at he
    cases S with
    | text =>
      have := ht rfl
      simp only [toNat_and_three] at he
      rw [if_neg (by omega)] at he
      cases he
    | data => simp [hpe] at he
    | stack => simp [hpe] at he
    | mmio => simp [hpe] at he
  · rw [hc] at hS
    cases hS
    have hidx : ∀ k < n, wordIndex c .text (a + BitVec.ofNat 32 k) = wordIndex c .text a := by
      intro k hk
      refine wordIndex_congr c _ _ _ hv (hbytes k hk) hcont ?_
      rw [toNat_add_offset a k (by omega)]
      omega
    refine ⟨_, _, he, ?_, ?_, by simp, by simp, by simp, memWrite_wf _ _ _ _ _ _ _ he hw, fun S' h => by simp [h], ?_⟩
    · intro k hk
      rw [slotBytes_byte _ _ _ _ hn hk hfit, byteGet_wordAt, hidx k hk, toNat_add_offset a k (by omega)]
      have : (a.toNat + k) % 4 = a.toNat % 4 + k := by omega
      rw [this]; rfl
    · intro j hj; exact slotBytes_high _ _ _ _ hn hj hfit
    · intro S' b hb
      by_cases hS' : S' = .text
      · subst hS'
        have hwf := ((memoryWf_iff m).1 hw).1 .text
        constructor
        · simp only [byteGet, Memory.setTable_table, if_true]
          rw [byteIn_putWord .text m.text _ _ _ hwf, bytePlace_div, bytePlace_mod]
          have h1 := word_of_wordIndex c .text b a hv hb hcont
          have h2 := wordIndex_congr c .text b a hv hb hcont
          by_cases hw' : wordIndex c .text b = wordIndex c .text a
          · rw [if_pos hw', mergeSlot_byte _ _ _ _ _ hn (by omega) hfit]
            have := h1 hw'
            by_cases hin : a.toNat ≤ b.toNat ∧ b.toNat < a.toNat + n
            · rw [if_pos (by omega), if_pos ⟨trivial, hin⟩]
              congr 2; omega
            · rw [if_neg (by omega), if_neg (by omega), wordAt_byte _ _ _ (by omega), ← hw', ← toNat_and_three]
              rfl
          · rw [if_neg hw', if_neg]
            · rfl
            · rintro ⟨-, h3, h4⟩
              exact hw' (h2 (by omega))
        · rw [wordOrNull_isSome, wordOrNull_isSome, Memory.setTable_table, if_pos rfl, mem_putWord_present]
          simp only [granuleBytes, true_and]
          constructor
          · rintro (h | h)
            · right; exact ⟨0, by omega, by rw [hidx 0 (by omega)]; omega⟩
            · left; exact h
          · rintro (h | ⟨k, hk, h⟩)
            · right; exact h
            · left; rw [hidx k hk] at h; omega
      · simp only [hS', false_and, or_false, if_false, byteGet, Memory.setTable_table, and_self]
  · rw [hc] at hS
    cases hS
    obtain ⟨t, ht'⟩ := writeBytes_eq c m S a v n
    have hn4 : n ≤ 4 := by omega
    refine ⟨_, _, he, fun k hk => readBytes_byte _ _ _ _ _ _ hn4 hk, fun j hj => readBytes_high _ _ _ _ _ _ hj, by simp,
      by simp [ht'], by simp [ht'], memWrite_wf _ _ _ _ _ _ _ he hw, fun S' h => by simp [ht', h], ?_⟩
    intro S' b hb
    refine ⟨byteGet_writeBytes c m S S' a b v n hv hw (by omega) hbytes hb, ?_⟩
    rw [wordOrNull_isSome, wordOrNull_isSome, mem_writeBytes_present]
    have hp : ∀ k, bytePlace c S (a + BitVec.ofNat 32 k) / 4096 = wordIndex c S (a + BitVec.ofNat 32 k) / 1024 := by
      intro k
      have := bytePlace_div c S (a + BitVec.ofNat 32 k)
      omega
    refine or_congr Iff.rfl (and_congr_right fun e => ?_)
    subst e
    have h4 : 4 * wordIndex c S' b / 4096 = wordIndex c S' b / 1024 := by omega
    cases S' <;> simp_all [granuleBytes, blockBytes]

/-! ## Scans -/

/-- A scan passes over k words that are not null (45_memory_management.md R231). -/
theorem scanNull_skip (c : MemConfig) (m : Memory) : ∀ k n a : Nat,
    (∀ j < k, ∃ S w, classify c (BitVec.ofNat 32 (a + 4 * j)) = some S ∧
      wordOrNull S (m.table S) (wordIndex c S (BitVec.ofNat 32 (a + 4 * j))) = some w) →
    scanNull c m (k + n) a = scanNull c m n (a + 4 * k) := by
  intro k
  induction k with
  | zero => intro n a _; simp
  | succ k ih =>
    intro n a h
    obtain ⟨S, w, h1, h2⟩ := h 0 (by omega)
    rw [Nat.add_right_comm, scanNull]
    simp only [Nat.mul_zero, Nat.add_zero] at h1 h2
    simp only [rawWordOrNull, h1, h2]
    rw [ih n (a + 4) (fun j hj => by
      obtain ⟨S, w, h1, h2⟩ := h (j + 1) (by omega)
      rw [show a + 4 * (j + 1) = a + 4 + 4 * j by omega] at h1 h2
      exact ⟨S, w, h1, h2⟩)]
    congr 1; omega

end Sys2Proof.Machine
end

