-- ==== Sys2Proof/Laws/Effects.lean ====
section
/-! SUPPORT. Everything a command can do, said once: `Effect` lists the changes of the state, `exec_effect` says that every
command answers a next state with one of them. Proofs about every command split on `Effect` and never unfold a meaning. -/

namespace Sys2Proof.Machine

/-- The storage an ordinary CSR write to a number may change (43_csr_file.md R187). -/
def csrWriteTargets : List (Index × Fin 12) :=
  [(0x000, 0), (0x001, 1), (0x002, 1), (0x003, 1), (0x004, 2), (0x005, 3), (0x040, 4), (0x041, 5), (0x042, 6),
   (0x043, 7), (0x044, 8)]

/-- The storage a backdoor CSR write to a number may change (43_csr_file.md R188). -/
def csrBackdoorTargets : List (Index × Fin 12) :=
  csrWriteTargets ++ [(0xC00, 9), (0xC01, 10), (0xC02, 11), (0xC80, 9), (0xC81, 10), (0xC82, 11)]

/-- Which storage-owning cells a command may give a new value, one by one. -/
def mayWrite : Instr → Home → Prop
  | .xwrite idx _, .x k => idx.toNat = k.val ∧ k ≠ 0
  | .xwriteb idx _, .x k => idx.toNat = k.val ∧ k ≠ 0
  | .fwrite32 idx _, .f k => idx.toNat = k.val
  | .fwrite64 idx _, .f k => idx.toNat = k.val
  | .fwriteb idx _, .f k => idx.toNat = k.val
  | .pcset _, .pc => True
  | .pcsetb _, .pc => True
  | .pcinc, .pc => True
  | .pcinita _, .pc => True
  | .pcinitm _ _, .pc => True
  | .csrwrite idx _, .csr k => (idx, k) ∈ csrWriteTargets
  | .csrwriteb idx _, .csr k => (idx, k) ∈ csrBackdoorTargets
  | _, _ => False

/-- The stores, with the width, address and value of what they write (44_memory_access.md R201, R203, R205, R207). -/
def storeOf : Instr → Option (Addr × Nat × Word32)
  | .set len a v => some (a, len.toNat, v)
  | .setbyte a v => some (a, 1, v)
  | .sethalf a v => some (a, 2, v.setWidth 32)
  | .setword a v => some (a, 4, v)
  | .setrawword a v => some (a, 4, v)
  | _ => none

/-- Every change a command can make to the state, the ports aside. -/
inductive Effect (s : State) : Instr → State → Prop where
  | keep (i : Instr) : Effect s i s
  | value (i : Instr) (h : Home) (v : Word64) (hw : mayWrite i h) : Effect s i (s.setValue h v)
  | xreset : Effect s .xreset { s with x := mapAll resetCell s.x }
  | xobsadd (o : ObserverId) : Effect s (.xobsadd o) { s with x := mapAll (observeCell o) s.x }
  | xobsdel (o : ObserverId) : Effect s (.xobsdel o) { s with x := mapAll (unobserveCell o) s.x }
  | pcobsadd (o : ObserverId) : Effect s (.pcobsadd o) { s with pc := observeCell o s.pc }
  | pcobsdel (o : ObserverId) : Effect s (.pcobsdel o) { s with pc := unobserveCell o s.pc }
  | freset : Effect s .freset { s with f := mapAll resetCell s.f }
  | fobsadd (o : ObserverId) : Effect s (.fobsadd o) { s with f := mapAll (observeCell o) s.f }
  | fobsdel (o : ObserverId) : Effect s (.fobsdel o) { s with f := mapAll (unobserveCell o) s.f }
  | csrreset : Effect s .csrreset { s with csr := mapAll resetCell s.csr }
  | csrobsadd (o : ObserverId) : Effect s (.csrobsadd o)
      { s with csr := mapAll (observeCell o) s.csr, csrViews := mapAll (addObserver o) s.csrViews }
  | csrobsdel (o : ObserverId) : Effect s (.csrobsdel o)
      { s with csr := mapAll (unobserveCell o) s.csr, csrViews := mapAll (removeObserver o) s.csrViews }
  | store (i : Instr) (a : Addr) (n : Nat) (v prev : Word32) (m : Memory) (hi : storeOf i = some (a, n, v))
      (hn : n = 1 ∨ n = 2 ∨ n = 4) (hm : memWrite s.config s.memory a n v = .ok (m, prev)) :
      Effect s i (s.setMemory m)
  | install (a : Addr) (v : Word32) (hc : classify s.config a = some .text) :
      Effect s (.install a v) (s.setMemory
        (s.memory.setTable .text (putWord .text s.memory.text (wordIndex s.config .text a) v)))
  | alloc (size : Word32) (n : Nat) (hn : s.memory.heap.toNat + roundUp4 n ≤ s.config.data.high.toNat) :
      Effect s (.alloc size) (s.setMemory { s.memory with heap := BitVec.ofNat 32 (s.memory.heap.toNat + roundUp4 n) })
  | memclear : Effect s .memclear (s.setMemory (Memory.fresh s.config s.memory.observers))
  | copyfrom (k : Index) (src : Memory) (hk : s.insts[k.toNat]? = some src) (hd : src.dims = s.memory.dims) :
      Effect s (.copyfrom k) (s.setMemory
        { s.memory with text := src.text, data := src.data, stack := src.stack, mmio := src.mmio })
  | swapinst (k : Index) (target : Memory) (hk : s.insts[k.toNat]? = some target)
      (hd : target.dims = dimsOf s.config) : Effect s (.swapinst k) { s with active := k.toNat }
  | obsadd (i : Instr) (o : ObserverId) (a b : Addr) (hi : i = .obsadd o a b ∨ (i = .obsadd1 o a ∧ b = a))
      (hl : MemObserver.legal ⟨o, a, b⟩ = true) :
      Effect s i (s.setMemory
        { s.memory with observers := insertRising MemObserver.key ⟨o, a, b⟩ s.memory.observers })
  | obsdel (o : ObserverId) : Effect s (.obsdel o) (s.setMemory
      { s.memory with observers := s.memory.observers.filter fun r => r.obs != o })
  | setconfig (k : Index) (c : MemConfig) (hk : s.cfgs[k.toNat]? = some c) (hne : k.toNat ≠ s.cur) :
      Effect s (.setconfig k)
        (cellChangeReset (cellChangeReset (cellChangeReset
          (State.setMemory { s with cur := k.toNat } (Memory.fresh c s.memory.observers))
          (.own (.x 2)) (c.spReset.setWidth 64)) (.own (.x 3)) (c.gpReset.setWidth 64)) (.own .pc)
          (c.pcReset.setWidth 64))
  | reserve (h : Index) (len : BitVec 4) (a : Addr) (w : Width) (hw : widthOf len = some w)
      (hh : h.toNat < s.rsv.length) (ha : a.toNat % widthBytes w = 0) :
      Effect s (.reserve h len a) { s with rsv := s.rsv.modify h.toNat (addReservation ⟨a, w⟩) }
  | unreserve (h : Index) (len : BitVec 4) (a : Addr) (w : Width) (hw : widthOf len = some w) :
      Effect s (.unreserve h len a) { s with rsv := s.rsv.map fun t => t.filter fun e => !reservationMatches e a w }
  | rsvreset : Effect s .rsvreset { s with rsv := s.rsv.map fun _ => [] }

/-- How a command that answers a next state ended: with an effect, or with an error, no effect and no notice. -/
structure Ended (i : Instr) (s : State) (u : State) (r : Response) (g : List (List Notice)) : Prop where
  next   : exec i s = .next (u.answer r g)
  effect : Effect s i u
  error  : r.status ≠ .ok → u = s ∧ g = [] ∧ ∃ a : Addr, r = errorResponse r.status a

/-! ## The shared ends of commands -/

theorem ended_raise {i : Instr} {s : State} (e : Status) (a : Addr) (h : exec i s = raise s e a) :
    ∃ u r g, Ended i s u r g :=
  ⟨s, errorResponse e a, [], h, .keep i, fun _ => ⟨rfl, rfl, a, rfl⟩⟩

theorem ended_respond {i : Instr} {s u : State} (d : Word64) (flag absent : Bool) (g : List (List Notice))
    (h : exec i s = respond u (okResponse d flag absent) g) (he : Effect s i u) : ∃ u r g, Ended i s u r g :=
  ⟨u, okResponse d flag absent, g, h, he, fun hne => absurd rfl hne⟩

/-- A register command on a looked-up cell: absent, or the command. -/
theorem ended_onCell {i : Instr} {s : State} {found : Option CellRef} {command : CellRef → Result}
    (h : exec i s = onCell s found command)
    (hc : ∀ r, found = some r → exec i s = command r → ∃ u r g, Ended i s u r g) : ∃ u r g, Ended i s u r g := by
  rcases onCell_cases s found command with ⟨-, h'⟩ | ⟨r, hr, h'⟩
  · exact ended_respond _ _ _ _ (h.trans h') (.keep i)
  · exact hc r hr (h.trans h')

theorem ended_load {i : Instr} {s : State} (a : Addr) (n : Nat) (h : exec i s = loadBytes s a n) :
    ∃ u r g, Ended i s u r g := by
  simp only [loadBytes] at h
  split at h
  · exact ended_raise _ _ h
  · exact ended_respond _ _ _ _ h (.keep i)

theorem ended_store {i : Instr} {s : State} (a : Addr) (n : Nat) (v : Word32) (hi : storeOf i = some (a, n, v))
    (hn : n = 1 ∨ n = 2 ∨ n = 4) (h : exec i s = storeBytes s a n v) : ∃ u r g, Ended i s u r g := by
  rcases storeBytes_next s a n v with ⟨e, he, -⟩ | ⟨m, prev, hm, he⟩
  · exact ended_raise e a (h.trans he)
  · refine ended_respond _ _ _ _ (h.trans he) ?_
    rcases gatedWrite_cases s a n v with ⟨e, hg, -⟩ | ⟨S, r, -, -, hw, hg⟩
    · rw [hm] at hg; cases hg
    · rw [hm] at hg
      cases hg
      exact .store i a n v prev m hi hn hw

theorem accessLength_iff (len : BitVec 4) :
    accessLength len = true ↔ len.toNat = 1 ∨ len.toNat = 2 ∨ len.toNat = 4 := by
  revert len
  decide

/-- Which cell an ordinary write to a CSR changes. -/
theorem csrWrite_target (idx : Index) (r : CellRef) (h : lookupCsr idx = some r) (hro : isReadOnly r = false)
    (hh : isCounterHigh idx = false) :
    ∃ k, (idx, k) ∈ csrWriteTargets ∧ storageOf r = .csr k := by
  obtain ⟨row, hrow, rfl, rfl⟩ := lookupCsr_cases idx r h
  revert row
  decide

/-- Which cell a backdoor write to a CSR changes. -/
theorem csrBackdoor_target (idx : Index) (r : CellRef) (h : lookupCsr idx = some r) :
    ∃ k, (idx, k) ∈ csrBackdoorTargets ∧ storageOf r = .csr k := by
  obtain ⟨row, hrow, rfl, rfl⟩ := lookupCsr_cases idx r h
  revert row
  decide

theorem ended_cellSet {i : Instr} {s : State} (r : CellRef) (v : Word64) (h : exec i s = respondAccess (cellSet s r v))
    (hw : mayWrite i (storageOf r)) : ∃ u r g, Ended i s u r g := by
  obtain ⟨w, hs⟩ := cellSet_state s r v
  exact ended_respond _ _ _ _ h (by rw [hs]; exact .value i _ w hw)

theorem ended_cellSetBackdoor {i : Instr} {s : State} (r : CellRef) (v : Word64)
    (h : exec i s = respondAccess (cellSetBackdoor s r v))
    (hw : mayWrite i (storageOf r)) : ∃ u r g, Ended i s u r g := by
  obtain ⟨w, hs⟩ := cellSetBackdoor_state s r v
  exact ended_respond _ _ _ _ h (by rw [hs]; exact .value i _ w hw)

theorem ended_set {i : Instr} {s : State} (len : BitVec 4) (a : Addr) (v : Word32)
    (hi : storeOf i = some (a, len.toNat, v)) (h : exec i s = execSet len a v s) : ∃ u r g, Ended i s u r g := by
  simp only [execSet] at h
  split at h
  · next hl => exact ended_store _ _ _ hi ((accessLength_iff len).1 hl) h
  · exact ended_raise _ _ h

theorem ended_get {i : Instr} {s : State} (len : BitVec 4) (a : Addr) (h : exec i s = execGet len a s) :
    ∃ u r g, Ended i s u r g := by
  simp only [execGet] at h
  split at h
  · exact ended_load _ _ h
  · exact ended_raise _ _ h

theorem ended_obsadd {i : Instr} {s : State} (o : ObserverId) (a b : Addr)
    (hi : i = .obsadd o a b ∨ (i = .obsadd1 o a ∧ b = a)) (h : exec i s = execObsadd o a b s) :
    ∃ u r g, Ended i s u r g := by
  simp only [execObsadd] at h
  split at h
  · exact ended_raise _ _ h
  · next h₁ =>
    split at h
    · exact ended_raise _ _ h
    · next h₂ =>
      refine ended_respond _ _ _ _ h (.obsadd i o a b hi ?_)
      simp only [MemObserver.legal, BitVec.le_def, BitVec.lt_def] at *
      simp only [Bool.and_eq_true, decide_eq_true_eq, Bool.not_eq_true', Bool.and_eq_false_imp, decide_eq_false_iff_not]
      omega

/-- Every command answers a next state, with one of the listed effects (60_exceptions.md R272, R278). -/
theorem exec_effect (i : Instr) (s : State) : ∃ u r g, Ended i s u r g := by
  cases i with
  | xread idx => exact ended_onCell rfl fun r _ h => ended_respond _ _ _ _ h (.keep _)
  | xreadq idx => exact ended_onCell rfl fun r _ h => ended_respond _ _ _ _ h (.keep _)
  | xwrite idx data =>
    refine ended_onCell rfl fun r hr h => ?_
    obtain ⟨hi, rfl⟩ := lookupX_cases idx r hr
    split at h
    · exact ended_respond _ _ _ _ h (.keep _)
    · next hne =>
      refine ended_cellSet _ _ h ⟨rfl, fun h0 => hne (BitVec.eq_of_toNat_eq ?_)⟩
      simpa using congrArg Fin.val h0
  | xwriteb idx data =>
    refine ended_onCell rfl fun r hr h => ?_
    obtain ⟨hi, rfl⟩ := lookupX_cases idx r hr
    split at h
    · exact ended_respond _ _ _ _ h (.keep _)
    · next hne =>
      refine ended_cellSetBackdoor _ _ h ⟨rfl, fun h0 => hne (BitVec.eq_of_toNat_eq ?_)⟩
      simpa using congrArg Fin.val h0
  | xreset => exact ended_respond _ _ _ _ rfl .xreset
  | xobsadd o => exact ended_respond _ _ _ _ rfl (.xobsadd o)
  | xobsdel o => exact ended_respond _ _ _ _ rfl (.xobsdel o)
  | pcreadq => exact ended_respond _ _ _ _ rfl (.keep _)
  | pcread => exact ended_respond _ _ _ _ rfl (.keep _)
  | pcset data => exact ended_cellSet _ _ rfl trivial
  | pcsetb data => exact ended_cellSetBackdoor _ _ rfl trivial
  | pcinc => exact ended_cellSet _ _ rfl trivial
  | pcinita data => exact ended_cellSet _ _ rfl trivial
  | pcinitm d a =>
    have h : exec (.pcinitm d a) s = execPcinitm d a s := rfl
    simp only [execPcinitm] at h
    split at h
    · exact ended_cellSet _ _ h trivial
    · exact ended_cellSet _ _ h trivial
  | pcobsadd o => exact ended_respond _ _ _ _ rfl (.pcobsadd o)
  | pcobsdel o => exact ended_respond _ _ _ _ rfl (.pcobsdel o)
  | fread32 idx => exact ended_onCell rfl fun r _ h => ended_respond _ _ _ _ h (.keep _)
  | fread64 idx => exact ended_onCell rfl fun r _ h => ended_respond _ _ _ _ h (.keep _)
  | freadq idx => exact ended_onCell rfl fun r _ h => ended_respond _ _ _ _ h (.keep _)
  | fwrite32 idx w =>
    refine ended_onCell rfl fun r hr h => ?_
    obtain ⟨hi, rfl⟩ := lookupF_cases idx r hr
    exact ended_cellSet _ _ h rfl
  | fwrite64 idx data =>
    refine ended_onCell rfl fun r hr h => ?_
    obtain ⟨hi, rfl⟩ := lookupF_cases idx r hr
    exact ended_cellSet _ _ h rfl
  | fwriteb idx data =>
    refine ended_onCell rfl fun r hr h => ?_
    obtain ⟨hi, rfl⟩ := lookupF_cases idx r hr
    exact ended_cellSetBackdoor _ _ h rfl
  | freset => exact ended_respond _ _ _ _ rfl .freset
  | fobsadd o => exact ended_respond _ _ _ _ rfl (.fobsadd o)
  | fobsdel o => exact ended_respond _ _ _ _ rfl (.fobsdel o)
  | csrread idx => exact ended_onCell rfl fun r _ h => ended_respond _ _ _ _ h (.keep _)
  | csrreadq idx => exact ended_onCell rfl fun r _ h => ended_respond _ _ _ _ h (.keep _)
  | csrwrite idx data =>
    refine ended_onCell rfl fun r hr h => ?_
    split at h
    · exact ended_respond _ _ _ _ h (.keep _)
    · next hro =>
      split at h
      · exact ended_respond _ _ _ _ h (.keep _)
      · next hh =>
        obtain ⟨k, hk, e⟩ := csrWrite_target idx r hr (by simpa using hro) (by simpa using hh)
        exact ended_cellSet _ _ h (by rw [e]; exact hk)
  | csrwriteb idx data =>
    refine ended_onCell rfl fun r hr h => ?_
    obtain ⟨k, hk, e⟩ := csrBackdoor_target idx r hr
    exact ended_cellSetBackdoor _ _ h (by rw [e]; exact hk)
  | csrreset => exact ended_respond _ _ _ _ rfl .csrreset
  | csrobsadd o => exact ended_respond _ _ _ _ rfl (.csrobsadd o)
  | csrobsdel o => exact ended_respond _ _ _ _ rfl (.csrobsdel o)
  | csrpos idx =>
    have h : exec (.csrpos idx) s = execCsrpos idx s := rfl
    simp only [execCsrpos] at h
    split at h
    · exact ended_respond _ _ _ _ h (.keep _)
    · exact ended_respond _ _ _ _ h (.keep _)
  | get len a => exact ended_get len a rfl
  | set len a v => exact ended_set len a v rfl rfl
  | getword a =>
    have h : exec (.getword a) s = execGetword a s := rfl
    simp only [execGetword] at h
    split at h
    · exact ended_load _ _ h
    · exact ended_raise _ _ h
  | setword a v =>
    have h : exec (.setword a v) s = execSetword a v s := rfl
    simp only [execSetword] at h
    split at h
    · exact ended_store a 4 v rfl (by decide) h
    · exact ended_raise _ _ h
  | gethalf a =>
    have h : exec (.gethalf a) s = execGethalf a s := rfl
    simp only [execGethalf] at h
    split at h
    · exact ended_load _ _ h
    · exact ended_raise _ _ h
  | sethalf a v =>
    have h : exec (.sethalf a v) s = execSethalf a v s := rfl
    simp only [execSethalf] at h
    split at h
    · exact ended_store a 2 (v.setWidth 32) rfl (by decide) h
    · exact ended_raise _ _ h
  | getrawword a =>
    have h : exec (.getrawword a) s = execGetrawword a s := rfl
    simp only [execGetrawword] at h
    split at h
    · split at h
      · exact ended_raise _ _ h
      · exact ended_respond _ _ _ _ h (.keep _)
    · exact ended_raise _ _ h
  | setrawword a v =>
    have h : exec (.setrawword a v) s = execSetrawword a v s := rfl
    simp only [execSetrawword] at h
    split at h
    · split at h
      · exact ended_raise _ _ h
      · next m prev hm =>
        refine ended_respond _ _ _ _ h ?_
        rcases gatedWrite_cases s a 4 v with ⟨e, hg, -⟩ | ⟨S, r, -, -, hw, hg⟩
        · rw [hm] at hg; cases hg
        · rw [hm] at hg
          cases hg
          exact .store _ a 4 v prev m rfl (by decide) hw
    · exact ended_raise _ _ h
  | getrawwordornull a =>
    have h : exec (.getrawwordornull a) s = execGetrawwordornull a s := rfl
    simp only [execGetrawwordornull] at h
    split at h
    · split at h
      · exact ended_raise _ _ h
      · exact ended_respond _ _ _ _ h (.keep _)
      · exact ended_respond _ _ _ _ h (.keep _)
    · exact ended_raise _ _ h
  | fetch a =>
    have h : exec (.fetch a) s = execFetch a s := rfl
    simp only [execFetch] at h
    split at h
    · split at h
      · exact ended_respond _ _ _ _ h (.keep _)
      · exact ended_raise _ _ h
    · exact ended_raise _ _ h
  | install a v =>
    have h : exec (.install a v) s = execInstall a v s := rfl
    simp only [execInstall] at h
    split at h
    · split at h
      · next hc => exact ended_respond _ _ _ _ h (.install a v hc)
      · exact ended_raise _ _ h
    · exact ended_raise _ _ h
  | alloc size =>
    have h : exec (.alloc size) s = execAlloc size s := rfl
    simp only [execAlloc] at h
    split at h
    · exact ended_raise _ _ h
    · split at h
      · exact ended_raise _ _ h
      · next hle => exact ended_respond _ _ _ _ h (.alloc size (signedSize size).toNat (by omega))
  | firstnull base limit =>
    have h : exec (.firstnull base limit) s = execFirstnull base limit s := rfl
    simp only [execFirstnull] at h
    split at h
    · split at h
      · exact ended_raise _ _ h
      · exact ended_respond _ _ _ _ h (.keep _)
    · exact ended_raise _ _ h
  | memclear => exact ended_respond _ _ _ _ rfl .memclear
  | copyfrom k =>
    have h : exec (.copyfrom k) s = execCopyfrom k s := rfl
    simp only [execCopyfrom] at h
    split at h
    · exact ended_raise _ _ h
    · next src hk =>
      split at h
      · next hd => exact ended_respond _ _ _ _ h (.copyfrom k src hk hd)
      · exact ended_respond _ _ _ _ h (.keep _)
  | swapinst k =>
    have h : exec (.swapinst k) s = execSwapinst k s := rfl
    simp only [execSwapinst] at h
    split at h
    · exact ended_raise _ _ h
    · next target hk =>
      split at h
      · next hd => exact ended_respond _ _ _ _ h (.swapinst k target hk hd)
      · exact ended_raise _ _ h
  | obsadd o a b => exact ended_obsadd o a b (.inl rfl) rfl
  | obsdel o => exact ended_respond _ _ _ _ rfl (.obsdel o)
  | setconfig k =>
    have h : exec (.setconfig k) s = execSetconfig k s := rfl
    simp only [execSetconfig] at h
    split at h
    · exact ended_raise _ _ h
    · next c hk =>
      split at h
      · exact ended_respond _ _ _ _ h (.keep _)
      · next hne => exact ended_respond _ _ _ _ h (.setconfig k c hk hne)
  | reserve h len a =>
    have e : exec (.reserve h len a) s = execReserve h len a s := rfl
    simp only [execReserve] at e
    split at e
    · exact ended_raise _ _ e
    · next w hw =>
      split at e
      · exact ended_raise _ _ e
      · next hh =>
        split at e
        · exact ended_raise _ _ e
        · next ha =>
          exact ended_respond _ _ _ _ e (.reserve h len a w hw (by simpa [legalHart] using hh) (by omega))
  | unreserve h len a =>
    have e : exec (.unreserve h len a) s = execUnreserve h len a s := rfl
    simp only [execUnreserve] at e
    split at e
    · exact ended_raise _ _ e
    · next w hw =>
      split at e
      · exact ended_raise _ _ e
      · split at e
        · exact ended_raise _ _ e
        · split at e
          · exact ended_respond _ _ _ _ e (.unreserve h len a w hw)
          · exact ended_respond _ _ _ _ e (.keep _)
  | rsvreset => exact ended_respond _ _ _ _ rfl .rsvreset
  | getbyte a => exact ended_get 1 a rfl
  | setbyte a v => exact ended_set 1 a v rfl rfl
  | obsadd1 o a => exact ended_obsadd o a a (.inr ⟨rfl, rfl⟩) rfl

/-- The same, from a command that is known to answer t. -/
theorem effect_of_next {i : Instr} {s t : State} (h : exec i s = .next t) :
    ∃ u r g, t = u.answer r g ∧ Effect s i u ∧
      (r.status ≠ .ok → u = s ∧ g = [] ∧ ∃ a : Addr, r = errorResponse r.status a) := by
  obtain ⟨u, r, g, he⟩ := exec_effect i s
  rw [he.next] at h
  cases h
  exact ⟨u, r, g, rfl, he.effect, he.error⟩

end Sys2Proof.Machine
end

