-- ==== Sys2Proof/Laws/Encoding.lean ====
section
/-! SUPPORT. The laws of the command word: a word under a mask, field by field. -/

namespace Sys2Proof.Machine

/-- A word under a mask that leaves out `rsv`, field by field. -/
theorem and_pack (w : CommandWord) (op : BitVec 8) (len : BitVec 4) (idx : BitVec 12) (addr : Addr) (data : Word64) :
    w &&& packCommand op len idx addr data =
      packCommand (opField w &&& op) (lenField w &&& len) (idxField w &&& idx) (addrField w &&& addr)
        (dataField w &&& data) := by
  apply BitVec.eq_of_getLsbD_eq
  intro i hi
  simp only [BitVec.getLsbD_and, getLsbD_pack, opField, lenField, idxField, addrField, dataField,
    BitVec.getLsbD_extractLsb', hi]
  have h1 := fun h : 8 ≤ i - 120 => BitVec.getLsbD_of_ge op _ h
  have h2 := fun h : 4 ≤ i - 116 => BitVec.getLsbD_of_ge len _ h
  have h3 := fun h : 12 ≤ i - 104 => BitVec.getLsbD_of_ge idx _ h
  have h4 := fun h : 32 ≤ i - 64 => BitVec.getLsbD_of_ge addr _ h
  have h5 := fun h : 64 ≤ i => BitVec.getLsbD_of_ge data _ h
  by_cases a : i < 64
  · simp [a, show i < 120 by omega, show i < 116 by omega, show i < 104 by omega]
  by_cases b : i < 96
  · simp [a, show i < 120 by omega, show i < 116 by omega, show i < 104 by omega, h5 (by omega),
      show 64 + (i - 64) = i by omega, show i - 64 < 32 by omega]
  by_cases c : i < 104
  · simp [a, c, show i < 120 by omega, show i < 116 by omega, h5 (by omega), h4 (by omega)]
  by_cases d : i < 116
  · simp [a, c, d, show i < 120 by omega, h5 (by omega), h4 (by omega), show 104 + (i - 104) = i by omega,
      show i - 104 < 12 by omega]
  by_cases e : i < 120
  · simp [a, c, d, e, h5 (by omega), h4 (by omega), h3 (by omega), show 116 + (i - 116) = i by omega,
      show i - 116 < 4 by omega]
  · simp [a, c, d, e, h5 (by omega), h4 (by omega), h3 (by omega), h2 (by omega), show 120 + (i - 120) = i by omega,
      show i - 120 < 8 by omega]

/-- The used bits of each command as a command word of its own (30_encoding.md R107). -/
theorem usedBits_eq (i : Instr) : usedBits i = match i with
  | .xread _ | .xreadq _ | .xobsadd _ | .xobsdel _ | .pcobsadd _ | .pcobsdel _ | .fread32 _ | .fread64 _
  | .freadq _ | .fobsadd _ | .fobsdel _ | .csrread _ | .csrreadq _ | .csrobsadd _ | .csrobsdel _ | .csrpos _
  | .copyfrom _ | .swapinst _ | .obsdel _ | .setconfig _ => packCommand (.allOnes 8) 0 (.allOnes 12) 0 0
  | .xwrite _ _ | .xwriteb _ _ | .fwrite64 _ _ | .fwriteb _ _ | .csrwrite _ _ | .csrwriteb _ _ =>
    packCommand (.allOnes 8) 0 (.allOnes 12) 0 (.allOnes 64)
  | .xreset | .pcreadq | .pcread | .pcinc | .freset | .csrreset | .memclear | .rsvreset =>
    packCommand (.allOnes 8) 0 0 0 0
  | .pcset _ | .pcsetb _ | .pcinita _ => packCommand (.allOnes 8) 0 0 0 (.allOnes 64)
  | .pcinitm _ _ => packCommand (.allOnes 8) 0 0 0 0x1FFFFFFFF
  | .fwrite32 _ _ => packCommand (.allOnes 8) 0 (.allOnes 12) 0 0xFFFFFFFF
  | .get _ _ | .getbyte _ => packCommand (.allOnes 8) (.allOnes 4) 0 (.allOnes 32) 0
  | .set _ _ _ | .setbyte _ _ => packCommand (.allOnes 8) (.allOnes 4) 0 (.allOnes 32) 0xFFFFFFFF
  | .getword _ | .gethalf _ | .getrawword _ | .getrawwordornull _ | .fetch _ =>
    packCommand (.allOnes 8) 0 0 (.allOnes 32) 0
  | .setword _ _ | .setrawword _ _ | .install _ _ | .firstnull _ _ =>
    packCommand (.allOnes 8) 0 0 (.allOnes 32) 0xFFFFFFFF
  | .sethalf _ _ => packCommand (.allOnes 8) 0 0 (.allOnes 32) 0xFFFF
  | .alloc _ => packCommand (.allOnes 8) 0 0 0 0xFFFFFFFF
  | .obsadd _ _ _ | .obsadd1 _ _ => packCommand (.allOnes 8) 0 (.allOnes 12) (.allOnes 32) 0xFFFFFFFF
  | .reserve _ _ _ | .unreserve _ _ _ => packCommand (.allOnes 8) (.allOnes 4) (.allOnes 12) (.allOnes 32) 0 := by
  cases i <;> (simp only [usedBits]; decide)

/-- The low 32 bits of a data field. -/
theorem and_low32 (v : Word64) : v &&& 0xFFFFFFFF#64 = (v.setWidth 32).setWidth 64 := by
  have hm : ∀ i < 64, (0xFFFFFFFF#64).getLsbD i = decide (i < 32) := by decide
  apply BitVec.eq_of_getLsbD_eq
  intro i hi
  simp only [BitVec.getLsbD_and, hm i hi, BitVec.getLsbD_setWidth, hi]
  simp [Bool.and_comm]

/-- The low 16 bits of a data field. -/
theorem and_low16 (v : Word64) : v &&& 0xFFFF#64 = (v.setWidth 16).setWidth 64 := by
  have hm : ∀ i < 64, (0xFFFF#64).getLsbD i = decide (i < 16) := by decide
  apply BitVec.eq_of_getLsbD_eq
  intro i hi
  simp only [BitVec.getLsbD_and, hm i hi, BitVec.getLsbD_setWidth, hi]
  simp [Bool.and_comm]

/-- PCINITM's operand as 33 bits of a data field (30_encoding.md R108). -/
theorem and_main (v : Word64) : v &&& 0x1FFFFFFFF#64 = mainOperand v[32] (v.setWidth 32) := by
  have hm : ∀ i < 64, (0x1FFFFFFFF#64).getLsbD i = decide (i ≤ 32) := by decide
  apply BitVec.eq_of_getLsbD_eq
  intro i hi
  simp only [mainOperand, BitVec.getLsbD_and, hm i hi, BitVec.getLsbD_setWidth, hi, BitVec.getLsbD_or,
    BitVec.getLsbD_shiftLeft]
  by_cases h : i < 32
  · simp [h, show i ≤ 32 by omega]
  · by_cases h2 : i = 32
    · subst h2; simp
    · simp [h, show ¬ i ≤ 32 by omega]
      intro _ h0; omega

/-- data[31:0] is the low half of data. -/
theorem data32Field_eq (w : CommandWord) : data32Field w = (dataField w).setWidth 32 := by
  apply BitVec.eq_of_getLsbD_eq
  intro i hi
  simp [data32Field, dataField, hi, show i < 64 by omega]

/-- data[15:0] is part of data. -/
theorem data16Field_eq (w : CommandWord) : data16Field w = (dataField w).setWidth 16 := by
  apply BitVec.eq_of_getLsbD_eq
  intro i hi
  simp [data16Field, dataField, hi, show i < 64 by omega]

/-- data[32] is part of data. -/
theorem mainDefinedField_eq (w : CommandWord) : mainDefinedField w = (dataField w)[32] := by
  simp [mainDefinedField, dataField]

end Sys2Proof.Machine
end

