-- ==== Sys2Proof/Laws/Invariant.lean ====
section
/-! SUPPORT. What the invariant gives, and what keeps it: one lemma for a new instance and one for new cells. -/

namespace Sys2Proof.Machine

/-- The configuration after reset is CFGS[0] (10_state.md R49). -/
theorem resetOf_config (p : Params) : (State.resetOf p).config = p.cfgs.headD .nowhere := by
  simp only [State.config, State.resetOf]
  cases p.cfgs <;> rfl

/-- A valid choice of parameters has valid configurations (00_scope.md R7). -/
theorem params_valid_mem (p : Params) (h : p.valid = true) (c : MemConfig) (hc : c ∈ p.cfgs) : c.valid = true := by
  simp only [Params.valid, Bool.and_eq_true, decide_eq_true_eq, List.all_eq_true, and_assoc] at h
  exact h.2.2.2.2.1 c hc

/-- The current configuration is valid. -/
theorem inv_valid {s : State} (h : s.Inv) : s.config.valid = true := by
  apply params_valid_mem s.params h.params
  have := h.cur
  simp [State.config, this, State.params]

/-- The active instance satisfies the invariant of instances. -/
theorem inv_memory {s : State} (h : s.Inv) : s.memory.Inv := h.insts _ (s.memory_mem h.active)

/-- A new active instance with the same dims keeps the invariant. -/
theorem inv_setMemory {s : State} (h : s.Inv) (m : Memory) (hm : m.Inv) (hd : m.dims = s.memory.dims) :
    (s.setMemory m).Inv := by
  have hact := h.active
  have hmem : (s.setMemory m).memory = m := s.setMemory_memory m hact
  refine {
    params := by simpa using h.params, cur := h.cur, active := by simpa using h.active, insts := ?_, dims := ?_,
    x0 := h.x0, resets := ?_, observers := ?_, rsv := h.rsv }
  · intro m' hm'
    simp only [State.setMemory] at hm'
    rcases List.mem_or_eq_of_mem_set hm' with h' | rfl
    · exact h.insts _ h'
    · exact hm
  · rw [hmem, hd, h.dims]; rfl
  · intro r; have := h.resets r; simpa using this
  · intro r; have := h.observers r; simpa using this

/-- New cells that keep x0, every reset value and the form of the sets of observers keep the invariant. -/
theorem inv_cells {s u : State} (h : s.Inv) (hp : u.params = s.params) (h₁ : u.cur = s.cur) (h₂ : u.active = s.active)
    (h₃ : u.insts = s.insts) (h₄ : u.rsv = s.rsv) (hc : u.cfgs = s.cfgs) (hx : u.x[0].value = 0)
    (hr : ∀ r, (u.cell r).reset = (s.cell r).reset) (ho : ∀ r, rising BitVec.toNat (observersOf u r) = true) :
    u.Inv := by
  have hconf : u.config = s.config := by simp [State.config, h₁, hc]
  have hmem : u.memory = s.memory := by simp [State.memory, h₂, h₃]
  exact {
    params := by rw [hp]; exact h.params
    cur := by rw [h₁, hc]; exact h.cur
    active := by rw [h₂, h₃]; exact h.active
    insts := by rw [h₃]; exact h.insts
    dims := by rw [hconf, hmem]; exact h.dims
    x0 := hx
    resets := fun r => by rw [hr, hconf]; exact h.resets r
    observers := ho
    rsv := by rw [h₄]; exact h.rsv }

end Sys2Proof.Machine
end

