-- ==== Sys2Proof/Laws/PerInstr.lean ====
section
/-! SUPPORT. The statements made per instruction. -/

namespace Sys2Proof.Laws

open Sys2Proof Sys2Proof.Machine

/-- The field `rsv` of a packed command is 0 (30_encoding.md R100, R101). -/
theorem rsvField_pack (op : BitVec 8) (len : BitVec 4) (idx : BitVec 12) (addr : Addr) (data : Word64) :
    (packCommand op len idx addr data).extractLsb' 96 8 = 0 := by
  apply BitVec.eq_of_getLsbD_eq
  intro i hi
  have h₄ : addr.getLsbD (96 + i - 64) = false := BitVec.getLsbD_of_ge _ _ (by omega)
  have h₅ : data.getLsbD (96 + i) = false := BitVec.getLsbD_of_ge _ _ (by omega)
  simp only [BitVec.getLsbD_extractLsb', hi, getLsbD_pack, h₄, h₅, show 96 + i < 120 by omega,
    show 96 + i < 116 by omega, show 96 + i < 104 by omega]
  simp

/-- The encoder writes the field `rsv` of a command as 0 (30_encoding.md R100, R101). -/
def EncodeShape.Statement (i : Instr) : Prop := (encode i).extractLsb' 96 8 = 0

theorem EncodeShape.xread : ∀ a, EncodeShape.Statement (.xread a) := fun _ => rsvField_pack _ _ _ _ _
theorem EncodeShape.xreadq : ∀ a, EncodeShape.Statement (.xreadq a) := fun _ => rsvField_pack _ _ _ _ _
theorem EncodeShape.xwrite : ∀ a b, EncodeShape.Statement (.xwrite a b) := fun _ _ => rsvField_pack _ _ _ _ _
theorem EncodeShape.xwriteb : ∀ a b, EncodeShape.Statement (.xwriteb a b) := fun _ _ => rsvField_pack _ _ _ _ _
theorem EncodeShape.xreset : EncodeShape.Statement .xreset := rsvField_pack _ _ _ _ _
theorem EncodeShape.xobsadd : ∀ a, EncodeShape.Statement (.xobsadd a) := fun _ => rsvField_pack _ _ _ _ _
theorem EncodeShape.xobsdel : ∀ a, EncodeShape.Statement (.xobsdel a) := fun _ => rsvField_pack _ _ _ _ _
theorem EncodeShape.pcreadq : EncodeShape.Statement .pcreadq := rsvField_pack _ _ _ _ _
theorem EncodeShape.pcread : EncodeShape.Statement .pcread := rsvField_pack _ _ _ _ _
theorem EncodeShape.pcset : ∀ a, EncodeShape.Statement (.pcset a) := fun _ => rsvField_pack _ _ _ _ _
theorem EncodeShape.pcsetb : ∀ a, EncodeShape.Statement (.pcsetb a) := fun _ => rsvField_pack _ _ _ _ _
theorem EncodeShape.pcinc : EncodeShape.Statement .pcinc := rsvField_pack _ _ _ _ _
theorem EncodeShape.pcinita : ∀ a, EncodeShape.Statement (.pcinita a) := fun _ => rsvField_pack _ _ _ _ _
theorem EncodeShape.pcinitm : ∀ a b, EncodeShape.Statement (.pcinitm a b) := fun _ _ => rsvField_pack _ _ _ _ _
theorem EncodeShape.pcobsadd : ∀ a, EncodeShape.Statement (.pcobsadd a) := fun _ => rsvField_pack _ _ _ _ _
theorem EncodeShape.pcobsdel : ∀ a, EncodeShape.Statement (.pcobsdel a) := fun _ => rsvField_pack _ _ _ _ _
theorem EncodeShape.fread32 : ∀ a, EncodeShape.Statement (.fread32 a) := fun _ => rsvField_pack _ _ _ _ _
theorem EncodeShape.fread64 : ∀ a, EncodeShape.Statement (.fread64 a) := fun _ => rsvField_pack _ _ _ _ _
theorem EncodeShape.freadq : ∀ a, EncodeShape.Statement (.freadq a) := fun _ => rsvField_pack _ _ _ _ _
theorem EncodeShape.fwrite32 : ∀ a b, EncodeShape.Statement (.fwrite32 a b) := fun _ _ => rsvField_pack _ _ _ _ _
theorem EncodeShape.fwrite64 : ∀ a b, EncodeShape.Statement (.fwrite64 a b) := fun _ _ => rsvField_pack _ _ _ _ _
theorem EncodeShape.fwriteb : ∀ a b, EncodeShape.Statement (.fwriteb a b) := fun _ _ => rsvField_pack _ _ _ _ _
theorem EncodeShape.freset : EncodeShape.Statement .freset := rsvField_pack _ _ _ _ _
theorem EncodeShape.fobsadd : ∀ a, EncodeShape.Statement (.fobsadd a) := fun _ => rsvField_pack _ _ _ _ _
theorem EncodeShape.fobsdel : ∀ a, EncodeShape.Statement (.fobsdel a) := fun _ => rsvField_pack _ _ _ _ _
theorem EncodeShape.csrread : ∀ a, EncodeShape.Statement (.csrread a) := fun _ => rsvField_pack _ _ _ _ _
theorem EncodeShape.csrreadq : ∀ a, EncodeShape.Statement (.csrreadq a) := fun _ => rsvField_pack _ _ _ _ _
theorem EncodeShape.csrwrite : ∀ a b, EncodeShape.Statement (.csrwrite a b) := fun _ _ => rsvField_pack _ _ _ _ _
theorem EncodeShape.csrwriteb : ∀ a b, EncodeShape.Statement (.csrwriteb a b) := fun _ _ => rsvField_pack _ _ _ _ _
theorem EncodeShape.csrreset : EncodeShape.Statement .csrreset := rsvField_pack _ _ _ _ _
theorem EncodeShape.csrobsadd : ∀ a, EncodeShape.Statement (.csrobsadd a) := fun _ => rsvField_pack _ _ _ _ _
theorem EncodeShape.csrobsdel : ∀ a, EncodeShape.Statement (.csrobsdel a) := fun _ => rsvField_pack _ _ _ _ _
theorem EncodeShape.csrpos : ∀ a, EncodeShape.Statement (.csrpos a) := fun _ => rsvField_pack _ _ _ _ _
theorem EncodeShape.get : ∀ a b, EncodeShape.Statement (.get a b) := fun _ _ => rsvField_pack _ _ _ _ _
theorem EncodeShape.set : ∀ a b c, EncodeShape.Statement (.set a b c) := fun _ _ _ => rsvField_pack _ _ _ _ _
theorem EncodeShape.getword : ∀ a, EncodeShape.Statement (.getword a) := fun _ => rsvField_pack _ _ _ _ _
theorem EncodeShape.setword : ∀ a b, EncodeShape.Statement (.setword a b) := fun _ _ => rsvField_pack _ _ _ _ _
theorem EncodeShape.gethalf : ∀ a, EncodeShape.Statement (.gethalf a) := fun _ => rsvField_pack _ _ _ _ _
theorem EncodeShape.sethalf : ∀ a b, EncodeShape.Statement (.sethalf a b) := fun _ _ => rsvField_pack _ _ _ _ _
theorem EncodeShape.getrawword : ∀ a, EncodeShape.Statement (.getrawword a) := fun _ => rsvField_pack _ _ _ _ _
theorem EncodeShape.setrawword : ∀ a b, EncodeShape.Statement (.setrawword a b) := fun _ _ => rsvField_pack _ _ _ _ _
theorem EncodeShape.getrawwordornull : ∀ a, EncodeShape.Statement (.getrawwordornull a) := fun _ => rsvField_pack _ _ _ _ _
theorem EncodeShape.fetch : ∀ a, EncodeShape.Statement (.fetch a) := fun _ => rsvField_pack _ _ _ _ _
theorem EncodeShape.install : ∀ a b, EncodeShape.Statement (.install a b) := fun _ _ => rsvField_pack _ _ _ _ _
theorem EncodeShape.alloc : ∀ a, EncodeShape.Statement (.alloc a) := fun _ => rsvField_pack _ _ _ _ _
theorem EncodeShape.firstnull : ∀ a b, EncodeShape.Statement (.firstnull a b) := fun _ _ => rsvField_pack _ _ _ _ _
theorem EncodeShape.memclear : EncodeShape.Statement .memclear := rsvField_pack _ _ _ _ _
theorem EncodeShape.copyfrom : ∀ a, EncodeShape.Statement (.copyfrom a) := fun _ => rsvField_pack _ _ _ _ _
theorem EncodeShape.swapinst : ∀ a, EncodeShape.Statement (.swapinst a) := fun _ => rsvField_pack _ _ _ _ _
theorem EncodeShape.obsadd : ∀ a b c, EncodeShape.Statement (.obsadd a b c) := fun _ _ _ => rsvField_pack _ _ _ _ _
theorem EncodeShape.obsdel : ∀ a, EncodeShape.Statement (.obsdel a) := fun _ => rsvField_pack _ _ _ _ _
theorem EncodeShape.setconfig : ∀ a, EncodeShape.Statement (.setconfig a) := fun _ => rsvField_pack _ _ _ _ _
theorem EncodeShape.reserve : ∀ a b c, EncodeShape.Statement (.reserve a b c) := fun _ _ _ => rsvField_pack _ _ _ _ _
theorem EncodeShape.unreserve : ∀ a b c, EncodeShape.Statement (.unreserve a b c) := fun _ _ _ => rsvField_pack _ _ _ _ _
theorem EncodeShape.rsvreset : EncodeShape.Statement .rsvreset := rsvField_pack _ _ _ _ _
theorem EncodeShape.getbyte : ∀ a, EncodeShape.Statement (.getbyte a) := fun _ => rsvField_pack _ _ _ _ _
theorem EncodeShape.setbyte : ∀ a b, EncodeShape.Statement (.setbyte a b) := fun _ _ => rsvField_pack _ _ _ _ _
theorem EncodeShape.obsadd1 : ∀ a b, EncodeShape.Statement (.obsadd1 a b) := fun _ _ => rsvField_pack _ _ _ _ _

end Sys2Proof.Laws
end

