-- ==== Sys2Proof/Laws/Reservations.lean ====
section
/-! SUPPORT. The laws of the reservation tables (46_reservation.md): what stays legal, and what is in a table after an
operation on it. -/

namespace Sys2Proof.Machine

theorem reservationsLegal_iff (t : List Reservation) :
    reservationsLegal t = true ↔
      t.length ≤ 8 ∧ t.Nodup ∧ ∀ e ∈ t, e.address.toNat % widthBytes e.width = 0 := by
  simp only [reservationsLegal, Bool.and_eq_true, decide_eq_true_eq, List.all_eq_true, beq_iff_eq, and_assoc]
  rfl

theorem reservationsLegal_nil : reservationsLegal [] = true := by decide

/-- Everything RESERVE's insertion can do: keep the table, or append the entry to the table or to its tail. -/
theorem addReservation_cases (e : Reservation) (t : List Reservation) :
    (e ∈ t ∧ addReservation e t = t) ∨
    (e ∉ t ∧ addReservation e t = (if t.length = 8 then t.tail else t) ++ [e]) := by
  by_cases h : e ∈ t
  · exact .inl ⟨h, by simp [addReservation, h]⟩
  · refine .inr ⟨h, ?_⟩
    have hc : t.contains e = false := by simpa using h
    rw [addReservation, hc, if_neg Bool.false_ne_true]
    by_cases hl : t.length = 8
    · rw [if_pos (show t.length = reservationCapacity from hl), if_pos hl]
    · rw [if_neg (show ¬ t.length = reservationCapacity from hl), if_neg hl]

/-- A new entry aligned to its width keeps a table legal (10_state.md R44). -/
theorem addReservation_legal (e : Reservation) (t : List Reservation) (h : reservationsLegal t = true)
    (he : e.address.toNat % widthBytes e.width = 0) : reservationsLegal (addReservation e t) = true := by
  rcases addReservation_cases e t with ⟨-, h'⟩ | ⟨hn, h'⟩
  · rwa [h']
  · rw [h']
    obtain ⟨h₁, h₂, h₃⟩ := (reservationsLegal_iff t).1 h
    have hsub : (if t.length = 8 then t.tail else t).Sublist t := by
      split
      · exact List.tail_sublist t
      · exact List.Sublist.refl t
    have hlen : (if t.length = 8 then t.tail else t).length ≤ 7 := by
      split
      · rw [List.length_tail]; omega
      · omega
    refine (reservationsLegal_iff _).2 ⟨?_, ?_, ?_⟩
    · rw [List.length_append, List.length_singleton]
      omega
    · refine List.nodup_append.2 ⟨h₂.sublist hsub, by simp, ?_⟩
      rintro a ha b hb rfl
      rw [List.mem_singleton] at hb
      exact hn (hb ▸ hsub.subset ha)
    · intro x hx
      rcases List.mem_append.1 hx with hx | hx
      · exact h₃ x (hsub.subset hx)
      · rw [List.mem_singleton.1 hx]
        exact he

/-- The entry is in the table after RESERVE's insertion (46_reservation.md R252). -/
theorem mem_addReservation (e : Reservation) (t : List Reservation) : e ∈ addReservation e t := by
  rcases addReservation_cases e t with ⟨h, h'⟩ | ⟨-, h'⟩ <;> rw [h']
  · exact h
  · simp

/-- RESERVE's insertion keeps a table within its capacity. -/
theorem length_addReservation (e : Reservation) (t : List Reservation) (h : t.length ≤ 8) :
    (addReservation e t).length ≤ 8 := by
  rcases addReservation_cases e t with ⟨-, h'⟩ | ⟨-, h'⟩
  · rwa [h']
  · rw [h', List.length_append, List.length_singleton]
    split
    · rw [List.length_tail]; omega
    · omega

/-- Removing entries keeps a table legal. -/
theorem reservationsLegal_filter (p : Reservation → Bool) (t : List Reservation) (h : reservationsLegal t = true) :
    reservationsLegal (t.filter p) = true := by
  obtain ⟨h₁, h₂, h₃⟩ := (reservationsLegal_iff t).1 h
  exact (reservationsLegal_iff _).2
    ⟨le_trans (List.length_filter_le _ _) h₁, h₂.filter _, fun e he => h₃ e (List.mem_filter.1 he).1⟩

/-- An entry matches a request for itself. -/
theorem reservationMatches_self (a : Addr) (w : Width) : reservationMatches ⟨a, w⟩ a w = true := by
  simp [reservationMatches]

/-- No matching entry is left after the removal of UNRESERVE (46_reservation.md R253). -/
theorem any_filter_not (p : Reservation → Bool) (t : List Reservation) :
    (t.filter fun e => !p e).any p = false := by
  simp

/-- The legal widths are 4 and 8 (30_encoding.md R110). -/
theorem widthOf_cases (len : BitVec 4) (w : Width) (h : widthOf len = some w) :
    (len = 4 ∧ w = .word) ∨ (len = 8 ∧ w = .doubleword) := by
  simp only [widthOf] at h
  split at h
  · exact .inl ⟨‹_›, by simpa using h.symm⟩
  · split at h
    · exact .inr ⟨‹_›, by simpa using h.symm⟩
    · cases h

/-- The bytes a width covers are its operand (46_reservation.md R250). -/
theorem widthBytes_of_widthOf (len : BitVec 4) (w : Width) (h : widthOf len = some w) : widthBytes w = len.toNat := by
  rcases widthOf_cases len w h with ⟨rfl, rfl⟩ | ⟨rfl, rfl⟩ <;> rfl

/-- The doubleword of an address (46_reservation.md R251). -/
theorem toNat_doubleword (a : Addr) : (a &&& (0xFFFFFFF8 : Addr)).toNat = a.toNat / 8 * 8 := by
  have h : a &&& (0xFFFFFFF8 : Addr) = (a >>> 3) <<< 3 := by
    have hm : ∀ i < 32, (0xFFFFFFF8 : Addr).getLsbD i = decide (3 ≤ i) := by decide
    apply BitVec.eq_of_getLsbD_eq
    intro i hi
    rw [BitVec.getLsbD_and, hm i hi, BitVec.getLsbD_shiftLeft, BitVec.getLsbD_ushiftRight]
    by_cases h : 3 ≤ i
    · simp [h, show ¬ i < 3 by omega, hi, show 3 + (i - 3) = i by omega]
    · simp [h, show i < 3 by omega]
  rw [h, BitVec.toNat_shiftLeft, BitVec.toNat_ushiftRight]
  have := a.isLt
  simp only [Nat.shiftLeft_eq, Nat.shiftRight_eq_div_pow]
  omega

theorem legalHart_eq_false (s : State) (h : Index) : legalHart s h = false ↔ s.rsv.length ≤ h.toNat := by
  simp [legalHart]

theorem reservations_eq (s : State) (h : Index) (hh : h.toNat < s.rsv.length) :
    s.reservations h.toNat = s.rsv[h.toNat] := by
  simp [State.reservations, hh]

end Sys2Proof.Machine
end

