-- ==== Sys2Proof/Laws/Step.lean ====
section
/-! SUPPORT. Everything one step can do, said once. -/

namespace Sys2Proof.Machine

/-- A step does nothing, restores the reset state, or carries out one command on the state with its inputs sampled: it
runs the decoded command, or answers ILLEGAL_CMD to a reserved opcode. -/
theorem step_cases {s t : State} (h : step s = .next t) :
    (s.pending = [] ∧ t = s) ∨
    (∃ rest, s.pending = .rst :: rest ∧ t = { State.resetOf s.params with pending := rest }) ∨
    ∃ c rest s', s.pending = .command c :: rest ∧
      s' = { s with smcEn := c.smcEn, backstepEn := c.backstepEn, pending := rest } ∧
      ((∃ i, decode c.word = .ok i ∧ exec i s' = .next t) ∨
       ∃ e, decode c.word = .error e ∧ t = s'.answer (errorResponse .illegalCmd 0) []) := by
  simp only [step] at h
  cases hp : s.pending with
  | nil =>
    simp only [takeInput, hp] at h
    cases h
    exact .inl ⟨rfl, rfl⟩
  | cons a rest =>
    cases a with
    | rst =>
      simp only [takeInput, hp] at h
      cases h
      exact .inr (.inl ⟨rest, rfl, rfl⟩)
    | command c =>
      simp only [takeInput, hp] at h
      refine .inr (.inr ⟨c, rest, _, rfl, rfl, ?_⟩)
      cases hd : decode c.word with
      | ok i =>
        rw [hd] at h
        exact .inl ⟨i, rfl, h⟩
      | error e =>
        rw [hd] at h
        cases h
        exact .inr ⟨e, rfl, rfl⟩

/-- What a property must satisfy to hold after every step: the inputs and the ports do not matter to it, the reset states
have it, and every effect keeps it. -/
theorem step_keeps (P : State → Prop) (ports : ∀ (s : State) (r : Response) (g : List (List Notice)), P s → P (s.answer r g))
    (inputs : ∀ (s : State) a b l, P s → P { s with smcEn := a, backstepEn := b, pending := l })
    (reset : ∀ s, P s → P (State.resetOf s.params)) (effect : ∀ i s u, P s → Effect s i u → P u) {s t : State} (hs : P s)
    (h : step s = .next t) : P t := by
  rcases step_cases h with ⟨-, rfl⟩ | ⟨rest, -, rfl⟩ | ⟨c, rest, s', -, rfl, ⟨i, -, h⟩ | ⟨e, -, rfl⟩⟩
  · exact hs
  · exact inputs _ _ _ _ (reset s hs)
  · obtain ⟨u, r, g, rfl, he, -⟩ := effect_of_next h
    exact ports _ _ _ (effect i _ _ (inputs _ _ _ _ hs) he)
  · exact ports _ _ _ (inputs _ _ _ _ hs)

end Sys2Proof.Machine
end

