-- ==== Sys2Proof/Tests/Slice0.lean ====
section
/-! SUPPORT. The model's own tests: the well-formedness smoke, decoding of words written out from the spec, single steps
with the results the spec's rules give, and for each statement with hypotheses a state and operands that meet them. -/

namespace Sys2Proof.Tests

open Sys2Proof Sys2Proof.Machine

/-! ## Well-formedness -/

/-- 30_encoding.md R110: a length of GET or SET is 1, 2 or 4. -/
theorem test_get_length_3_is_ill_formed : (Instr.get 3 0x10010000).wellFormed = false := by decide
theorem test_set_length_0_is_ill_formed : (Instr.set 0 0x10010000 7).wellFormed = false := by decide
/-- 30_encoding.md R110: a length of RESERVE or UNRESERVE is 4 or 8. -/
theorem test_reserve_length_2_is_ill_formed : (Instr.reserve 1 2 0x10010008).wellFormed = false := by decide
theorem test_unreserve_length_15_is_ill_formed : (Instr.unreserve 1 15 0x10010008).wellFormed = false := by decide
theorem test_legal_lengths_are_well_formed :
    (Instr.get 4 3).wellFormed = true ∧ (Instr.set 1 3 7).wellFormed = true ∧
    (Instr.reserve 0xFFF 8 3).wellFormed = true ∧ (Instr.unreserve 0xFFF 4 3).wellFormed = true := by decide

/-! ## Decoding -/

/-- Every command of the integer file and the pc, by a word written out from 30_encoding.md R100, R107 and R108:
first with its unused fields 0, then with every unused bit 1, which R101 says is the same command. -/
theorem test_decode_integer : ∀ p ∈ ([
    (0x1008A500_00000000_00000000_00000000, 0x10F8A5FF_FFFFFFFF_FFFFFFFF_FFFFFFFF, .xread 0x8A5),
    (0x1108A500_00000000_00000000_00000000, 0x11F8A5FF_FFFFFFFF_FFFFFFFF_FFFFFFFF, .xreadq 0x8A5),
    (0x1208A500_00000000_91223344_55667788, 0x12F8A5FF_FFFFFFFF_91223344_55667788, .xwrite 0x8A5 0x9122334455667788),
    (0x1308A500_00000000_91223344_55667788, 0x13F8A5FF_FFFFFFFF_91223344_55667788, .xwriteb 0x8A5 0x9122334455667788),
    (0x14000000_00000000_00000000_00000000, 0x14FFFFFF_FFFFFFFF_FFFFFFFF_FFFFFFFF, .xreset),
    (0x1508A500_00000000_00000000_00000000, 0x15F8A5FF_FFFFFFFF_FFFFFFFF_FFFFFFFF, .xobsadd 0x8A5),
    (0x1608A500_00000000_00000000_00000000, 0x16F8A5FF_FFFFFFFF_FFFFFFFF_FFFFFFFF, .xobsdel 0x8A5),
    (0x17000000_00000000_00000000_00000000, 0x17FFFFFF_FFFFFFFF_FFFFFFFF_FFFFFFFF, .pcreadq),
    (0x18000000_00000000_00000000_00000000, 0x18FFFFFF_FFFFFFFF_FFFFFFFF_FFFFFFFF, .pcread),
    (0x19000000_00000000_91223344_55667788, 0x19FFFFFF_FFFFFFFF_91223344_55667788, .pcset 0x9122334455667788),
    (0x1A000000_00000000_91223344_55667788, 0x1AFFFFFF_FFFFFFFF_91223344_55667788, .pcsetb 0x9122334455667788),
    (0x1B000000_00000000_00000000_00000000, 0x1BFFFFFF_FFFFFFFF_FFFFFFFF_FFFFFFFF, .pcinc),
    (0x1C000000_00000000_91223344_55667788, 0x1CFFFFFF_FFFFFFFF_91223344_55667788, .pcinita 0x9122334455667788),
    (0x1D000000_00000000_00000001_00400100, 0x1DFFFFFF_FFFFFFFF_FFFFFFFF_00400100, .pcinitm true 0x00400100),
    (0x1E08A500_00000000_00000000_00000000, 0x1EF8A5FF_FFFFFFFF_FFFFFFFF_FFFFFFFF, .pcobsadd 0x8A5),
    (0x1F08A500_00000000_00000000_00000000, 0x1FF8A5FF_FFFFFFFF_FFFFFFFF_FFFFFFFF, .pcobsdel 0x8A5)]
      : List (CommandWord × CommandWord × Instr)),
    decode p.1 = .ok p.2.2 ∧ decode p.2.1 = .ok p.2.2 := by decide

/-- Every command of the floating-point file, by a word written out from 30_encoding.md R100, R107 and R108:
first with its unused fields 0, then with every unused bit 1, which R101 says is the same command. -/
theorem test_decode_float : ∀ p ∈ ([
    (0x2008A500_00000000_00000000_00000000, 0x20F8A5FF_FFFFFFFF_FFFFFFFF_FFFFFFFF, .fread32 0x8A5),
    (0x2108A500_00000000_00000000_00000000, 0x21F8A5FF_FFFFFFFF_FFFFFFFF_FFFFFFFF, .fread64 0x8A5),
    (0x2208A500_00000000_00000000_00000000, 0x22F8A5FF_FFFFFFFF_FFFFFFFF_FFFFFFFF, .freadq 0x8A5),
    (0x2308A500_00000000_00000000_89ABCDEF, 0x23F8A5FF_FFFFFFFF_FFFFFFFF_89ABCDEF, .fwrite32 0x8A5 0x89ABCDEF),
    (0x2408A500_00000000_91223344_55667788, 0x24F8A5FF_FFFFFFFF_91223344_55667788, .fwrite64 0x8A5 0x9122334455667788),
    (0x2508A500_00000000_91223344_55667788, 0x25F8A5FF_FFFFFFFF_91223344_55667788, .fwriteb 0x8A5 0x9122334455667788),
    (0x26000000_00000000_00000000_00000000, 0x26FFFFFF_FFFFFFFF_FFFFFFFF_FFFFFFFF, .freset),
    (0x2708A500_00000000_00000000_00000000, 0x27F8A5FF_FFFFFFFF_FFFFFFFF_FFFFFFFF, .fobsadd 0x8A5),
    (0x2808A500_00000000_00000000_00000000, 0x28F8A5FF_FFFFFFFF_FFFFFFFF_FFFFFFFF, .fobsdel 0x8A5)]
      : List (CommandWord × CommandWord × Instr)),
    decode p.1 = .ok p.2.2 ∧ decode p.2.1 = .ok p.2.2 := by decide

/-- Every command of the CSR file, by a word written out from 30_encoding.md R100, R107 and R108:
first with its unused fields 0, then with every unused bit 1, which R101 says is the same command. -/
theorem test_decode_csr : ∀ p ∈ ([
    (0x3008A500_00000000_00000000_00000000, 0x30F8A5FF_FFFFFFFF_FFFFFFFF_FFFFFFFF, .csrread 0x8A5),
    (0x3108A500_00000000_00000000_00000000, 0x31F8A5FF_FFFFFFFF_FFFFFFFF_FFFFFFFF, .csrreadq 0x8A5),
    (0x3208A500_00000000_91223344_55667788, 0x32F8A5FF_FFFFFFFF_91223344_55667788, .csrwrite 0x8A5 0x9122334455667788),
    (0x3308A500_00000000_91223344_55667788, 0x33F8A5FF_FFFFFFFF_91223344_55667788, .csrwriteb 0x8A5 0x9122334455667788),
    (0x34000000_00000000_00000000_00000000, 0x34FFFFFF_FFFFFFFF_FFFFFFFF_FFFFFFFF, .csrreset),
    (0x3508A500_00000000_00000000_00000000, 0x35F8A5FF_FFFFFFFF_FFFFFFFF_FFFFFFFF, .csrobsadd 0x8A5),
    (0x3608A500_00000000_00000000_00000000, 0x36F8A5FF_FFFFFFFF_FFFFFFFF_FFFFFFFF, .csrobsdel 0x8A5),
    (0x3708A500_00000000_00000000_00000000, 0x37F8A5FF_FFFFFFFF_FFFFFFFF_FFFFFFFF, .csrpos 0x8A5)]
      : List (CommandWord × CommandWord × Instr)),
    decode p.1 = .ok p.2.2 ∧ decode p.2.1 = .ok p.2.2 := by decide

/-- Every command of memory access, by a word written out from 30_encoding.md R100, R107 and R108:
first with its unused fields 0, then with every unused bit 1, which R101 says is the same command. -/
theorem test_decode_access : ∀ p ∈ ([
    (0x40200000_FEDCBA98_00000000_00000000, 0x402FFFFF_FEDCBA98_FFFFFFFF_FFFFFFFF, .get 2 0xFEDCBA98),
    (0x41200000_FEDCBA98_00000000_89ABCDEF, 0x412FFFFF_FEDCBA98_FFFFFFFF_89ABCDEF, .set 2 0xFEDCBA98 0x89ABCDEF),
    (0x42000000_FEDCBA98_00000000_00000000, 0x42FFFFFF_FEDCBA98_FFFFFFFF_FFFFFFFF, .getword 0xFEDCBA98),
    (0x43000000_FEDCBA98_00000000_89ABCDEF, 0x43FFFFFF_FEDCBA98_FFFFFFFF_89ABCDEF, .setword 0xFEDCBA98 0x89ABCDEF),
    (0x44000000_FEDCBA98_00000000_00000000, 0x44FFFFFF_FEDCBA98_FFFFFFFF_FFFFFFFF, .gethalf 0xFEDCBA98),
    (0x45000000_FEDCBA98_00000000_0000BEEF, 0x45FFFFFF_FEDCBA98_FFFFFFFF_FFFFBEEF, .sethalf 0xFEDCBA98 0xBEEF),
    (0x46000000_FEDCBA98_00000000_00000000, 0x46FFFFFF_FEDCBA98_FFFFFFFF_FFFFFFFF, .getrawword 0xFEDCBA98),
    (0x47000000_FEDCBA98_00000000_89ABCDEF, 0x47FFFFFF_FEDCBA98_FFFFFFFF_89ABCDEF, .setrawword 0xFEDCBA98 0x89ABCDEF),
    (0x48000000_FEDCBA98_00000000_00000000, 0x48FFFFFF_FEDCBA98_FFFFFFFF_FFFFFFFF, .getrawwordornull 0xFEDCBA98),
    (0x49000000_FEDCBA98_00000000_00000000, 0x49FFFFFF_FEDCBA98_FFFFFFFF_FFFFFFFF, .fetch 0xFEDCBA98),
    (0x4A000000_FEDCBA98_00000000_89ABCDEF, 0x4AFFFFFF_FEDCBA98_FFFFFFFF_89ABCDEF, .install 0xFEDCBA98 0x89ABCDEF)]
      : List (CommandWord × CommandWord × Instr)),
    decode p.1 = .ok p.2.2 ∧ decode p.2.1 = .ok p.2.2 := by decide

/-- Every command of memory management, by a word written out from 30_encoding.md R100, R107 and R108:
first with its unused fields 0, then with every unused bit 1, which R101 says is the same command. -/
theorem test_decode_management : ∀ p ∈ ([
    (0x4B000000_00000000_00000000_FFFFFFFE, 0x4BFFFFFF_FFFFFFFF_FFFFFFFF_FFFFFFFE, .alloc 0xFFFFFFFE),
    (0x4C000000_FEDCBA98_00000000_87654321, 0x4CFFFFFF_FEDCBA98_FFFFFFFF_87654321, .firstnull 0xFEDCBA98 0x87654321),
    (0x4D000000_00000000_00000000_00000000, 0x4DFFFFFF_FFFFFFFF_FFFFFFFF_FFFFFFFF, .memclear),
    (0x4E08A500_00000000_00000000_00000000, 0x4EF8A5FF_FFFFFFFF_FFFFFFFF_FFFFFFFF, .copyfrom 0x8A5),
    (0x4F08A500_00000000_00000000_00000000, 0x4FF8A5FF_FFFFFFFF_FFFFFFFF_FFFFFFFF, .swapinst 0x8A5),
    (0x5008A500_FEDCBA98_00000000_87654321, 0x50F8A5FF_FEDCBA98_FFFFFFFF_87654321, .obsadd 0x8A5 0xFEDCBA98 0x87654321),
    (0x5108A500_00000000_00000000_00000000, 0x51F8A5FF_FFFFFFFF_FFFFFFFF_FFFFFFFF, .obsdel 0x8A5),
    (0x5208A500_00000000_00000000_00000000, 0x52F8A5FF_FFFFFFFF_FFFFFFFF_FFFFFFFF, .setconfig 0x8A5)]
      : List (CommandWord × CommandWord × Instr)),
    decode p.1 = .ok p.2.2 ∧ decode p.2.1 = .ok p.2.2 := by decide

/-- Every command of the reservation tables, by a word written out from 30_encoding.md R100, R107 and R108:
first with its unused fields 0, then with every unused bit 1, which R101 says is the same command. -/
theorem test_decode_reservation : ∀ p ∈ ([
    (0x6088A500_FEDCBA98_00000000_00000000, 0x6088A5FF_FEDCBA98_FFFFFFFF_FFFFFFFF, .reserve 0x8A5 8 0xFEDCBA98),
    (0x6188A500_FEDCBA98_00000000_00000000, 0x6188A5FF_FEDCBA98_FFFFFFFF_FFFFFFFF, .unreserve 0x8A5 8 0xFEDCBA98),
    (0x62000000_00000000_00000000_00000000, 0x62FFFFFF_FFFFFFFF_FFFFFFFF_FFFFFFFF, .rsvreset)]
      : List (CommandWord × CommandWord × Instr)),
    decode p.1 = .ok p.2.2 ∧ decode p.2.1 = .ok p.2.2 := by decide

/-- The first and the last value of every reserved range of `op` (30_encoding.md R109). -/
theorem test_reserved_opcodes : ∀ op ∈ ([0x00, 0x0F, 0x29, 0x2F, 0x38, 0x3F, 0x53, 0x5F, 0x63, 0xFF] : List (BitVec 8)),
    decode (op.setWidth 128 <<< 120) = .error (.reservedOpcode op) := by decide

/-- 30_encoding.md R112: the words of a pseudo-command are those of the command it spells. -/
theorem test_pseudo_commands :
    decode (0x40100000_10010000_00000000_00000000 : CommandWord) = .ok (Instr.canonical (.getbyte 0x10010000)) ∧
    decode (0x41100000_10010000_00000000_000000AA : CommandWord) = .ok (Instr.canonical (.setbyte 0x10010000 0xAA)) ∧
    decode (0x50000700_10010000_00000000_10010000 : CommandWord) = .ok (Instr.canonical (.obsadd1 7 0x10010000)) := by
  decide

/-! ## Ports and names -/

/-- 30_encoding.md R103: status in bits 73:66, absent 65, flag 64, data 63:0; LOAD_MISALIGNED is 0x10 (R105). -/
theorem test_response_word : responseWord ⟨.loadMisaligned, false, true, 0x10010002⟩ = 0x041_00000000_10010002 := by decide

/-- 95_test_vectors.md E11: the notice of a byte write at 0x10010010 to observer 1. -/
theorem test_notice_word : noticeWord ⟨.write, .mem, 1, 4, 0x10010010, 0x33⟩ = 0x800140_10010010_00000033 := by decide

/-- 40_register_cells.md R141 and 10_state.md R27: a direct name, a prefix with a number, and neither. -/
theorem test_names : lookupName integerBlock "sp" = some (.own (.x 2)) ∧
    lookupName integerBlock "x31" = some (.own (.x 31)) ∧
    lookupName integerBlock "x32" = none ∧ lookupName floatBlock "fa0" = some (.own (.f 10)) ∧
    lookupName csrBlock "_3" = some (.own (.csr 1)) ∧ lookupName integerBlock "pc" = none := by decide

/-! ## A small state -/

/-- Observer 1 watches the word at 0x10010000. -/
def watch : MemObserver := ⟨1, 0x10010000, 0x10010003⟩

/-- The instance that is active in `demo`: the word 0x80C0FFEE at 0x10010000, the instruction word 0x13 at 0x00400004, the
word 7 at the top of the stack. -/
def demoMemory : Memory :=
  { Memory.fresh Config.testT [watch] with
    text := ⟨[1], [(4, 0x13)]⟩
    data := ⟨[16], [(0x10000, 0xEE), (0x10001, 0xFF), (0x10002, 0xC0), (0x10003, 0x80)]⟩
    stack := ⟨[0], [(0, 7)]⟩
    heap := 0x10040004 }

/-- A reservation table with eight entries. -/
def fullTable : List Reservation :=
  [⟨0x00, .word⟩, ⟨0x04, .word⟩, ⟨0x08, .word⟩, ⟨0x0C, .word⟩, ⟨0x10, .word⟩, ⟨0x14, .word⟩, ⟨0x18, .word⟩,
   ⟨0x20, .doubleword⟩]

/-- Configuration T is current; the bank holds the active instance, an empty one under T and an empty one under O; x5, the pc,
f1, fcsr and frm are observed; hart 1's table is full; SETWORD waits (the word of 95_test_vectors.md E1). -/
def demo : State :=
  let s := State.resetOf { nharts := 2, ninst := 3, cfgs := [Config.testT, Config.testO] }
  { s with
    x := s.x.set 5 ⟨0, 7, [9]⟩
    pc := ⟨0x00400000, 0x00400010, [3]⟩
    f := (s.f.set 1 ⟨0, 0xFFFFFFFF3F800000, [4]⟩).set 2 ⟨0, 0x00000001DEADBEEF, []⟩
    csr := ((s.csr.set 0 ⟨0, 0x10, []⟩).set 1 ⟨0, 0xE5, [6]⟩).set 9 ⟨0, 0x100000002, []⟩
    csrViews := s.csrViews.set 1 [8]
    insts := [demoMemory, Memory.fresh Config.testT [], Memory.fresh Config.testO []]
    rsv := [[⟨0x10010000, .word⟩], fullTable]
    pending := [.command ⟨0x43000000_10010000_00000000_CAFEF00D, false, false⟩] }

/-- `demo` with `smc_en` = 1. -/
def demoOpen : State := { demo with smcEn := true }

/-- Whether an outcome is a next state with a property. -/
def holdsAfter (r : Host.Outcome State Fault Refusal) (p : State → Prop) [DecidablePred p] : Bool :=
  match r with
  | .next t => decide (p t)
  | _ => false

/-- What `holdsAfter` says. -/
theorem next_of {r : Host.Outcome State Fault Refusal} {p : State → Prop} [DecidablePred p] (h : holdsAfter r p = true) :
    ∃ t, r = .next t ∧ p t := by
  cases r with
  | next t => exact ⟨t, rfl, of_decide_eq_true h⟩
  | fault e => exact absurd h Bool.false_ne_true
  | refused e => exact absurd h Bool.false_ne_true

/-- The command ends with this response and these notices, and the next state has the property. -/
def ends (r : Host.Outcome State Fault Refusal) (rsp : Response) (notices : List (List Notice))
    (p : State → Bool := fun _ => true) : Bool :=
  match r with
  | .next t => t.rsp == some rsp && t.notices == notices && p t
  | _ => false

/-! ## Single steps, each with the result the cited rule gives -/

/-- 41_integer_file_and_pc.md R150. -/
theorem test_xread : ends (exec (.xread 5) demo) ⟨.ok, false, false, 7⟩ [[⟨.read, .x, 9, 0, 5, 0⟩]] = true := by decide

/-- 40_register_cells.md R142. -/
theorem test_xread_absent : ends (exec (.xread 32) demo) ⟨.ok, true, false, 0⟩ [] = true := by decide

/-- 41_integer_file_and_pc.md R151. -/
theorem test_xreadq : ends (exec (.xreadq 5) demo) ⟨.ok, false, false, 7⟩ [] = true := by decide

/-- 41_integer_file_and_pc.md R152. -/
theorem test_xwrite : ends (exec (.xwrite 5 0x10) demo) ⟨.ok, false, false, 7⟩ [[⟨.write, .x, 9, 0, 5, 0⟩]]
    (fun t => t.x[5].value == 0x10) = true := by decide

/-- 41_integer_file_and_pc.md R152, 10_state.md R25. -/
theorem test_xwrite_x0 : ends (exec (.xwrite 0 0x10) demo) ⟨.ok, false, false, 0⟩ []
    (fun t => t.x == demo.x) = true := by decide

/-- 41_integer_file_and_pc.md R153. -/
theorem test_xwriteb : ends (exec (.xwriteb 5 0x10) demo) ⟨.ok, false, false, 7⟩ []
    (fun t => t.x[5].value == 0x10) = true := by decide

/-- 41_integer_file_and_pc.md R154, 10_state.md R49. -/
theorem test_xreset : ends (exec (.xreset) demo) ⟨.ok, false, false, 0⟩ []
    (fun t => t.x[5].value == 0 && t.x[2].value == 0x7FFFEFFC && t.pc == demo.pc) = true := by decide

/-- 41_integer_file_and_pc.md R155. -/
theorem test_xobsadd : ends (exec (.xobsadd 2) demo) ⟨.ok, false, false, 0⟩ []
    (fun t => t.x[5].observers == [2, 9] && t.x[0].observers == [2]) = true := by decide

/-- 41_integer_file_and_pc.md R156. -/
theorem test_xobsdel : ends (exec (.xobsdel 9) demo) ⟨.ok, false, false, 0⟩ []
    (fun t => t.x[5].observers == []) = true := by decide

/-- 41_integer_file_and_pc.md R157. -/
theorem test_pcreadq : ends (exec (.pcreadq) demo) ⟨.ok, false, false, 0x00400010⟩ [] = true := by decide

/-- 41_integer_file_and_pc.md R158. -/
theorem test_pcread : ends (exec (.pcread) demo)
    ⟨.ok, false, false, 0x00400010⟩ [[⟨.read, .pc, 3, 0, 0xFFFFFFFF, 0⟩]] = true := by decide

/-- 41_integer_file_and_pc.md R159. -/
theorem test_pcset : ends (exec (.pcset 0x123456789) demo)
    ⟨.ok, false, false, 0x00400010⟩ [[⟨.write, .pc, 3, 0, 0xFFFFFFFF, 0⟩]]
    (fun t => t.pc.value == 0x123456789) = true := by decide

/-- 41_integer_file_and_pc.md R160. -/
theorem test_pcsetb : ends (exec (.pcsetb 2) demo) ⟨.ok, false, false, 0x00400010⟩ []
    (fun t => t.pc.value == 2) = true := by decide

/-- 41_integer_file_and_pc.md R161. -/
theorem test_pcinc_wraps : ends (exec (.pcinc) { demo with pc := ⟨0, 0xFFFFFFFFFFFFFFFE, []⟩ })
    ⟨.ok, false, false, 0xFFFFFFFFFFFFFFFE⟩ [[]]
    (fun t => t.pc.value == 2) = true := by decide

/-- 41_integer_file_and_pc.md R162. -/
theorem test_pcinita : ends (exec (.pcinita 6) demo)
    ⟨.ok, false, false, 0x00400010⟩ [[⟨.write, .pc, 3, 0, 0xFFFFFFFF, 0⟩]]
    (fun t => t.pc.value == 6) = true := by decide

/-- 41_integer_file_and_pc.md R163. -/
theorem test_pcinitm : ends (exec (.pcinitm true 0x004FFFFF) demo)
    ⟨.ok, false, false, 0x00400010⟩ [[⟨.write, .pc, 3, 0, 0xFFFFFFFF, 0⟩]]
    (fun t => t.pc.value == 0x004FFFFF) = true := by decide

/-- 41_integer_file_and_pc.md R163. -/
theorem test_pcinitm_outside_text : ends (exec (.pcinitm true 0x00500000) demo)
    ⟨.ok, false, false, 0x00400010⟩ [[⟨.write, .pc, 3, 0, 0xFFFFFFFF, 0⟩]]
    (fun t => t.pc.value == 0x00400000) = true := by decide

/-- 41_integer_file_and_pc.md R164. -/
theorem test_pcobsadd : ends (exec (.pcobsadd 2) demo) ⟨.ok, false, false, 0⟩ []
    (fun t => t.pc.observers == [2, 3]) = true := by decide

/-- 41_integer_file_and_pc.md R165. -/
theorem test_pcobsdel : ends (exec (.pcobsdel 3) demo) ⟨.ok, false, false, 0⟩ []
    (fun t => t.pc.observers == []) = true := by decide

/-- 42_fp_file.md R170. -/
theorem test_fread32 : ends (exec (.fread32 1) demo)
    ⟨.ok, false, false, 0x3F800000⟩ [[⟨.read, .f, 4, 0, 1, 0⟩]] = true := by decide

/-- 42_fp_file.md R170. -/
theorem test_fread32_unboxed : ends (exec (.fread32 2) demo) ⟨.ok, false, false, 0x7FC00000⟩ [[]] = true := by decide

/-- 42_fp_file.md R171. -/
theorem test_fread64 : ends (exec (.fread64 1) demo)
    ⟨.ok, false, false, 0xFFFFFFFF3F800000⟩ [[⟨.read, .f, 4, 0, 1, 0⟩]] = true := by decide

/-- 42_fp_file.md R172. -/
theorem test_freadq : ends (exec (.freadq 2) demo) ⟨.ok, false, false, 0x00000001DEADBEEF⟩ [] = true := by decide

/-- 42_fp_file.md R173. -/
theorem test_fwrite32 : ends (exec (.fwrite32 2 0x80000001) demo) ⟨.ok, false, false, 0x00000001DEADBEEF⟩ [[]]
    (fun t => t.f[2].value == 0xFFFFFFFF80000001) = true := by decide

/-- 42_fp_file.md R174. -/
theorem test_fwrite64 : ends (exec (.fwrite64 1 5) demo)
    ⟨.ok, false, false, 0xFFFFFFFF3F800000⟩ [[⟨.write, .f, 4, 0, 1, 0⟩]]
    (fun t => t.f[1].value == 5) = true := by decide

/-- 42_fp_file.md R175. -/
theorem test_fwriteb : ends (exec (.fwriteb 1 5) demo) ⟨.ok, false, false, 0xFFFFFFFF3F800000⟩ []
    (fun t => t.f[1].value == 5) = true := by decide

/-- 42_fp_file.md R176. -/
theorem test_freset : ends (exec (.freset) demo) ⟨.ok, false, false, 0⟩ []
    (fun t => t.f[1].value == 0 && t.f[1].observers == [4]) = true := by decide

/-- 42_fp_file.md R177. -/
theorem test_fobsadd : ends (exec (.fobsadd 0xFFF) demo) ⟨.ok, false, false, 0⟩ []
    (fun t => t.f[1].observers == [4, 0xFFF] && t.f[31].observers == [0xFFF]) = true := by decide

/-- 42_fp_file.md R178. -/
theorem test_fobsdel : ends (exec (.fobsdel 4) demo) ⟨.ok, false, false, 0⟩ []
    (fun t => t.f[1].observers == []) = true := by decide

/-- 43_csr_file.md R185, 40_register_cells.md R131. -/
theorem test_csrread_view : ends (exec (.csrread 0x002) demo)
    ⟨.ok, false, false, 7⟩ [[⟨.read, .csr, 8, 0, 2, 0⟩]] = true := by decide

/-- 43_csr_file.md R186. -/
theorem test_csrreadq_view : ends (exec (.csrreadq 0xC80) demo) ⟨.ok, false, false, 1⟩ [] = true := by decide

/-- 43_csr_file.md R187, 40_register_cells.md R135. -/
theorem test_csrwrite_view : ends (exec (.csrwrite 0x002 0xF9) demo)
    ⟨.ok, false, false, 7⟩ [[⟨.write, .csr, 6, 0, 3, 0⟩], [⟨.write, .csr, 8, 0, 2, 0⟩]]
    (fun t => t.csr[1].value == 0x25) = true := by decide

/-- 43_csr_file.md R187. -/
theorem test_csrwrite_refused : ends (exec (.csrwrite 0xC80 5) demo) ⟨.ok, false, true, 0⟩ []
    (fun t => t.csr == demo.csr) = true := by decide

/-- 43_csr_file.md R188, 40_register_cells.md R136. -/
theorem test_csrwriteb_view : ends (exec (.csrwriteb 0xC80 5) demo) ⟨.ok, false, false, 1⟩ []
    (fun t => t.csr[9].value == 0x500000002) = true := by decide

/-- 43_csr_file.md R188. -/
theorem test_csrwriteb_masked : ends (exec (.csrwriteb 0x000 0xFF) demo) ⟨.ok, false, false, 0x10⟩ []
    (fun t => t.csr[0].value == 0xFF) = true := by decide

/-- 43_csr_file.md R189. -/
theorem test_csrreset : ends (exec (.csrreset) demo) ⟨.ok, false, false, 0⟩ []
    (fun t => t.csr[0].value == 0 && t.csr[1].value == 0 && t.csr[9].value == 0) = true := by decide

/-- 43_csr_file.md R190. -/
theorem test_csrobsadd : ends (exec (.csrobsadd 7) demo) ⟨.ok, false, false, 0⟩ []
    (fun t => t.csr[1].observers == [6, 7] && t.csrViews[1] == [7, 8] && t.csrViews[4] == [7]) = true := by decide

/-- 43_csr_file.md R191. -/
theorem test_csrobsdel : ends (exec (.csrobsdel 8) demo) ⟨.ok, false, false, 0⟩ []
    (fun t => t.csr[1].observers == [6] && t.csrViews[1] == []) = true := by decide

/-- 43_csr_file.md R192. -/
theorem test_csrpos : ends (exec (.csrpos 0xC82) demo) ⟨.ok, false, true, 16⟩ [] = true := by decide

/-- 43_csr_file.md R192. -/
theorem test_csrpos_absent : ends (exec (.csrpos 0x006) demo) ⟨.ok, true, false, 0⟩ [] = true := by decide

/-- 44_memory_access.md R200, 20_memory.md R67. -/
theorem test_get_unaligned : ends (exec (.get 4 0x10010001) demo)
    ⟨.ok, false, false, 0x0080C0FF⟩ [[⟨.read, .mem, 1, 4, 0x10010001, 0x0080C0FF⟩]] = true := by decide

/-- 20_memory.md R66. -/
theorem test_get_past_end : ends (exec (.get 2 0x103FFFFF) demo)
    ⟨.loadRange, false, false, 0x103FFFFF⟩ [] = true := by decide

/-- 44_memory_access.md R201, 20_memory.md R68. -/
theorem test_set : ends (exec (.set 1 0x10010001 0x1AB) demo)
    ⟨.ok, false, false, 0xFF⟩ [[⟨.write, .mem, 1, 1, 0x10010001, 0xAB⟩]]
    (fun t => t.word .data 0x10010000 == some 0x80C0ABEE) = true := by decide

/-- 20_memory.md R68, 20_memory.md R70. -/
theorem test_set_text_across : ends (exec (.set 2 0x00400007 1) demoOpen)
    ⟨.storeMisaligned, false, false, 0x00400007⟩ [] = true := by decide

/-- 44_memory_access.md R202. -/
theorem test_getword : ends (exec (.getword 0x10010000) demo)
    ⟨.ok, false, false, 0x80C0FFEE⟩ [[⟨.read, .mem, 1, 4, 0x10010000, 0x80C0FFEE⟩]] = true := by decide

/-- 44_memory_access.md R202, 20_memory.md R70. -/
theorem test_getword_text_closed : ends (exec (.getword 0x00400004) demo)
    ⟨.loadTextForbidden, false, false, 0x00400004⟩ [] = true := by decide

/-- 44_memory_access.md R203, 10_state.md R39. -/
theorem test_setword_stack : ends (exec (.setword 0x7FFFFFF8 0x01020304) demo) ⟨.ok, false, false, 0⟩ [[]]
    (fun t => t.memory.stack == ⟨[0], [(0, 7), (4, 4), (5, 3), (6, 2), (7, 1)]⟩) = true := by decide

/-- 44_memory_access.md R203. -/
theorem test_setword_misaligned : ends (exec (.setword 0x10010002 1) demo)
    ⟨.storeMisaligned, false, false, 0x10010002⟩ [] = true := by decide

/-- 44_memory_access.md R204. -/
theorem test_gethalf : ends (exec (.gethalf 0x10010002) demo)
    ⟨.ok, false, false, 0x80C0⟩ [[⟨.read, .mem, 1, 2, 0x10010002, 0x80C0⟩]] = true := by decide

/-- 44_memory_access.md R205. -/
theorem test_sethalf : ends (exec (.sethalf 0x10010002 0x1234) demo)
    ⟨.ok, false, false, 0x80C0⟩ [[⟨.write, .mem, 1, 2, 0x10010002, 0x1234⟩]]
    (fun t => t.word .data 0x10010000 == some 0x1234FFEE) = true := by decide

/-- 44_memory_access.md R206. -/
theorem test_getrawword_text : ends (exec (.getrawword 0x00400004) demo)
    ⟨.ok, false, false, 0x13⟩ [] = true := by decide

/-- 44_memory_access.md R207. -/
theorem test_setrawword_text : ends (exec (.setrawword 0x00400004 0x80000000) demoOpen) ⟨.ok, false, false, 0x13⟩ []
    (fun t => t.memory.text == ⟨[1], [(7, 0x80)]⟩) = true := by decide

/-- 44_memory_access.md R207. -/
theorem test_setrawword_text_closed : ends (exec (.setrawword 0x00400004 1) demo)
    ⟨.storeTextForbidden, false, false, 0x00400004⟩ [] = true := by decide

/-- 44_memory_access.md R208. -/
theorem test_getrawwordornull : ends (exec (.getrawwordornull 0x10010FFC) demo)
    ⟨.ok, false, true, 0⟩ [] = true := by decide

/-- 44_memory_access.md R208. -/
theorem test_getrawwordornull_null : ends (exec (.getrawwordornull 0x10011000) demo)
    ⟨.ok, false, false, 0⟩ [] = true := by decide

/-- 44_memory_access.md R209. -/
theorem test_fetch : ends (exec (.fetch 0x00400004) demo) ⟨.ok, false, true, 0x13⟩ [[]] = true := by decide

/-- 44_memory_access.md R209. -/
theorem test_fetch_data : ends (exec (.fetch 0x10010000) demo)
    ⟨.loadRange, false, false, 0x10010000⟩ [] = true := by decide

/-- 44_memory_access.md R210. -/
theorem test_install : ends (exec (.install 0x00400000 0x100) demo) ⟨.ok, false, false, 0⟩ [[]]
    (fun t => t.memory.text == ⟨[0, 1], [(1, 1), (4, 0x13)]⟩) = true := by decide

/-- 45_memory_management.md R230. -/
theorem test_alloc : ends (exec (.alloc 5) demo) ⟨.ok, false, false, 0x10040004⟩ []
    (fun t => t.memory.heap == 0x1004000C) = true := by decide

/-- 45_memory_management.md R230. -/
theorem test_alloc_negative : ends (exec (.alloc 0x80000000) demo)
    ⟨.heapBadSize, false, false, 0⟩ [] = true := by decide

/-- 45_memory_management.md R231. -/
theorem test_firstnull : ends (exec (.firstnull 0x10010FF8 0x10012000) demo)
    ⟨.ok, false, false, 0x10011000⟩ [] = true := by decide

/-- 45_memory_management.md R231. -/
theorem test_firstnull_outside : ends (exec (.firstnull 0x10400000 0x10400001) demo)
    ⟨.loadRange, false, false, 0x10400000⟩ [] = true := by decide

/-- 45_memory_management.md R232. -/
theorem test_memclear : ends (exec (.memclear) demo) ⟨.ok, false, false, 0⟩ []
    (fun t => t.memory == Memory.fresh Config.testT [watch]) = true := by decide

/-- 45_memory_management.md R233. -/
theorem test_copyfrom : ends (exec (.copyfrom 1) demo) ⟨.ok, false, true, 0⟩ []
    (fun t => t.memory.data == .empty && t.memory.heap == 0x10040004) = true := by decide

/-- 45_memory_management.md R233. -/
theorem test_copyfrom_incompatible : ends (exec (.copyfrom 2) demo) ⟨.ok, false, false, 0⟩ []
    (fun t => t.insts == demo.insts) = true := by decide

/-- 45_memory_management.md R234. -/
theorem test_swapinst : ends (exec (.swapinst 1) demo) ⟨.ok, false, false, 0⟩ []
    (fun t => t.active == 1) = true := by decide

/-- 45_memory_management.md R234. -/
theorem test_swapinst_incompatible : ends (exec (.swapinst 2) demo)
    ⟨.incompatible, false, false, 0⟩ [] = true := by decide

/-- 45_memory_management.md R235. -/
theorem test_obsadd : ends (exec (.obsadd 0 0x7FFFFFFF 0x7FFFFFFF) demo) ⟨.ok, false, false, 0⟩ []
    (fun t => t.memory.observers == [⟨0, 0x7FFFFFFF, 0x7FFFFFFF⟩, watch]) = true := by decide

/-- 45_memory_management.md R235. -/
theorem test_obsadd_straddle : ends (exec (.obsadd 0 0x7FFFFFFF 0x80000000) demo)
    ⟨.obsRangeStraddle, false, false, 0x7FFFFFFF⟩ [] = true := by decide

/-- 45_memory_management.md R236. -/
theorem test_obsdel : ends (exec (.obsdel 1) demo) ⟨.ok, false, false, 0⟩ []
    (fun t => t.memory.observers == []) = true := by decide

/-- 45_memory_management.md R238. -/
theorem test_setconfig : ends (exec (.setconfig 1) demo) ⟨.ok, false, true, 0⟩ []
    (fun t => t.cur == 1 && t.memory == Memory.fresh Config.testO [watch] &&
      t.x[2] == ⟨0x3FFC, 0x7FFFEFFC, []⟩ && t.pc == ⟨0, 0x00400010, [3]⟩) = true := by decide

/-- 45_memory_management.md R238. -/
theorem test_setconfig_same : ends (exec (.setconfig 0) demo) ⟨.ok, false, false, 0⟩ []
    (fun t => t.insts == demo.insts) = true := by decide

/-- 46_reservation.md R252. -/
theorem test_reserve_full : ends (exec (.reserve 1 8 0x48) demo) ⟨.ok, false, false, 0⟩ []
    (fun t => t.rsv == [[⟨0x10010000, .word⟩], fullTable.tail ++ [⟨0x48, .doubleword⟩]]) = true := by decide

/-- 46_reservation.md R252. -/
theorem test_reserve_misaligned : ends (exec (.reserve 0 8 0x44) demo)
    ⟨.reserveMisaligned, false, false, 0x44⟩ [] = true := by decide

/-- 46_reservation.md R253, 46_reservation.md R251. -/
theorem test_unreserve_covered : ends (exec (.unreserve 1 4 0x24) demo) ⟨.ok, false, true, 0⟩ []
    (fun t => t.rsv == [[⟨0x10010000, .word⟩], fullTable.take 7]) = true := by decide

/-- 46_reservation.md R253. -/
theorem test_unreserve_other_hart : ends (exec (.unreserve 1 4 0x10010000) demo) ⟨.ok, false, false, 0⟩ []
    (fun t => t.rsv == demo.rsv) = true := by decide

/-- 46_reservation.md R255. -/
theorem test_rsvreset : ends (exec (.rsvreset) demo) ⟨.ok, false, false, 0⟩ []
    (fun t => t.rsv == [[], []]) = true := by decide

/-- 30_encoding.md R112. -/
theorem test_getbyte : ends (exec (.getbyte 0x10010003) demo)
    ⟨.ok, false, false, 0x80⟩ [[⟨.read, .mem, 1, 1, 0x10010003, 0x80⟩]] = true := by decide

/-- 30_encoding.md R112. -/
theorem test_setbyte : ends (exec (.setbyte 0x10010003 0x101) demo)
    ⟨.ok, false, false, 0x80⟩ [[⟨.write, .mem, 1, 1, 0x10010003, 1⟩]]
    (fun t => t.word .data 0x10010000 == some 0x01C0FFEE) = true := by decide

/-- 30_encoding.md R112. -/
theorem test_obsadd1 : ends (exec (.obsadd1 1 0x10010000) demo) ⟨.ok, false, false, 0⟩ []
    (fun t => t.memory.observers == [⟨1, 0x10010000, 0x10010000⟩, watch]) = true := by decide

/-- 00_scope.md R10, 30_encoding.md R102: a step takes the command and samples its inputs; the word is that of
95_test_vectors.md E1. -/
theorem test_step : ends (step { demo with pending := [.command ⟨0x42000000_10010000_00000000_00000000, true, true⟩, .rst] })
    ⟨.ok, false, false, 0x80C0FFEE⟩ [[⟨.read, .mem, 1, 4, 0x10010000, 0x80C0FFEE⟩]]
    (fun t => t.pending == [.rst] && t.smcEn && t.backstepEn) = true := by decide

/-! ## Witnesses: states and operands that meet the hypotheses of the statements, clause by clause -/

/-- The registrations, tables and cursor of an instance, checked as data. -/
theorem demoMemory_inv : demoMemory.Inv := ⟨by decide, by decide, by decide, by decide⟩

theorem test_demo_inv : demo.Inv where
  params := by decide
  cur := by decide
  active := by decide
  insts := by
    intro m hm
    simp only [demo, List.mem_cons, List.not_mem_nil, or_false] at hm
    rcases hm with rfl | rfl | rfl
    · exact demoMemory_inv
    · exact ⟨by decide, by decide, by decide, by decide⟩
    · exact ⟨by decide, by decide, by decide, by decide⟩
  dims := by decide
  x0 := by decide
  resets := by
    intro h
    cases h with
    | x i => revert i; decide
    | f i => revert i; decide
    | pc => decide
    | csr k => revert k; decide
  observers := by
    intro r
    cases r with
    | own h =>
      cases h with
      | x i => revert i; decide
      | f i => revert i; decide
      | pc => decide
      | csr k => revert k; decide
    | view j => revert j; decide
  rsv := by decide

theorem test_demoOpen_inv : demoOpen.Inv :=
  inv_cells test_demo_inv rfl rfl rfl rfl rfl rfl (by decide) (fun r => by cases r <;> rfl) (fun r => by
    have := test_demo_inv.observers r
    cases r with
    | own h => cases h <;> exact this
    | view j => exact this)

/-- `GETWORD 0x10010000` with every unused bit 0, and with some of them 1. -/
theorem test_witness_UnusedFieldsAreIgnored :
    decode (0x42000000_10010000_00000000_00000000 : CommandWord) = .ok (.getword 0x10010000) ∧
    (0x42F00001_10010000_80000000_00000001 : CommandWord) &&& usedBits (.getword 0x10010000) =
      0x42000000_10010000_00000000_00000000 &&& usedBits (.getword 0x10010000) := by decide

theorem test_witness_ReservedOpcodesAreIllegal :
    (∀ op ∈ ([0x00, 0x0F, 0x29, 0x2F, 0x38, 0x3F, 0x53, 0x5F, 0x63, 0xFF] : List (BitVec 8)), reservedOpcode op) ∧
    ∃ (s : State) (c : Command) (rest : List Input), s.pending = .command c :: rest ∧
    reservedOpcode (opField c.word) := by
  unfold reservedOpcode
  exact ⟨by decide, { demo with pending := [.command ⟨0x63000000_00000000_00000000_00000000, false, false⟩, .rst] }, _, _,
    rfl, by decide⟩

theorem test_witness_PseudoCommandsAreSpellings :
    decode (0x40100000_10010000_00000000_00000000 : CommandWord) = .ok (.get 1 0x10010000) := by decide

theorem test_witness_PortWordsHoldTheirFields : statusCode .incompatible = statusCode .incompatible := rfl

theorem test_witness_StepRunsTheDecodedCommand :
    ∃ (c : Command) (rest : List Input), demo.pending = .command c :: rest ∧
      decode c.word = .ok (.setword 0x10010000 0xCAFEF00D) := ⟨_, _, rfl, by decide⟩

theorem test_witness_StepIsTotal : ∃ (c : Command) (rest : List Input), demo.pending = .command c :: rest := ⟨_, _, rfl⟩

theorem test_witness_RstRestoresTheResetState :
    (∃ rest, ({ demo with pending := [.rst, .rst] } : State).pending = .rst :: rest) ∧
    ({ demo with pending := [] } : State).pending = [] := ⟨⟨_, rfl⟩, rfl⟩

theorem test_witness_ResetValues :
    (∃ others, Config.params.cfgs = Config.testT :: others) ∧ (31 : Index).toNat < 32 ∧
    (∃ m, m ∈ (State.resetOf Config.params).insts) ∧ ∃ t, t ∈ (State.resetOf Config.params).rsv :=
  ⟨⟨_, rfl⟩, by decide, ⟨_, List.mem_cons_self⟩, ⟨_, List.mem_cons_self⟩⟩

theorem test_witness_ResetMeetsTheInvariant : Config.params.valid = true := by decide

/-- 00_scope.md R6: entry 0 is named Default. -/
theorem test_misnamed_configuration :
    Params.valid { Config.params with cfgs := [Config.testO, Config.testT] } = false := by decide

theorem test_witness_StepKeepsTheInvariant : demo.Inv ∧ ∃ t, step demo = .next t ∧ t.insts ≠ demo.insts :=
  ⟨test_demo_inv, next_of (by decide)⟩

theorem test_witness_ErrorsChangeNothing :
    ∃ t, exec (.getword 0x10010002) demo = .next t ∧ ∃ r, t.rsp = some r ∧ r.status ≠ .ok :=
  ⟨_, rfl, _, rfl, by decide⟩

theorem test_witness_X0IsHardwired :
    demo.x[0].value = 0 ∧ demo.x[0].reset = 0 ∧ ∃ t, step demo = .next t := ⟨by decide, by decide, _, rfl⟩

/-- `rst` and PCINC change the pc. -/
theorem test_witness_PcChangesOnlyByPcCommands :
    (∃ t, step { demo with pending := [.rst] } = .next t ∧ t.pc.value ≠ demo.pc.value) ∧
    ∃ t, step { demo with pending := [.command ⟨0x1B000000_00000000_00000000_00000000, false, false⟩] } = .next t ∧
      t.pc.value ≠ demo.pc.value := ⟨next_of (by decide), next_of (by decide)⟩

theorem test_witness_ResetValuesChangeOnlyBySetconfig :
    ∃ t, exec (.setconfig 1) demo = .next t ∧ ∀ h ∈ [Home.x 2, .x 3, .pc], (t.cell h).reset ≠ (demo.cell h).reset :=
  next_of (by decide)

theorem test_witness_CountersStandStill :
    (∃ t, exec (.csrwriteb 0xC00 5) demo = .next t ∧ t.csr[9].value ≠ demo.csr[9].value) ∧
    (∃ t, exec (.csrwriteb 0xC80 5) demo = .next t ∧ t.csr[9].value ≠ demo.csr[9].value) ∧
    (∃ t, exec .csrreset demo = .next t ∧ t.csr[9].value ≠ demo.csr[9].value) ∧
    (∃ t, exec (.csrwriteb 0xC01 5) demo = .next t ∧ t.csr[10].value ≠ demo.csr[10].value) ∧
    (∃ t, exec (.csrwriteb 0xC81 5) demo = .next t ∧ t.csr[10].value ≠ demo.csr[10].value) ∧
    (∃ t, exec (.csrwriteb 0xC02 5) demo = .next t ∧ t.csr[11].value ≠ demo.csr[11].value) ∧
    ∃ t, exec (.csrwriteb 0xC82 5) demo = .next t ∧ t.csr[11].value ≠ demo.csr[11].value :=
  ⟨next_of (by decide), next_of (by decide), next_of (by decide), next_of (by decide), next_of (by decide),
    next_of (by decide), next_of (by decide)⟩

theorem test_witness_FlagsChangeOnlyByCsrWrites : ∀ i ∈ [Instr.csrwrite 0x001 0x1F, .csrwriteb 0x003 0, .csrreset],
    ∃ t, exec i demo = .next t ∧ t.csr[1].value.extractLsb' 0 5 ≠ demo.csr[1].value.extractLsb' 0 5 := by
  simp only [List.forall_mem_cons]
  exact ⟨next_of (by decide), next_of (by decide), next_of (by decide), by simp⟩

/-- A command of each of the two kinds: one that is none of the three, and RESERVE. -/
theorem test_witness_ReservationsAreIndependentOfMemory :
    (∃ t, exec (.setword 0x10010000 1) demo = .next t) ∧
    ¬((∃ h l a, Instr.setword 0x10010000 1 = .reserve h l a ∨ Instr.setword 0x10010000 1 = .unreserve h l a) ∨
      Instr.setword 0x10010000 1 = .rsvreset) ∧
    ∃ t, exec (.reserve 0 4 0x40) demo = .next t ∧ t.rsv ≠ demo.rsv :=
  ⟨⟨_, rfl⟩, by simp, next_of (by decide)⟩

/-- The 18 reads. -/
def reads : List Instr :=
  [.get 4 0x10010001, .getword 0x10010000, .gethalf 0x10010002, .getbyte 0x10010003, .getrawword 0x00400004,
   .getrawwordornull 0x10011000, .fetch 0x00400004, .firstnull 0x10010FF8 0x10012000, .xread 5, .xreadq 5, .pcread, .pcreadq,
   .fread32 2, .fread64 1, .freadq 1, .csrread 0x002, .csrreadq 0xC80, .csrpos 0xC82]

theorem test_witness_ReadsHaveNoSideEffect : ∀ i ∈ reads, ∃ t, exec i demo = .next t ∧
    t.rsp.map Response.status = some .ok :=
  fun i hi => next_of ((by decide : ∀ i ∈ reads,
    holdsAfter (exec i demo) (fun t => t.rsp.map Response.status = some .ok) = true) i hi)

theorem test_witness_HeapCursorIsMonotonic : ∀ i ∈ [Instr.alloc 4, .memclear, .setconfig 1],
    ∃ t, exec i demo = .next t ∧ t.insts[0]? = some t.memory ∧ t.memory.heap ≠ demo.memory.heap ∧
      demo.insts[0]? = some demo.memory := by
  simp only [List.forall_mem_cons]
  exact ⟨next_of (by decide), next_of (by decide), next_of (by decide), by simp⟩

theorem test_witness_SelectionsAndInactiveInstances :
    (∃ t, exec (.setconfig 1) demo = .next t ∧ t.cur ≠ demo.cur) ∧
    (∃ t, exec (.swapinst 1) demo = .next t ∧ t.active ≠ demo.active) ∧ 2 ≠ demo.active :=
  ⟨next_of (by decide), next_of (by decide), by decide⟩

/-- Each of the six kinds of sets is changed by its own command. -/
theorem test_witness_ObserversChangeOnlyByObserverCommands :
    (∃ t, exec (.xobsadd 2) demo = .next t ∧ ∀ k : Fin 32, t.x[k].observers ≠ demo.x[k].observers) ∧
    (∃ t, exec (.pcobsdel 3) demo = .next t ∧ t.pc.observers ≠ demo.pc.observers) ∧
    (∃ t, exec (.fobsdel 4) demo = .next t ∧ t.f[1].observers ≠ demo.f[1].observers) ∧
    (∃ t, exec (.csrobsadd 2) demo = .next t ∧ (∀ k : Fin 12, t.csr[k].observers ≠ demo.csr[k].observers) ∧
      ∀ j : Fin 5, t.csrViews[j] ≠ demo.csrViews[j]) ∧
    (∃ t, exec (.obsadd1 2 0) demo = .next t ∧ demo.insts[0]? = some demo.memory ∧ t.insts[0]? = some t.memory ∧
      t.memory.observers ≠ demo.memory.observers) ∧
    ∃ t, exec (.obsdel 1) demo = .next t ∧ demo.insts[0]? = some demo.memory ∧ t.insts[0]? = some t.memory ∧
      t.memory.observers ≠ demo.memory.observers :=
  ⟨next_of (by decide), next_of (by decide), next_of (by decide), next_of (by decide), next_of (by decide),
    next_of (by decide)⟩

/-- A gated command whose answer the gate changes, and one that is not gated. -/
theorem test_witness_InputsGateOnlyGatedCommands :
    (∃ t, exec (.getword 0x00400004) demo = .next t ∧ t.rsp.map Response.status = some .loadTextForbidden) ∧
    (∃ t, exec (.getword 0x00400004) demoOpen = .next t ∧ t.rsp.map Response.status = some .ok) ∧
    ∃ t, exec (.fetch 0x00400004) demo = .next t ∧ t.rsp.map Response.status = some .ok :=
  ⟨next_of (by decide), next_of (by decide), next_of (by decide)⟩

theorem test_witness_OtherCommandsAreSilent : ∃ t, exec (.setrawword 0x10010000 1) demo = .next t ∧ t.notices = [] :=
  next_of (by decide)

/-- The last mapped and the first unmapped number of X and F, x0, and the greatest number. -/
theorem test_witness_IntegerReads : (31 : Index).toNat < 32 ∧ 32 ≤ (32 : Index).toNat ∧
    32 ≤ (0xFFF : Index).toNat := by decide
theorem test_witness_IntegerWrites :
    ((1 : Index).toNat < 32 ∧ (1 : Index) ≠ 0) ∧ ((31 : Index).toNat < 32 ∧ (31 : Index) ≠ 0) ∧ (0 : Index) = 0 ∧
    32 ≤ (32 : Index).toNat := by decide
theorem test_witness_FileResets : demo.Inv ∧ (31 : Fin 32) ≠ 2 ∧
    (31 : Fin 32) ≠ 3 := ⟨test_demo_inv, by decide, by decide⟩
theorem test_witness_FloatReads :
    (31 : Index).toNat < 32 ∧ 32 ≤ (32 : Index).toNat ∧ demo.f[1].value.extractLsb' 32 32 = 0xFFFFFFFF#32 ∧
    demo.f[2].value.extractLsb' 32 32 ≠ 0xFFFFFFFF#32 := by decide
theorem test_witness_FloatWrites :
    (31 : Index).toNat < 32 ∧ 32 ≤ (32 : Index).toNat ∧ ∃ t, exec (.fwrite32 31 0x80000001) demo = .next t :=
  ⟨by decide, by decide, _, rfl⟩

/-- The last address of TEXT and the first one after it. -/
theorem test_witness_PcInitMain :
    classify demo.config 0x004FFFFF = some .text ∧ classify demo.config 0x00500000 ≠ some .text ∧ demo.Inv :=
  ⟨by decide, by decide, test_demo_inv⟩

/-- Numbers beside mapped ones that are not mapped. -/
theorem test_witness_CsrReads :
    (0xC02, 11) ∈ ownCsrs ∧ (0x006 : Index) ∉ csrOrder ∧ (0x045 : Index) ∉ csrOrder ∧ (0xC03 : Index) ∉ csrOrder ∧
    (0xC83 : Index) ∉ csrOrder ∧ (0xFFF : Index) ∉ csrOrder := by decide
theorem test_witness_CsrWrites :
    (0x044, 8) ∈ ownCsrs.take 9 ∧ (linkedCsrs.take 2).map ViewSpec.number = [0x001, 0x002] ∧
    (0x006 : Index) ∉ csrOrder := by
  decide
theorem test_witness_CsrBackdoorWrites :
    (0x000, 0) ∈ ownCsrs ∧ linkedCsrs.map ViewSpec.number = [0x001, 0x002, 0xC80, 0xC81, 0xC82] ∧
    (0xC83 : Index) ∉ csrOrder := by
  decide
theorem test_witness_CsrPositions :
    csrOrder[0]? = some 0x000 ∧ csrOrder[16]? = some 0xC82 ∧ (0xC83 : Index) ∉ csrOrder := by decide

/-- 70_reset_and_hazards.md R294: 0xFF written to fcsr reads as 7 through frm, and 0 written to frm then leaves 0x1F. -/
theorem test_views_alias :
    ∃ t, exec (.csrwrite 0x003 0xFF) demo = .next t ∧
      (∃ u, exec (.csrread 0x002) t = .next u ∧ u.rsp = some ⟨.ok, false, false, 7⟩) ∧
      ∃ u, exec (.csrwrite 0x002 0) t = .next u ∧ ∃ w, exec (.csrread 0x003) u = .next w ∧
        w.rsp = some ⟨.ok, false, false, 0x1F⟩ :=
  ⟨_, rfl, next_of (by decide), _, rfl, next_of (by decide)⟩

/-- CSRWRITE to frm, delivered in the order of the groups. -/
theorem test_witness_BaseNoticesComeFirst :
    ∃ p ∈ linkedCsrs.take 2, ∃ t, exec (.csrwrite p.number 1) demo = .next t ∧ ∃ order, mayDeliver t.notices order :=
  ⟨⟨0x002, 1, 1, 0x003, 5, 3⟩, List.mem_cons_of_mem _ List.mem_cons_self, _, rfl, _, _,
    .cons (.refl _) (.cons (.refl _) .nil), rfl⟩

/-- Addresses of configuration O that lie in two segments and at the bounds (95_test_vectors.md section 0): data before
stack; the empty MMIO holds nothing. -/
theorem test_classify : classify Config.testO 0x2000 = some .data ∧ classify Config.testO 0x2FFF = some .data ∧
    classify Config.testO 0x3000 = some .stack ∧ classify Config.testO 0x3FFF = some .stack ∧
    classify Config.testO 0x4000 = none ∧ classify Config.testO 0x0FFF = some .text := by decide

/-- A halfword across a word boundary in a block that was never written, and an empty slot with the gate open. -/
theorem test_witness_Loads_never_written :
    (demo.Inv ∧ demo.fits .data 0x10011003 2 ∧ ∀ k < 2, demo.word .data (0x10011003 + BitVec.ofNat 32 k) = none) ∧
    demoOpen.Inv ∧ demoOpen.fits .text 0x00400000 4 ∧ demoOpen.smcEn = true ∧
    ∀ k < 4, demoOpen.word .text (0x00400000 + BitVec.ofNat 32 k) = none :=
  ⟨⟨test_demo_inv, ⟨by decide, by decide⟩, by decide⟩, test_demoOpen_inv, ⟨by decide, by decide⟩, by decide, by decide⟩

/-- The commands of the clauses about loads and stores, at addresses where they meet each clause: the last address at which
they fit, the first at which they do not, none, and TEXT with the gate open and closed. -/
theorem test_witness_Loads :
    demo.fits .data 0x103FFFFC 4 ∧ demo.fits .stack 0x7FFFFFFE 2 ∧ demo.fits .mmio 0xFFFF0FFF 1 ∧
    (demoOpen.fits .text 0x004FFFFC 4 ∧ demoOpen.smcEn = true) ∧
    ((3 : BitVec 4) ≠ 1 ∧ (3 : BitVec 4) ≠ 2 ∧ (3 : BitVec 4) ≠ 4) ∧
    (0x10010003 : Addr).toNat % 4 ≠ 0 ∧ (0x10010003 : Addr).toNat % 2 ≠ 0 ∧
    classify demo.config 0x10400000 = none ∧
    (classify demo.config 0x004FFFFC = some .text ∧ demo.smcEn = false) ∧
    (classify demo.config 0x103FFFFD = some .data ∧
    (demo.config.range .data).high.toNat < (0x103FFFFD : Addr).toNat + 4) ∧
    (classify demoOpen.config 0x004FFFFF = some .text ∧ demoOpen.smcEn = true ∧
      (demoOpen.config.range .text).high.toNat < (0x004FFFFF : Addr).toNat + 2) :=
  ⟨⟨by decide, by decide⟩, ⟨by decide, by decide⟩, ⟨by decide, by decide⟩, ⟨⟨by decide, by decide⟩, by decide⟩, by decide,
    by decide, by decide, by decide, by decide, by decide, by decide⟩

theorem test_witness_Stores :
    demo.Inv ∧ demoOpen.Inv ∧ demo.fits .data 0x103FFFFC 4 ∧ demo.fits .stack 0x7FFFFFFE 2 ∧
    demo.fits .mmio 0xFFFF0FFF 1 ∧
    (demoOpen.fits .text 0x00400006 2 ∧ demoOpen.smcEn = true ∧ (0x00400006 : Addr).toNat % 4 + 2 ≤ 4) ∧
    (demo.inSegment .data 0x103FFFFF ∧ demo.inSegment .text 0x00400000) ∧
    ((15 : BitVec 4) ≠ 1 ∧ (15 : BitVec 4) ≠ 2 ∧ (15 : BitVec 4) ≠ 4) ∧
    (0x10010002 : Addr).toNat % 4 ≠ 0 ∧ (0x10010001 : Addr).toNat % 2 ≠ 0 ∧
    classify demo.config 0x0FFFFFFF = none ∧
    (classify demo.config 0x00400004 = some .text ∧ demo.smcEn = false) ∧
    (classify demoOpen.config 0x00400007 = some .text ∧ demoOpen.smcEn = true ∧ 4 < (0x00400007 : Addr).toNat % 4 + 2) ∧
    (Segment.mmio ≠ .text ∧ classify demo.config 0xFFFF0FFD = some .mmio ∧
      (demo.config.range .mmio).high.toNat < (0xFFFF0FFD : Addr).toNat + 4) :=
  ⟨test_demo_inv, test_demoOpen_inv, ⟨by decide, by decide⟩, ⟨by decide, by decide⟩, ⟨by decide, by decide⟩,
    ⟨⟨by decide, by decide⟩, by decide, by decide⟩, ⟨rfl, rfl⟩, by decide, by decide, by decide, by decide,
    by decide, by decide, by decide⟩

/-- Completed stores of the first clause: across a word boundary, a halfword in TEXT with the gate open, a silent one,
an aligned SET of a word, an INSTALL with the gate closed; the premises of the loads of a word and of FETCH after them. -/
theorem test_witness_LoadAfterStore_lengths :
    (demo.Inv ∧ ∃ t, exec (.set 4 0x10010003 0x80000001) demo = .next t ∧ t.rsp.map Response.status = some .ok) ∧
    (demoOpen.Inv ∧ ∃ t, exec (.sethalf 0x00400006 0xBEEF) demoOpen = .next t ∧ t.rsp.map Response.status = some .ok) ∧
    (∃ t, exec (.setrawword 0xFFFF0FFC 1) demo = .next t ∧ t.rsp.map Response.status = some .ok) ∧
    (∃ t, exec (.set 4 0x10010000 1) demo = .next t ∧ t.rsp.map Response.status = some .ok) ∧
    ((0x10010000 : Addr).toNat % 4 = 0 ∧ classify demo.config 0x10010000 ≠ some .text) ∧
    (∃ t, exec (.install 0x004FFFFC 1) demo = .next t ∧ t.rsp.map Response.status = some .ok) ∧
    ((0x004FFFFC : Addr).toNat % 4 = 0 ∧ classify demo.config 0x004FFFFC = some .text) :=
  ⟨⟨test_demo_inv, next_of (by decide)⟩, ⟨test_demoOpen_inv, next_of (by decide)⟩, next_of (by decide), next_of (by decide),
    by decide, next_of (by decide), by decide⟩

/-- A store in TEXT with the gate open, and one in the stack. -/
theorem test_witness_LoadAfterStore :
    (demoOpen.Inv ∧ classify demoOpen.config 0x004FFFFC = some .text ∧ demoOpen.smcEn = true ∧
      ∃ t, exec (.setword 0x004FFFFC 1) demoOpen = .next t) ∧
    demo.Inv ∧ classify demo.config 0x7FC00000 = some .stack ∧ ∃ t, exec (.setword 0x7FC00000 1) demo = .next t :=
  ⟨⟨test_demoOpen_inv, by decide, by decide, _, rfl⟩, test_demo_inv, by decide, _, rfl⟩

theorem test_witness_RawWordReads :
    demo.Inv ∧ (0x10010001 : Addr).toNat % 4 ≠ 0 ∧ ((0x10400000 : Addr).toNat % 4 = 0 ∧
    classify demo.config 0x10400000 = none) ∧
    ((0x00400000 : Addr).toNat % 4 = 0 ∧ classify demo.config 0x00400000 = some .text) :=
  ⟨test_demo_inv, by decide, by decide, by decide⟩

/-- The last word of a block that was written, and the first word of the next one. -/
theorem test_witness_NullReads :
    demo.Inv ∧ (0x10010001 : Addr).toNat % 4 ≠ 0 ∧ classify demo.config 0x10400000 = none ∧
    (classify demo.config 0x10010FFC = some .data ∧ demo.word .data 0x10010FFC = some 0) ∧
    (classify demo.config 0x10011000 = some .data ∧ demo.word .data 0x10011000 = none) :=
  ⟨test_demo_inv, by decide, by decide, by decide, by decide⟩

theorem test_witness_Fetches :
    (0x00400002 : Addr).toNat % 4 ≠ 0 ∧ classify demo.config 0x10010000 ≠ some .text ∧
    (classify demo.config 0x00400000 = some .text ∧ demo.word .text 0x00400000 = none) ∧
    (classify demo.config 0x00400004 = some .text ∧ demo.word .text 0x00400004 = some 0x13) := by decide

theorem test_witness_Installs :
    demo.Inv ∧ (0x00400002 : Addr).toNat % 4 ≠ 0 ∧
    ((0x00500000 : Addr).toNat % 4 = 0 ∧ classify demo.config 0x00500000 ≠ some .text) ∧
    ((0x004FFFFC : Addr).toNat % 4 = 0 ∧ classify demo.config 0x004FFFFC = some .text) ∧
    demo.inSegment .text 0x004FFFFF :=
  ⟨test_demo_inv, by decide, by decide, by decide, rfl⟩

theorem test_witness_NoticesFollowTheTouchedWord :
    demo.Inv ∧ memoryNotices demo .read 0x10010003 1 0 ≠ [] ∧ memoryNotices demo .read 0x10010004 1 0 = [] ∧
    (∃ t, exec (.getword 0x10010000) demo = .next t ∧ ∃ r, t.rsp = some r ∧ r.status = .ok) ∧
    ∃ t, exec (.setword 0x10010000 1) demo = .next t ∧ ∃ r, t.rsp = some r ∧ r.status = .ok :=
  ⟨test_demo_inv, by decide, by decide, ⟨_, rfl, _, rfl, rfl⟩, _, rfl, _, rfl, rfl⟩

/-- An instance without registrations. The store then starts at the last byte of the observed word, in the word before it
from which it spills into it, or it is a silent one; all complete. -/
theorem test_witness_OneWordObserver :
    ∃ s : State, s.Inv ∧ s.memory.observers = [] ∧ ∃ t, exec (.obsadd1 1 0x10010003) s = .next t ∧
      ∀ i ∈ [Instr.set 4 0x10010003 1, .set 2 0x1000FFFF 1, .setrawword 0x10010000 1, .install 0x00400000 1],
        ∃ u, exec i t = .next u ∧ u.rsp.map Response.status = some .ok :=
  ⟨(demo.setMemory (Memory.fresh Config.testT [])),
    inv_setMemory test_demo_inv _ ⟨by decide, by decide, by decide, by decide⟩ (by decide), by decide, _, rfl, by
      simp only [List.forall_mem_cons]
      exact ⟨next_of (by decide), next_of (by decide), next_of (by decide), next_of (by decide), by simp⟩⟩

/-- Negative sizes, the sizes that reach DATA_HIGH exactly, and those that pass it. -/
theorem test_witness_Allocates :
    (0x80000000 : Word32).toInt < 0 ∧ (0xFFFFFFFF : Word32).toInt < 0 ∧
    (0 ≤ (0x003BFFFD : Word32).toInt ∧
      demo.config.data.high.toNat < demo.memory.heap.toNat + ((0x003BFFFD : Word32).toNat + 3) / 4 * 4) ∧
    (0 ≤ (0x003BFFFC : Word32).toInt ∧
      demo.memory.heap.toNat + ((0x003BFFFC : Word32).toNat + 3) / 4 * 4 ≤ demo.config.data.high.toNat) := by decide

/-- A scan that stops at the limit, one that runs out of the segments, and one that finds a word. -/
theorem test_witness_FirstNullScans :
    (0x10010001 : Addr).toNat % 4 ≠ 0 ∧
    (∀ j < 1, (0x10010FFC : Addr).toNat + 4 * j < (0x10011FFF : Addr).toNat ∧ ∃ S w,
      classify demo.config (BitVec.ofNat 32 ((0x10010FFC : Addr).toNat + 4 * j)) = some S ∧
      demo.word S (BitVec.ofNat 32 ((0x10010FFC : Addr).toNat + 4 * j)) = some w) ∧
    (0x10011000 : Addr).toNat ≤ (0x10010FFC : Addr).toNat + 4 * 1 ∧
    (demo.word .data (BitVec.ofNat 32 ((0x10010FFC : Addr).toNat + 4 * 1)) = none ∧
      classify demo.config (BitVec.ofNat 32 ((0x10010FFC : Addr).toNat + 4 * 1)) = some .data) ∧
    ((0x10400000 : Addr).toNat + 4 * 0 < (0x10400001 : Addr).toNat ∧
      classify demo.config (BitVec.ofNat 32 ((0x10400000 : Addr).toNat + 4 * 0)) = none) := by
  refine ⟨by decide, ?_, by decide, by decide, by decide⟩
  intro j hj
  obtain rfl : j = 0 := by omega
  exact ⟨by decide, .data, 0, by decide, by decide⟩

theorem test_witness_MemoryCleared : demo.Inv := test_demo_inv

theorem test_witness_InstancesCopied :
    demo.insts.length ≤ (3 : Index).toNat ∧
    ∃ h : (2 : Index).toNat < demo.insts.length, ∃ h' : (1 : Index).toNat < demo.insts.length,
      demo.insts[(2 : Index).toNat].dims ≠ demo.memory.dims ∧ demo.insts[(1 : Index).toNat].dims = demo.memory.dims :=
  ⟨by decide, by decide, by decide, by decide, by decide⟩

theorem test_witness_InstancesSwapped :
    demo.insts.length ≤ (3 : Index).toNat ∧
    ∃ h : (2 : Index).toNat < demo.insts.length, ∃ h' : (1 : Index).toNat < demo.insts.length,
      demo.insts[(2 : Index).toNat].dims ≠ dimsOf demo.config ∧
      demo.insts[(1 : Index).toNat].dims = dimsOf demo.config :=
  ⟨by decide, by decide, by decide, by decide, by decide⟩

/-- An inverted range, one that straddles, the two that end and begin at 0x80000000. -/
theorem test_witness_MemoryObserversRegistered :
    (4 : Addr).toNat < (5 : Addr).toNat ∧
    ((0x7FFFFFFF : Addr).toNat < 0x80000000 ∧ 0x80000000 ≤ (0x80000000 : Addr).toNat) ∧
    demo.active < demo.insts.length ∧
    ((0 : Addr).toNat ≤ (0x7FFFFFFF : Addr).toNat ∧
      ¬((0 : Addr).toNat < 0x80000000 ∧ 0x80000000 ≤ (0x7FFFFFFF : Addr).toNat)) ∧
    ((0x80000000 : Addr).toNat ≤ (0xFFFFFFFF : Addr).toNat ∧
      ¬((0x80000000 : Addr).toNat < 0x80000000 ∧ 0x80000000 ≤ (0xFFFFFFFF : Addr).toNat)) := by decide

theorem test_witness_ConfigurationSelected :
    demo.cfgs.length ≤ (2 : Index).toNat ∧ ((0 : Index).toNat < demo.cfgs.length ∧ (0 : Index).toNat = demo.cur) ∧
    ((1 : Index).toNat < demo.cfgs.length ∧ (1 : Index).toNat ≠ demo.cur ∧ demo.active < demo.insts.length) := by decide

/-- A table that is full and one that is not; a duplicate and a new entry; both widths; a hart that is not there. -/
theorem test_witness_ReservationsRecorded :
    ((0 : BitVec 4) ≠ 4 ∧ (0 : BitVec 4) ≠ 8) ∧ demo.rsv.length ≤ (2 : Index).toNat ∧
    (4#4, Width.word) ∈ [(4#4, Width.word), (8#4, Width.doubleword)] ∧
    (8#4, Width.doubleword) ∈ [(4#4, Width.word), (8#4, Width.doubleword)] ∧
    (0x44 : Addr).toNat % (8#4).toNat ≠ 0 ∧
    ∃ h : (1 : Index).toNat < demo.rsv.length, (0x20 : Addr).toNat % (8#4).toNat = 0 ∧
      (⟨0x20, .doubleword⟩ ∈ demo.rsv[(1 : Index).toNat] ∧ ⟨0x20, .word⟩ ∉ demo.rsv[(1 : Index).toNat] ∧
        demo.rsv[(1 : Index).toNat].length = 8) := by
  exact ⟨by decide, by decide, by decide, by decide, by decide, by decide, by decide, by decide, by decide, by decide⟩

/-- A table with a matching entry and one without. -/
theorem test_witness_UnreservesOnMatch :
    ((15 : BitVec 4) ≠ 4 ∧ (15 : BitVec 4) ≠ 8) ∧ demo.rsv.length ≤ (2 : Index).toNat ∧
    (0x24 : Addr).toNat % (8#4).toNat ≠ 0 ∧
    ∃ (h : (0 : Index).toNat < demo.rsv.length) (h' : (1 : Index).toNat < demo.rsv.length),
      (0x24 : Addr).toNat % (4#4).toNat = 0 ∧
      (∀ e ∈ demo.rsv[(0 : Index).toNat], reservationMatches e 0x24 .word = false) ∧
      ∃ e ∈ demo.rsv[(1 : Index).toNat], reservationMatches e 0x24 .word = true := by
  exact ⟨by decide, by decide, by decide, by decide, by decide, by decide, by decide, ⟨0x20, .doubleword⟩, by decide, by decide⟩

theorem test_witness_FirstStoreConditionalWins :
    ((4 : BitVec 4) = 4 ∨ (4 : BitVec 4) = 8) ∧ (0x10010004 : Addr).toNat % (4 : BitVec 4).toNat = 0 ∧
    (0 : Index).toNat < demo.rsv.length ∧ (1 : Index).toNat < demo.rsv.length ∧ (0 : Index) ≠ 1 := by decide

end Sys2Proof.Tests
end

/-! PROOFS. Classification and the notices of memory accesses (20_memory.md R62, R74). -/

namespace Sys2Proof.Machine

/-! ## Classification -/

/-- Classification in terms of the containment test: the segment contains the address, and none that is tested before it
does (20_memory.md R62). -/
theorem classify_eq_some_iff (c : MemConfig) (a : Addr) (S : Segment) :
    classify c a = some S ↔ rangeContains (c.range S) a = true ∧
      ∀ S', (S', S) ∈ [(Segment.data, Segment.stack), (.data, .mmio), (.data, .text), (.stack, .mmio),
          (.stack, .text), (.mmio, .text)] → ¬rangeContains (c.range S') a = true := by
  unfold classify
  split
  · next hdata => cases S <;> simp [MemConfig.range, hdata]
  · next hdata =>
    split
    · next hstack => cases S <;> simp [MemConfig.range, hdata, hstack]
    · next hstack =>
      split
      · next hmmio => cases S <;> simp [MemConfig.range, hdata, hstack, hmmio]
      · next hmmio => cases S <;> simp [MemConfig.range, hdata, hstack, hmmio]

/-- Settles O41: the containment test is the half-open interval in natural numbers. -/
theorem classificationPriority : Obligations.ClassificationPriority := by
  unfold Obligations.ClassificationPriority
  intro c a S
  simp only [← rangeContains_iff]
  exact classify_eq_some_iff c a S

/-! ## Notices -/

/-- A legal registration's range is not inverted (10_state.md R43). -/
theorem MemObserver.start_le_stop_of_legal {o : MemObserver} (h : o.legal = true) : o.start.toNat ≤ o.stop.toNat := by
  simp only [MemObserver.legal, Bool.and_eq_true, decide_eq_true_eq, BitVec.le_def] at h
  exact h.1

/-- With legal registrations, `notify_mem` reaches those that meet the word of the first byte (20_memory.md R74). -/
theorem memoryNotices_eq_of_legal (s : State) (kind : AccessKind) (a : Addr) (n : Nat) (v : Word32)
    (h : ∀ o ∈ s.memory.observers, o.legal = true) :
    memoryNotices s kind a n v =
      (s.memory.observers.filter fun o =>
        decide (∃ p < 4, o.start.toNat ≤ a.toNat / 4 * 4 + p ∧ a.toNat / 4 * 4 + p ≤ o.stop.toNat)).map fun o =>
          { kind := kind, space := .mem, obs := o.obs, len := BitVec.ofNat 4 n, id := a, value := v } := by
  unfold memoryNotices
  congr 1
  refine List.filter_congr fun o ho => ?_
  rw [Bool.eq_iff_iff, decide_eq_true_iff]
  exact observes_iff o a (MemObserver.start_le_stop_of_legal (h o ho))

/-- The status of a raised error is at the port (60_exceptions.md R272). -/
theorem status_of_raise {s t : State} {e : Status} {a : Addr} {r : Response} (h : raise s e a = .next t)
    (hr : t.rsp = some r) : r.status = e := by
  cases h
  cases hr
  rfl

/-- Everything a notified load can do: fail and leave the ports, or answer what the gated read gives, with the notices
of the value it answers (44_memory_access.md R200). -/
theorem loadBytes_cases (s : State) (a : Addr) (n : Nat) :
    (∃ e, loadBytes s a n = raise s e a ∧ e ≠ .ok) ∨
    ∃ v, gatedRead s a n = .ok v ∧
      loadBytes s a n = respond s (okResponse (v.setWidth 64)) [memoryNotices s .read a n v] := by
  simp only [loadBytes]
  rcases gatedRead_cases s a n with ⟨e, he, haddr, hstatus⟩ | ⟨S, -, -, -, he⟩ <;> rw [he]
  · refine .inl ⟨e.status, by rw [← haddr], ?_⟩
    rcases hstatus with h | h <;> rw [h] <;> decide
  · exact .inr ⟨_, rfl, rfl⟩

/-- A load that completes emits the READ notices of the value it answers (20_memory.md R75). -/
theorem loadBytes_notices {s t : State} {a : Addr} {n : Nat} {r : Response} (h : loadBytes s a n = .next t)
    (hr : t.rsp = some r) (hok : r.status = .ok) :
    t.notices = [memoryNotices s .read a n (r.data.setWidth 32)] := by
  rcases loadBytes_cases s a n with ⟨e, he, hne⟩ | ⟨v, -, he⟩ <;> rw [he] at h
  · exact absurd ((status_of_raise h hr).symm.trans hok) hne
  · cases h
    cases hr
    simp [okResponse]

/-- A store that completes emits the WRITE notices of the bytes it stores (20_memory.md R75). -/
theorem storeBytes_notices {s t : State} {a : Addr} {n : Nat} {v : Word32} {r : Response}
    (h : storeBytes s a n v = .next t) (hr : t.rsp = some r) (hok : r.status = .ok) :
    t.notices = [memoryNotices s .write a n (truncBytes n v)] := by
  rcases storeBytes_next s a n v with ⟨e, he, hne⟩ | ⟨m, prev, -, he⟩ <;> rw [he] at h
  · exact absurd ((status_of_raise h hr).symm.trans hok) hne
  · cases h
    rfl

/-- A word's four bytes are the whole word. -/
theorem truncBytes_four (v : Word32) : truncBytes 4 v = v := by
  rw [truncBytes_eq 4 (by decide) v, Nat.mod_eq_of_lt (show v.toNat < 256 ^ 4 from v.isLt), BitVec.ofNat_toNat,
    BitVec.setWidth_eq]

/-- GETWORD, where it completes, emits the notices of a four-byte read (44_memory_access.md R202). -/
theorem getword_notices {s t : State} {a : Addr} {r : Response} (h : exec (.getword a) s = .next t)
    (hr : t.rsp = some r) (hok : r.status = .ok) :
    t.notices = [memoryNotices s .read a 4 (r.data.setWidth 32)] := by
  replace h : execGetword a s = .next t := h
  unfold execGetword at h
  split at h
  · exact loadBytes_notices h hr hok
  · exact absurd ((status_of_raise h hr).symm.trans hok) (by decide)

/-- SETWORD, where it completes, emits the notices of a four-byte write (44_memory_access.md R203). -/
theorem setword_notices {s t : State} {a : Addr} {v : Word32} {r : Response} (h : exec (.setword a v) s = .next t)
    (hr : t.rsp = some r) (hok : r.status = .ok) : t.notices = [memoryNotices s .write a 4 v] := by
  replace h : execSetword a v s = .next t := h
  unfold execSetword at h
  split at h
  · rw [storeBytes_notices h hr hok, truncBytes_four]
  · exact absurd ((status_of_raise h hr).symm.trans hok) (by decide)

/-- Settles O49: every registration of an invariant state is legal, and GETWORD and SETWORD end in a notified load and a
notified store. -/
theorem noticesFollowTheTouchedWord : Obligations.NoticesFollowTheTouchedWord := by
  unfold Obligations.NoticesFollowTheTouchedWord
  constructor
  · intro s kind a n v hinv
    exact memoryNotices_eq_of_legal s kind a n v (inv_memory hinv).observers
  · intro s t a v r hok hr
    exact ⟨fun h => getword_notices h hr hok, fun h => setword_notices h hr hok⟩

end Sys2Proof.Machine

/-! PROOFS. The used fields of a command word, and the pseudo-commands (30_encoding.md R101, R112, R113). -/

namespace Sys2Proof.Machine

/-! ## A command word is its fields -/

/-- Two packed words are equal exactly if their fields are (30_encoding.md R100). -/
theorem packCommand_inj {op op' : BitVec 8} {len len' : BitVec 4} {idx idx' : BitVec 12} {addr addr' : Addr}
    {data data' : Word64} :
    packCommand op len idx addr data = packCommand op' len' idx' addr' data' ↔
      op = op' ∧ len = len' ∧ idx = idx' ∧ addr = addr' ∧ data = data' := by
  constructor
  · intro h
    exact ⟨by simpa using congrArg opField h, by simpa using congrArg lenField h, by simpa using congrArg idxField h,
      by simpa using congrArg addrField h, by simpa using congrArg dataField h⟩
  · rintro ⟨rfl, rfl, rfl, rfl, rfl⟩
    rfl

/-- An operand narrower than `data` can be read back from it. -/
theorem setWidth_dataWidth_inj {n : Nat} (hn : n ≤ 64) {v v' : BitVec n} :
    v.setWidth 64 = v'.setWidth 64 ↔ v = v' :=
  ⟨fun h => by simpa [hn] using congrArg (BitVec.setWidth n) h, congrArg _⟩

/-- PCINITM's two operands can be read back from its `data` (30_encoding.md R108). -/
theorem mainOperand_inj {d d' : Bool} {a a' : Addr} : mainOperand d a = mainOperand d' a' ↔ d = d' ∧ a = a' := by
  constructor
  · intro h
    exact ⟨by simpa using congrArg (·[32]) h, by simpa using congrArg (BitVec.setWidth 32) h⟩
  · rintro ⟨rfl, rfl⟩
    rfl

/-! ## The decoder reads the used bits, the encoder writes only them

Below, `BitVec.reduceAllOnes` is off in `simp`, so that the mask of a whole field stays `allOnes` and
`BitVec.and_allOnes` applies. -/

/-- The encoder writes nothing outside the used bits: each field lies under the mask of its command (30_encoding.md
R101). -/
theorem encode_and_usedBits (i : Instr) : encode i &&& usedBits i = encode i := by
  cases i <;>
    simp [encode, usedBits_eq, and_pack, BitVec.and_allOnes, -BitVec.reduceAllOnes, and_low32, and_low16, and_main]

/-- The decoder answers the real commands only (30_encoding.md R112). -/
theorem canonical_of_decode {w : CommandWord} {i : Instr} (h : decode w = .ok i) : i.canonical = i := by
  unfold decode at h
  split at h <;> cases h <;> rfl

/-- A word is, at the bits its command uses, the encoding of that command: row by row of the opcode map, where `op` is
the row's and each operand is the field the encoder writes it to (30_encoding.md R101, R107). -/
theorem encode_of_decode {w : CommandWord} {i : Instr} (h : decode w = .ok i) : encode i = w &&& usedBits i := by
  unfold decode at h
  split at h <;> cases h
  all_goals
    rename_i hrow
    have hop := congrArg (BitVec.ofNat 8) hrow
    rw [BitVec.ofNat_toNat, BitVec.setWidth_eq] at hop
    simp [hop, encode, usedBits_eq, and_pack, BitVec.and_allOnes, -BitVec.reduceAllOnes, and_low32, and_low16,
      and_main, data32Field_eq, data16Field_eq, mainDefinedField_eq]

/-- A word that is, at the bits a real command uses, the encoding of that command decodes to it: equal words have equal
fields, and the decoder reads no others (30_encoding.md R101, R107). -/
theorem decode_of_encode_eq {w : CommandWord} {i : Instr} (hreal : i.canonical = i) (h : encode i = w &&& usedBits i) :
    decode w = .ok i := by
  rw [usedBits_eq] at h
  cases i
  case getbyte | setbyte | obsadd1 => cases hreal
  all_goals
    simp only [encode, and_pack, BitVec.and_allOnes, -BitVec.reduceAllOnes, BitVec.ofNat_eq_ofNat, and_low32,
      and_low16, and_main, packCommand_inj, setWidth_dataWidth_inj (show 16 ≤ 64 by decide),
      setWidth_dataWidth_inj (show 32 ≤ 64 by decide), mainOperand_inj] at h
    simp [decode, ← h, data32Field_eq, data16Field_eq, mainDefinedField_eq]

/-- Settles O2: a decoded word is the command's encoding at the used bits, and any word with those bits decodes to that
command. -/
theorem unusedFieldsAreIgnored : Obligations.UnusedFieldsAreIgnored := by
  unfold Obligations.UnusedFieldsAreIgnored
  refine ⟨fun i => ?_, fun w i h => ⟨encode_of_decode h, fun w' hw' => ?_⟩⟩
  · rw [← encode_and_usedBits, BitVec.and_assoc]
    simp
  · exact decode_of_encode_eq (canonical_of_decode h) ((encode_of_decode h).trans hw'.symm)

/-! ## Pseudo-commands -/

/-- A pseudo-command does what the command it spells does (30_encoding.md R112). -/
theorem exec_canonical (i : Instr) (s : State) : exec i s = exec i.canonical s := by
  cases i with
  | getbyte addr => exact (rfl : execGetbyte addr s = execGet 1 addr s)
  | setbyte addr value => exact (rfl : execSetbyte addr value s = execSet 1 addr value s)
  | obsadd1 obs addr => exact (rfl : execObsadd1 obs addr s = execObsadd obs addr addr s)
  | _ => rfl

/-- A pseudo-command is encoded as the command it spells (30_encoding.md R112). -/
theorem encode_canonical (i : Instr) : encode i = encode i.canonical := by
  cases i <;> rfl

/-- Settles O5: a pseudo-command has the meaning and the encoding of the command it spells, and no row of the decoder
answers one. -/
theorem pseudoCommandsAreSpellings : Obligations.PseudoCommandsAreSpellings := by
  unfold Obligations.PseudoCommandsAreSpellings
  exact ⟨fun i s => ⟨exec_canonical i s, encode_canonical i⟩, fun _ _ _ => ⟨rfl, rfl, rfl⟩,
    fun _ _ => canonical_of_decode⟩

/-! ## The spec's examples -/

/-- Settles O4: the decoder and the encoder compute the five closed words. -/
theorem specExampleWords : Obligations.SpecExampleWords := by
  unfold Obligations.SpecExampleWords
  decide

end Sys2Proof.Machine

/-! PROOFS. The integer file and the pc (41_integer_file_and_pc.md), and the resets and observers of the three files. -/

namespace Sys2Proof.Machine

/-! ## The op of a command -/

/-- A real command has the op it is packed with, and the decoder reads the command back (30_encoding.md R107). -/
theorem hasOpcode_of_encode {i : Instr} {op : BitVec 8} {len : BitVec 4} {idx : BitVec 12} {addr : Addr} {data : Word64}
    (hreal : i.canonical = i) (h : encode i = packCommand op len idx addr data) : hasOpcode op i := by
  refine ⟨?_, decode_of_encode_eq hreal (encode_and_usedBits i).symm⟩
  rw [h, opField_pack]

/-! ## The ends of register commands -/

/-- A register command on an unmapped number ends in the absent answer (40_register_cells.md R142). -/
theorem onCell_of_none {s : State} {found : Option CellRef} (command : CellRef → Result) (h : found = none) :
    onCell s found command = .next s.absent := by
  rw [h]
  rfl

/-- A register command on a mapped number acts on the cell (40_register_cells.md R142). -/
theorem onCell_of_some {s : State} {found : Option CellRef} {r : CellRef} (command : CellRef → Result)
    (h : found = some r) : onCell s found command = command r := by rw [h, onCell_some]

/-- A notified read answers the cell's value and changes nothing (40_register_cells.md R132). -/
theorem respondAccess_cellGet (s : State) (r : CellRef) :
    respondAccess (cellGet s r) =
      .next (s.ends ⟨.ok, false, false, cellPeek s r⟩ [registerNotices s .read r]) := rfl

/-- A notified write to a cell without masked bits stores the whole value (40_register_cells.md R133). -/
theorem respondAccess_cellSet_own (s : State) (h : Home) (v : Word64) (hk : keptBits h = 0) :
    respondAccess (cellSet s (.own h) v) =
      .next ((s.setValue h v).ends ⟨.ok, false, false, (s.cell h).value⟩ [registerNotices s .write (.own h)]) := by
  have hstore : storeOwn s h v = s.setValue h v := by rw [storeOwn_eq, hk, mergeKept_zero]
  rw [← hstore]
  rfl

/-- A backdoor write to a cell that owns storage stores the whole value silently (40_register_cells.md R136). -/
theorem respondAccess_cellSetBackdoor_own (s : State) (h : Home) (v : Word64) :
    respondAccess (cellSetBackdoor s (.own h) v) =
      .next ((s.setValue h v).ends ⟨.ok, false, false, (s.cell h).value⟩ []) := rfl

/-! ## Reads and writes of the integer file -/

/-- Settles O26: the lookup maps exactly the numbers below 32, and a read of the cell found changes nothing. -/
theorem integerReads : Obligations.IntegerReads := by
  unfold Obligations.IntegerReads
  intro s idx
  refine ⟨hasOpcode_of_encode rfl rfl, hasOpcode_of_encode rfl rfl, fun hlt => ?_, fun hge => ?_⟩
  · rw [← registerNotices_x s .read idx hlt]
    have hfound := lookupX_of_lt idx hlt
    exact ⟨onCell_of_some _ hfound, onCell_of_some _ hfound⟩
  · have hnone := lookupX_of_ge idx hge
    exact ⟨onCell_of_none _ hnone, onCell_of_none _ hnone⟩

/-- XWRITE and XWRITEB to x0 are discarded without a notice (41_integer_file_and_pc.md R152, R153). -/
theorem exec_xwrite_x0 (s : State) {idx : Index} (data : Word64) (h0 : idx = 0) :
    exec (.xwrite idx data) s = .next (s.ends ⟨.ok, false, false, 0⟩ []) ∧
      exec (.xwriteb idx data) s = .next (s.ends ⟨.ok, false, false, 0⟩ []) := by
  have hfound := lookupX_of_lt idx (by rw [h0]; decide)
  exact ⟨(onCell_of_some _ hfound).trans (if_pos h0), (onCell_of_some _ hfound).trans (if_pos h0)⟩

/-- Settles O27: a mapped number other than 0 is a cell without masked bits, so both writes store the whole value. -/
theorem integerWrites : Obligations.IntegerWrites := by
  unfold Obligations.IntegerWrites
  intro s idx data
  refine ⟨hasOpcode_of_encode rfl rfl, hasOpcode_of_encode rfl rfl, fun hlt hne => ?_, exec_xwrite_x0 s data,
    fun hge => ?_⟩
  · rw [← registerNotices_x s .write idx hlt]
    have hfound := lookupX_of_lt idx hlt
    exact ⟨((onCell_of_some _ hfound).trans (if_neg hne)).trans (respondAccess_cellSet_own s _ data (keptBits_x _)),
      ((onCell_of_some _ hfound).trans (if_neg hne)).trans (respondAccess_cellSetBackdoor_own s _ data)⟩
  · have hnone := lookupX_of_ge idx hge
    exact ⟨onCell_of_none _ hnone, onCell_of_none _ hnone⟩

/-! ## Resets of the three files -/

/-- A file reset gives every cell its reset value (40_register_cells.md R139). -/
theorem mapAll_resetCell {n : Nat} (v : Vector Cell n) :
    mapAll resetCell v = v.map fun c => { c with value := c.reset } := mapAll_eq_map resetCell v

/-- Under the invariant, the three files have the reset values of the current configuration (10_state.md R26). -/
theorem inv_resets {s : State} (h : s.Inv) :
    s.x[2].reset = s.config.spReset.setWidth 64 ∧ s.x[3].reset = s.config.gpReset.setWidth 64 ∧
      (∀ i : Fin 32, i ≠ 2 → i ≠ 3 → s.x[i].reset = 0) ∧ (∀ i : Fin 32, s.f[i].reset = 0) ∧
      ∀ k : Fin 12, s.csr[k].reset = 0 := by
  refine ⟨h.resets (.x 2), h.resets (.x 3), fun i h2 h3 => ?_, fun i => h.resets (.f i), fun k => h.resets (.csr k)⟩
  have hx := h.resets (.x i)
  rwa [resetValue, if_neg h2, if_neg h3] at hx

/-- Settles O28: each reset maps over its own file, and the invariant fixes the reset values. -/
theorem fileResets : Obligations.FileResets := by
  unfold Obligations.FileResets
  refine ⟨hasOpcode_of_encode rfl rfl, hasOpcode_of_encode rfl rfl, hasOpcode_of_encode rfl rfl, fun s => ?_⟩
  simp only [← mapAll_resetCell]
  exact ⟨rfl, rfl, rfl, inv_resets⟩

/-! ## Observers of the files and of the pc -/

/-- A set with one observer more (41_integer_file_and_pc.md R155). -/
def HasAlso (o : ObserverId) (l l' : List ObserverId) : Prop := ∀ p, p ∈ l' ↔ p ∈ l ∨ p = o

/-- A set with one observer less (41_integer_file_and_pc.md R156). -/
def HasNoMore (o : ObserverId) (l l' : List ObserverId) : Prop := ∀ p, p ∈ l' ↔ p ∈ l ∧ p ≠ o

/-- A cell that keeps its value and its reset value while its set of observers changes as said. -/
def ObserversChange (change : List ObserverId → List ObserverId → Prop) (c c' : Cell) : Prop :=
  c'.value = c.value ∧ c'.reset = c.reset ∧ change c.observers c'.observers

theorem addObserver_hasAlso (o : ObserverId) (l : List ObserverId) : HasAlso o l (addObserver o l) :=
  fun p => (mem_addObserver o p l).trans or_comm

theorem removeObserver_hasNoMore (o : ObserverId) (l : List ObserverId) : HasNoMore o l (removeObserver o l) :=
  fun p => mem_removeObserver o p l

theorem observeCell_hasAlso (o : ObserverId) (c : Cell) : ObserversChange (HasAlso o) c (observeCell o c) :=
  ⟨rfl, rfl, addObserver_hasAlso o c.observers⟩

theorem unobserveCell_hasNoMore (o : ObserverId) (c : Cell) : ObserversChange (HasNoMore o) c (unobserveCell o c) :=
  ⟨rfl, rfl, removeObserver_hasNoMore o c.observers⟩

/-- What holds of every cell after a change holds of every cell of a file to which the change is applied. -/
theorem forall_mapAll {α : Type} {n : Nat} (P : α → α → Prop) {g : α → α} (h : ∀ a, P a (g a))
    (v : Vector α n) (i : Fin n) : P v[i] (mapAll g v)[i] := by
  rw [Fin.getElem_fin (mapAll g v), getElem_mapAll]
  exact h v[i]

/-- Settles O29: each command attaches the observer to every cell of its file, and the views' sets likewise. -/
theorem observersAttached : Obligations.ObserversAttached := by
  unfold Obligations.ObserversAttached
  intro s o
  refine ⟨hasOpcode_of_encode rfl rfl, hasOpcode_of_encode rfl rfl, hasOpcode_of_encode rfl rfl,
    hasOpcode_of_encode rfl rfl, ⟨_, rfl, rfl, rfl, rfl, ?integer⟩,
    ⟨_, rfl, rfl, rfl, rfl, observeCell_hasAlso o s.pc⟩,
    ⟨_, rfl, rfl, rfl, rfl, ?float⟩, _, rfl, rfl, rfl, rfl, ?csr, ?views⟩
  case integer => exact forall_mapAll (ObserversChange (HasAlso o)) (observeCell_hasAlso o) s.x
  case float => exact forall_mapAll (ObserversChange (HasAlso o)) (observeCell_hasAlso o) s.f
  case csr => exact forall_mapAll (ObserversChange (HasAlso o)) (observeCell_hasAlso o) s.csr
  case views => exact forall_mapAll (HasAlso o) (addObserver_hasAlso o) s.csrViews

/-- Settles O30: each command detaches the observer from every cell of its file, and the views' sets likewise. -/
theorem observersDetached : Obligations.ObserversDetached := by
  unfold Obligations.ObserversDetached
  intro s o
  refine ⟨hasOpcode_of_encode rfl rfl, hasOpcode_of_encode rfl rfl, hasOpcode_of_encode rfl rfl,
    hasOpcode_of_encode rfl rfl, ⟨_, rfl, rfl, rfl, rfl, ?integer⟩,
    ⟨_, rfl, rfl, rfl, rfl, unobserveCell_hasNoMore o s.pc⟩,
    ⟨_, rfl, rfl, rfl, rfl, ?float⟩, _, rfl, rfl, rfl, rfl, ?csr, ?views⟩
  case integer => exact forall_mapAll (ObserversChange (HasNoMore o)) (unobserveCell_hasNoMore o) s.x
  case float => exact forall_mapAll (ObserversChange (HasNoMore o)) (unobserveCell_hasNoMore o) s.f
  case csr => exact forall_mapAll (ObserversChange (HasNoMore o)) (unobserveCell_hasNoMore o) s.csr
  case views => exact forall_mapAll (HasNoMore o) (removeObserver_hasNoMore o) s.csrViews

/-! ## The pc -/

/-- A notified write of the pc stores the value, unchecked, and answers the old one (41_integer_file_and_pc.md R159). -/
theorem exec_pcset (s : State) (v : Word64) :
    exec (.pcset v) s = .next (State.ends { s with pc := { s.pc with value := v } }
      ⟨.ok, false, false, s.pc.value⟩ [cellNotices .write .pc 0xFFFFFFFF s.pc.observers]) :=
  respondAccess_cellSet_own s .pc v keptBits_pc

/-- The step of PCINC wraps at 64 bits (41_integer_file_and_pc.md R161). -/
theorem add_instructionLength (v : Word64) : v + instructionLength = BitVec.ofNat 64 ((v.toNat + 4) % 2 ^ 64) :=
  BitVec.eq_of_toNat_eq (by simp [instructionLength])

/-- PCINC is PCSET to the old pc plus 4 (41_integer_file_and_pc.md R161). -/
theorem exec_pcinc (s : State) :
    exec .pcinc s = exec (.pcset (BitVec.ofNat 64 ((s.pc.value.toNat + 4) % 2 ^ 64))) s := by
  rw [← add_instructionLength]
  rfl

/-- Settles O31: the reads leave the state, and every notified write of the pc is a PCSET. -/
theorem pcReadsAndWrites : Obligations.PcReadsAndWrites := by
  unfold Obligations.PcReadsAndWrites
  intro s data
  exact ⟨hasOpcode_of_encode rfl rfl, hasOpcode_of_encode rfl rfl, hasOpcode_of_encode rfl rfl,
    hasOpcode_of_encode rfl rfl, hasOpcode_of_encode rfl rfl, hasOpcode_of_encode rfl rfl, rfl,
    respondAccess_cellGet s (.own .pc), exec_pcset s data, exec_pcset s data,
    respondAccess_cellSetBackdoor_own s .pc data, (exec_pcinc s).trans (exec_pcset s _)⟩

/-- PCINITM with `main` in TEXT is PCSET to `main`, zero-extended (41_integer_file_and_pc.md R163). -/
theorem exec_pcinitm_main {s : State} {address : Addr} (h : classify s.config address = some .text) :
    exec (.pcinitm true address) s = exec (.pcset (address.setWidth 64)) s := if_pos ⟨rfl, h⟩

/-- PCINITM without `main`, or with `main` outside TEXT, is PCSET to the reset value (41_integer_file_and_pc.md R163). -/
theorem exec_pcinitm_reset {s : State} {defined : Bool} {address : Addr}
    (h : ¬(defined = true ∧ classify s.config address = some .text)) :
    exec (.pcinitm defined address) s = exec (.pcset s.pc.reset) s := if_neg h

/-- Settles O32: the test decides which value is loaded, and the load is a PCSET. -/
theorem pcInitMain : Obligations.PcInitMain := by
  unfold Obligations.PcInitMain
  intro s address
  refine ⟨fun _ => hasOpcode_of_encode rfl rfl, fun htext => ?_, fun hother => ?_, ?_, fun hinv => hinv.resets .pc⟩
  · exact (exec_pcinitm_main htext).trans (exec_pcset s _)
  · exact (exec_pcinitm_reset fun h => hother h.2).trans (exec_pcset s _)
  · exact (exec_pcinitm_reset fun h => Bool.false_ne_true h.1).trans (exec_pcset s _)

end Sys2Proof.Machine

/-! PROOFS. The floating-point file (42_fp_file.md). -/

namespace Sys2Proof.Machine

/-! ## Reads of the floating-point file -/

/-- FREAD32 of a mapped number is a notified read of the cell, answered through the NaN-box check
(42_fp_file.md R170). -/
theorem exec_fread32_of_lt (s : State) (idx : Index) (h : idx.toNat < 32) :
    exec (.fread32 idx) s = .next (s.ends ⟨.ok, false, false, unboxFloat s.f[idx.toNat].value⟩
      [cellNotices .read .f (idx.setWidth 32) s.f[idx.toNat].observers]) := by
  have hraw : s.f[idx.toNat].value = cellPeek s (.own (.f ⟨idx.toNat, h⟩)) := rfl
  rw [hraw, ← registerNotices_f s .read idx h]
  exact onCell_of_some _ (lookupF_of_lt idx h)

/-- FREAD64 of a mapped number is a notified read of the cell, answered raw (42_fp_file.md R171). -/
theorem exec_fread64_of_lt (s : State) (idx : Index) (h : idx.toNat < 32) :
    exec (.fread64 idx) s = .next (s.ends ⟨.ok, false, false, s.f[idx.toNat].value⟩
      [cellNotices .read .f (idx.setWidth 32) s.f[idx.toNat].observers]) := by
  rw [← registerNotices_f s .read idx h]
  exact (onCell_of_some _ (lookupF_of_lt idx h)).trans (respondAccess_cellGet s _)

/-- FREADQ of a mapped number answers the cell's raw value silently (42_fp_file.md R172). -/
theorem exec_freadq_of_lt (s : State) (idx : Index) (h : idx.toNat < 32) :
    exec (.freadq idx) s = .next (s.ends ⟨.ok, false, false, s.f[idx.toNat].value⟩ []) :=
  onCell_of_some _ (lookupF_of_lt idx h)

/-- Settles O33: the lookup maps exactly the numbers below 32, a read of the cell found changes nothing, and the test of
FREAD32 is that of `unboxFloat`. -/
theorem floatReads : Obligations.FloatReads := by
  unfold Obligations.FloatReads
  intro s idx
  refine ⟨hasOpcode_of_encode rfl rfl, hasOpcode_of_encode rfl rfl, hasOpcode_of_encode rfl rfl, fun hlt => ?_,
    fun hge => ?_⟩
  · exact ⟨exec_fread32_of_lt s idx hlt, exec_fread64_of_lt s idx hlt, exec_freadq_of_lt s idx hlt⟩
  · have hnone := lookupF_of_ge idx hge
    exact ⟨onCell_of_none _ hnone, onCell_of_none _ hnone, onCell_of_none _ hnone⟩

end Sys2Proof.Machine

/-! PROOFS. Raw word reads, FETCH and INSTALL (44_memory_access.md R206, R208 to R210). -/

namespace Sys2Proof.Machine

/-! ## One word of a table -/

/-- A word that is not null is the word of the table (10_state.md R40, R41). -/
theorem wordAt_of_wordOrNull {S : Segment} {t : Table} {i : Nat} {w : Word32} (h : wordOrNull S t i = some w) :
    wordAt t i = w := by
  unfold wordOrNull at h
  split at h
  · exact Option.some.inj h
  · cases h

/-- In TEXT, where the granule is the slot, a stored word fills its own slot and no other (10_state.md R40). -/
theorem wordOrNull_putWord_text (t : Table) (i j : Nat) (w : Word32) (h : Table.wf .text t = true) :
    wordOrNull .text (putWord .text t i w) j = if j = i then some w else wordOrNull .text t j := by
  have hpresent : 4 * j / granuleBytes .text ∈ (putWord .text t i w).present ↔
      j = i ∨ 4 * j / granuleBytes .text ∈ t.present := by
    rw [mem_putWord_present]
    exact or_congr (by simp only [granuleBytes]; omega) Iff.rfl
  simp only [wordOrNull, List.contains_iff_mem, hpresent, wordAt_putWord .text t i j w h]
  by_cases hj : j = i <;> simp [hj]

/-! ## Aligned words -/

/-- Two addresses of one segment share a word index exactly when they share a word (10_state.md R39). -/
theorem wordIndex_eq_iff {c : MemConfig} {S : Segment} {a b : Addr} (hv : c.valid = true)
    (ha : rangeContains (c.range S) a = true) (hb : rangeContains (c.range S) b = true) :
    wordIndex c S a = wordIndex c S b ↔ a.toNat / 4 = b.toNat / 4 :=
  ⟨word_of_wordIndex c S a b hv ha hb, wordIndex_congr c S a b hv ha hb⟩

/-- An aligned word whose first byte is in a segment ends in it, since the bounds are aligned (00_scope.md R7,
20_memory.md R66). -/
theorem aligned_word_fits {c : MemConfig} {S : Segment} {a : Addr} (hv : c.valid = true) (ha : a.toNat % 4 = 0)
    (hc : classify c a = some S) : a.toNat + 4 ≤ (c.range S).high.toNat := by
  obtain ⟨-, hlt⟩ := (rangeContains_iff _ _).1 (contains_of_classify c a S hc)
  obtain ⟨-, hhigh, -⟩ := (rangeValid_iff _).1 (range_valid c hv S)
  omega

/-- MemRead of an aligned word of a segment completes (20_memory.md R67). -/
theorem memRead_aligned {c : MemConfig} {S : Segment} {a : Addr} (m : Memory) (hv : c.valid = true)
    (ha : a.toNat % 4 = 0) (hc : classify c a = some S) : memRead c m a 4 = .ok (readBytes c m S a 4) := by
  have hend := (pastEnd_eq_false c S a 4 (by decide)).2 (aligned_word_fits hv ha hc)
  simp [memRead, hc, hend]

/-- The bytes of an aligned word that is not null are those its addresses read (20_memory.md R63, R64). -/
theorem byte_of_word {s : State} {S : Segment} {a : Addr} {w : Word32} (hv : s.config.valid = true)
    (ha : a.toNat % 4 = 0) (hc : classify s.config a = some S) (hw : s.word S a = some w) {k : Nat} (hk : k < 4) :
    w.extractLsb' (8 * k) 8 = s.byte S (a + BitVec.ofNat 32 k) := by
  rw [← wordAt_of_wordOrNull hw,
    ← readBytes_word s.config s.memory S a hv ha (contains_of_classify s.config a S hc)]
  exact readBytes_byte s.config s.memory S a 4 k (le_refl 4) hk

/-- A command that first checks the alignment of a word raises its error for a misaligned address (20_memory.md R65). -/
theorem failed_of_misaligned {s : State} {a : Addr} {e : Status} {r : Result} (ha : a.toNat % 4 ≠ 0) :
    (if wordAligned a then r else raise s e a) = .next (s.failed e a) := if_neg (mt (wordAligned_iff a).1 ha)

/-- A command that first checks the alignment of a word goes on for an aligned address (20_memory.md R65). -/
theorem goes_on_of_aligned {a : Addr} {r r' : Result} (ha : a.toNat % 4 = 0) :
    (if wordAligned a then r else r') = r := if_pos ((wordAligned_iff a).2 ha)

/-! ## GETRAWWORD -/

/-- GETRAWWORD of an unmapped word fails (44_memory_access.md R206). -/
theorem exec_getrawword_unmapped {s : State} {a : Addr} (ha : a.toNat % 4 = 0) (hc : classify s.config a = none) :
    exec (.getrawword a) s = .next (s.failed .loadRange a) := by
  have hread : memRead s.config s.memory a 4 = .error ⟨.loadRange, a⟩ := by simp [memRead, hc]
  show execGetrawword a s = _
  rw [execGetrawword, goes_on_of_aligned ha, hread]
  rfl

/-- GETRAWWORD of a mapped word answers it silently, in TEXT with either value of smc_en (44_memory_access.md R206). -/
theorem exec_getrawword_mapped {s : State} {S : Segment} {a : Addr} (hv : s.config.valid = true)
    (ha : a.toNat % 4 = 0) (hc : classify s.config a = some S) :
    exec (.getrawword a) s =
      .next (s.ends ⟨.ok, false, false, (readBytes s.config s.memory S a 4).setWidth 64⟩ []) := by
  show execGetrawword a s = _
  rw [execGetrawword, goes_on_of_aligned ha, memRead_aligned s.memory hv ha hc]
  rfl

/-- Settles O45: no aligned word runs past the end of its segment, so an aligned read fails only where nothing is
mapped. -/
theorem rawWordReads : Obligations.RawWordReads := by
  unfold Obligations.RawWordReads
  refine ⟨fun _ => hasOpcode_of_encode rfl rfl, fun s a hinv =>
    ⟨failed_of_misaligned, exec_getrawword_unmapped, fun S ha hc => ?_⟩⟩
  exact ⟨_, exec_getrawword_mapped (inv_valid hinv) ha hc, fun k => readBytes_byte s.config s.memory S a 4 k (le_refl 4)⟩

/-! ## GETRAWWORDORNULL -/

/-- GETRAWWORDORNULL of an unmapped word fails (44_memory_access.md R208). -/
theorem exec_getrawwordornull_unmapped {s : State} {a : Addr} (ha : a.toNat % 4 = 0)
    (hc : classify s.config a = none) : exec (.getrawwordornull a) s = .next (s.failed .loadRange a) := by
  have hread : rawWordOrNull s.config s.memory a = .error ⟨.loadRange, a⟩ := by simp [rawWordOrNull, hc]
  show execGetrawwordornull a s = _
  rw [execGetrawwordornull, goes_on_of_aligned ha, hread]
  rfl

/-- GETRAWWORDORNULL of a mapped word answers it silently, null as 0 with flag 0 (44_memory_access.md R208). -/
theorem exec_getrawwordornull_mapped {s : State} {S : Segment} {a : Addr} (ha : a.toNat % 4 = 0)
    (hc : classify s.config a = some S) :
    exec (.getrawwordornull a) s =
      .next (s.ends ⟨.ok, false, (s.word S a).isSome, ((s.word S a).getD 0).setWidth 64⟩ []) := by
  have hread : rawWordOrNull s.config s.memory a = .ok (s.word S a) := by simp [rawWordOrNull, hc, State.word]
  show execGetrawwordornull a s = _
  rw [execGetrawwordornull, goes_on_of_aligned ha, hread]
  cases s.word S a <;> rfl

/-- Settles O46: a mapped word answers what its table holds, null or a word, and a word's bytes are those its addresses
read. -/
theorem nullReads : Obligations.NullReads := by
  unfold Obligations.NullReads
  refine ⟨fun _ => hasOpcode_of_encode rfl rfl, fun s a hinv =>
    ⟨failed_of_misaligned, exec_getrawwordornull_unmapped, fun S ha hc => ⟨fun hnull => ?_, fun w hw => ?_⟩⟩⟩
  · rw [exec_getrawwordornull_mapped ha hc, hnull]
    rfl
  · refine ⟨?_, fun k => byte_of_word (inv_valid hinv) ha hc hw⟩
    rw [exec_getrawwordornull_mapped ha hc, hw]
    rfl

/-! ## FETCH -/

/-- FETCH outside TEXT fails (44_memory_access.md R209). -/
theorem exec_fetch_not_text {s : State} {a : Addr} (ha : a.toNat % 4 = 0) (hc : classify s.config a ≠ some .text) :
    exec (.fetch a) s = .next (s.failed .loadRange a) := (goes_on_of_aligned ha).trans (if_neg hc)

/-- FETCH in TEXT answers the slot, an empty one as 0 with flag 0, and notifies, with either value of smc_en
(44_memory_access.md R209). -/
theorem exec_fetch_text {s : State} {a : Addr} (ha : a.toNat % 4 = 0) (hc : classify s.config a = some .text) :
    exec (.fetch a) s =
      .next (s.ends ⟨.ok, false, (s.word .text a).isSome, ((s.word .text a).getD 0).setWidth 64⟩
        [s.noticesOf .read a 4 ((s.word .text a).getD 0)]) :=
  (goes_on_of_aligned ha).trans (if_pos hc)

/-- Settles O47: the two cases of the slot that a FETCH in TEXT answers. -/
theorem fetches : Obligations.Fetches := by
  unfold Obligations.Fetches
  intro s a
  refine ⟨hasOpcode_of_encode rfl rfl, failed_of_misaligned, exec_fetch_not_text, fun ha hc =>
    ⟨fun hempty => ?_, fun w hw => ?_⟩⟩
  · rw [exec_fetch_text ha hc, hempty]
    rfl
  · rw [exec_fetch_text ha hc, hw]
    rfl

/-! ## INSTALL -/

/-- The active instance with a word in the slot of an address (44_memory_access.md R210). -/
def State.withSlot (s : State) (a : Addr) (v : Word32) : Memory :=
  s.memory.setTable .text (putWord .text s.memory.text (wordIndex s.config .text a) v)

theorem State.withSlot_text (s : State) (a : Addr) (v : Word32) :
    (s.withSlot a v).table .text = putWord .text s.memory.text (wordIndex s.config .text a) v := rfl

/-- INSTALL outside TEXT fails (44_memory_access.md R210). -/
theorem exec_install_not_text {s : State} {a : Addr} {v : Word32} (ha : a.toNat % 4 = 0)
    (hc : classify s.config a ≠ some .text) : exec (.install a v) s = .next (s.failed .storeRange a) :=
  (goes_on_of_aligned ha).trans (if_neg hc)

/-- INSTALL in TEXT fills the slot, answers what it held and notifies, with either value of smc_en
(44_memory_access.md R210). -/
theorem exec_install_text {s : State} {a : Addr} {v : Word32} (ha : a.toNat % 4 = 0)
    (hc : classify s.config a = some .text) :
    exec (.install a v) s =
      .next ((s.setMemory (s.withSlot a v)).answer
        ⟨.ok, false, (s.word .text a).isSome, ((s.word .text a).getD 0).setWidth 64⟩ [s.noticesOf .write a 4 v]) :=
  (goes_on_of_aligned ha).trans (if_pos hc)

/-- Replacing the active instance and answering changes nothing else (10_state.md R37, 30_encoding.md R103). -/
theorem onlyMemory_setMemory_answer {s : State} (m : Memory) (r : Response) (g : List (List Notice))
    (hactive : s.active < s.insts.length) : OnlyMemory s ((s.setMemory m).answer r g) := by
  rw [OnlyMemory, State.answer_memory, State.setMemory_memory s m hactive]
  rfl

/-- The slots after one was filled (10_state.md R40). -/
theorem wordOrNull_withSlot {s : State} {a b : Addr} (v : Word32) (hv : s.config.valid = true)
    (hwf : Table.wf .text s.memory.text = true) (ha : s.inSegment .text a) (hb : s.inSegment .text b) :
    wordOrNull .text ((s.withSlot a v).table .text) (wordIndex s.config .text b) =
      if b.toNat / 4 = a.toNat / 4 then some v else s.word .text b := by
  rw [State.withSlot_text, wordOrNull_putWord_text _ _ _ v hwf]
  simp only [wordIndex_eq_iff hv hb ha]
  rfl

/-- The bytes of TEXT after a slot was filled (20_memory.md R63). -/
theorem byteGet_withSlot {s : State} {a b : Addr} (v : Word32) (hv : s.config.valid = true)
    (hwf : Table.wf .text s.memory.text = true) (haligned : a.toNat % 4 = 0)
    (ha : s.inSegment .text a) (hb : s.inSegment .text b) :
    byteGet s.config (s.withSlot a v) .text b =
      if b.toNat / 4 = a.toNat / 4 then v.extractLsb' (8 * (b.toNat - a.toNat)) 8 else s.byte .text b := by
  have hbyte : b.toNat / 4 = a.toNat / 4 → b.toNat % 4 = b.toNat - a.toNat := by omega
  rw [byteGet, State.withSlot_text, byteIn_putWord _ _ _ _ v hwf, bytePlace_div, bytePlace_mod]
  simp only [wordIndex_eq_iff hv hb ha]
  split
  · next hword => rw [hbyte hword]
  · rfl

/-- Settles O48: the command replaces the active instance by the one with the slot filled, whose slots and bytes
`wordOrNull_withSlot` and `byteGet_withSlot` give. -/
theorem installs : Obligations.Installs := by
  unfold Obligations.Installs
  refine ⟨fun _ _ => hasOpcode_of_encode rfl rfl, fun s a v hinv =>
    ⟨failed_of_misaligned, exec_install_not_text, fun ha hc => ⟨_, exec_install_text ha hc, ?_⟩⟩⟩
  have hv := inv_valid hinv
  have hwf : Table.wf .text s.memory.text = true := ((memoryWf_iff _).1 (inv_memory hinv).wf).1 .text
  have htext : s.inSegment .text a := contains_of_classify s.config a .text hc
  have hmem := s.setMemory_memory (s.withSlot a v) hinv.active
  refine ⟨rfl, rfl, onlyMemory_setMemory_answer _ _ _ hinv.active, ?_⟩
  simp only [State.word, State.byte, State.answer_memory, State.answer_config, State.setMemory_config, hmem]
  refine ⟨Memory.setTable_dims .., Memory.setTable_heap .., Memory.setTable_observers .., fun S' hS => ?_, fun b hb => ?_⟩
  · rw [State.withSlot, Memory.setTable_table, if_neg hS]
  · exact ⟨wordOrNull_withSlot v hv hwf htext hb, byteGet_withSlot v hv hwf ha htext hb⟩

end Sys2Proof.Machine

/-! PROOFS. The heap, scan, instance, observer and configuration commands (45_memory_management.md R230 to R238). -/

namespace Sys2Proof.Machine

/-! ## FIRSTNULL -/

/-- An address in no segment has no word to read (44_memory_access.md R208). -/
theorem rawWordOrNull_of_unmapped {c : MemConfig} (m : Memory) {a : Addr} (hc : classify c a = none) :
    rawWordOrNull c m a = .error ⟨.loadRange, a⟩ := by rw [rawWordOrNull, hc]

/-- The word of a mapped address, or null (44_memory_access.md R208). -/
theorem rawWordOrNull_of_mapped {c : MemConfig} (m : Memory) {a : Addr} {S : Segment} (hc : classify c a = some S) :
    rawWordOrNull c m a = .ok (wordOrNull S (m.table S) (wordIndex c S a)) := by rw [rawWordOrNull, hc]

/-- A scan fails at an address in no segment (45_memory_management.md R231). -/
theorem scanNull_of_unmapped {c : MemConfig} {m : Memory} {a : Nat} (n : Nat)
    (hc : classify c (BitVec.ofNat 32 a) = none) :
    scanNull c m (n + 1) a = .error ⟨.loadRange, BitVec.ofNat 32 a⟩ := by
  rw [scanNull, rawWordOrNull_of_unmapped m hc]

/-- A scan ends at a null word (45_memory_management.md R231). -/
theorem scanNull_of_null {c : MemConfig} {m : Memory} {a : Nat} {S : Segment} (n : Nat)
    (hc : classify c (BitVec.ofNat 32 a) = some S)
    (hnull : wordOrNull S (m.table S) (wordIndex c S (BitVec.ofNat 32 a)) = none) :
    scanNull c m (n + 1) a = .ok a := by
  rw [scanNull, rawWordOrNull_of_mapped m hc, hnull]

/-- The scan is k words long when k is the least number of words from base that reaches limit (45_memory_management.md
R231). -/
theorem scanLength_eq {base limit : Addr} {k : Nat} (hbelow : ∀ j < k, base.toNat + 4 * j < limit.toNat)
    (hreached : limit.toNat ≤ base.toNat + 4 * k) : scanLength base limit = k := by
  rw [scanLength]
  cases k with
  | zero => omega
  | succ k =>
    have hlast := hbelow k (Nat.lt_succ_self k)
    omega

/-- The scan takes in the k-th word when its address is below limit (45_memory_management.md R231). -/
theorem exists_scanLength_eq {base limit : Addr} {k : Nat} (hbelow : base.toNat + 4 * k < limit.toNat) :
    ∃ n, scanLength base limit = k + (n + 1) :=
  Nat.exists_eq_add_of_lt (show k < scanLength base limit by rw [scanLength]; omega)

/-- FIRSTNULL answers the address its scan ends at (45_memory_management.md R231). -/
theorem exec_firstnull_of_ok {s : State} {base limit : Addr} {a : Nat} (hbase : base.toNat % 4 = 0)
    (hscan : scanNull s.config s.memory (scanLength base limit) base.toNat = .ok a) :
    exec (.firstnull base limit) s = .next (s.ends ⟨.ok, false, false, BitVec.ofNat 64 a⟩ []) := by
  show execFirstnull base limit s = _
  rw [execFirstnull, goes_on_of_aligned hbase, hscan]
  rfl

/-- FIRSTNULL fails as its scan does (45_memory_management.md R231). -/
theorem exec_firstnull_of_error {s : State} {base limit a : Addr} {e : Status} (hbase : base.toNat % 4 = 0)
    (hscan : scanNull s.config s.memory (scanLength base limit) base.toNat = .error ⟨e, a⟩) :
    exec (.firstnull base limit) s = .next (s.failed e a) := by
  show execFirstnull base limit s = _
  rw [execFirstnull, goes_on_of_aligned hbase, hscan]
  rfl

/-- Settles O52: the scan passes over the k words that are not null, and either ends there or meets the k-th address. -/
theorem firstNullScans : Obligations.FirstNullScans := by
  unfold Obligations.FirstNullScans
  intro s base limit
  refine ⟨hasOpcode_of_encode rfl rfl, failed_of_misaligned, fun hbase k hprefix => ?_⟩
  have hskip := fun n => scanNull_skip s.config s.memory k n base.toNat fun j hj => (hprefix j hj).2
  refine ⟨fun hreached => exec_firstnull_of_ok hbase ?_, fun hbelow hc => exec_firstnull_of_error hbase ?_,
    fun S hbelow hc hnull => exec_firstnull_of_ok hbase ?_⟩
  · rw [scanLength_eq (fun j hj => (hprefix j hj).1) hreached]
    exact hskip 0
  · obtain ⟨n, hn⟩ := exists_scanLength_eq hbelow
    rw [hn, hskip, scanNull_of_unmapped n hc]
  · obtain ⟨n, hn⟩ := exists_scanLength_eq hbelow
    rw [hn, hskip, scanNull_of_null n hc hnull]

/-! ## ALLOC -/

/-- A size that is not negative is the same number read unsigned (30_encoding.md R108). -/
theorem signedSize_toNat {size : Word32} (h : 0 ≤ size.toInt) : (signedSize size).toNat = size.toNat := by
  have hmsb : size.msb = false := by rw [BitVec.msb_eq_toInt]; exact decide_eq_false (not_lt.2 h)
  rw [signedSize, BitVec.toInt_eq_toNat_of_msb hmsb, Int.toNat_natCast]

/-- ALLOC of a size that is not negative depends on where the cursor would go (45_memory_management.md R230). -/
theorem exec_alloc_of_nonneg {s : State} {size : Word32} (h : 0 ≤ size.toInt) :
    exec (.alloc size) s =
      if s.memory.heap.toNat + roundUp4 size.toNat > s.config.data.high.toNat then raise s .heapExhausted s.memory.heap
      else respond
        (s.setMemory { s.memory with heap := BitVec.ofNat 32 (s.memory.heap.toNat + roundUp4 size.toNat) })
        (okResponse (s.memory.heap.setWidth 64)) [] := by
  rw [← signedSize_toNat h]
  exact if_neg (not_lt.2 h)

/-- Settles O51: the sign of the size decides, then the bound of the cursor. -/
theorem allocates : Obligations.Allocates := by
  unfold Obligations.Allocates
  intro s size
  refine ⟨hasOpcode_of_encode rfl rfl, fun hneg => if_pos hneg, fun hsize hpast => ?_, fun hsize hfits => ?_⟩
  · exact (exec_alloc_of_nonneg hsize).trans (if_pos hpast)
  · exact (exec_alloc_of_nonneg hsize).trans (if_neg (not_lt.2 hfits))

/-! ## MEMCLEAR -/

/-- Every table of a fresh instance is empty (10_state.md R49). -/
@[simp] theorem Memory.fresh_table (c : MemConfig) (l : List MemObserver) (S : Segment) :
    (Memory.fresh c l).table S = .empty := by cases S <;> rfl

/-- Nothing is written in a fresh instance: every word is null (10_state.md R41). -/
theorem wordOrNull_fresh (c : MemConfig) (l : List MemObserver) (S : Segment) (i : Nat) :
    wordOrNull S ((Memory.fresh c l).table S) i = none := by
  rw [Memory.fresh_table]
  rfl

/-- Every byte of a fresh instance reads as 0 (10_state.md R41). -/
theorem byteGet_fresh (c c' : MemConfig) (l : List MemObserver) (S : Segment) (a : Addr) :
    byteGet c' (Memory.fresh c l) S a = 0 := by
  rw [byteGet, Memory.fresh_table]
  rfl

/-- Settles O53: the active instance becomes a fresh one with its registrations; the invariant gives its dims. -/
theorem memoryCleared : Obligations.MemoryCleared := by
  unfold Obligations.MemoryCleared
  refine ⟨hasOpcode_of_encode rfl rfl, fun s hinv =>
    ⟨_, rfl, rfl, rfl, onlyMemory_setMemory_answer _ _ _ hinv.active, ?_⟩⟩
  simp only [State.word, State.byte, State.answer_memory, s.setMemory_memory _ hinv.active]
  exact ⟨hinv.dims.symm, rfl, rfl, fun S a => ⟨wordOrNull_fresh _ _ _ _, byteGet_fresh _ _ _ _ _⟩⟩

/-! ## COPYFROM and SWAPINST -/

/-- COPYFROM of an instance of the bank depends on its dims (45_memory_management.md R233). -/
theorem exec_copyfrom_of_lt {s : State} {k : Index} (h : k.toNat < s.insts.length) :
    exec (.copyfrom k) s =
      if s.insts[k.toNat].dims = s.memory.dims then
        respond
          (s.setMemory { s.memory with
            text := s.insts[k.toNat].text, data := s.insts[k.toNat].data, stack := s.insts[k.toNat].stack,
            mmio := s.insts[k.toNat].mmio })
          (okResponse 0 true) []
      else respond s (okResponse 0 false) [] := by
  show execCopyfrom k s = _
  rw [execCopyfrom, List.getElem?_eq_getElem h]

/-- COPYFROM of an instance that is not there is illegal (30_encoding.md R110). -/
theorem exec_copyfrom_of_ge {s : State} {k : Index} (h : s.insts.length ≤ k.toNat) :
    exec (.copyfrom k) s = .next (s.failed .illegalCmd 0) := by
  show execCopyfrom k s = _
  rw [execCopyfrom, List.getElem?_eq_none h]
  rfl

/-- Settles O54: the index is looked up in the bank, then the dims are compared. -/
theorem instancesCopied : Obligations.InstancesCopied := by
  unfold Obligations.InstancesCopied
  intro s k
  refine ⟨hasOpcode_of_encode rfl rfl, exec_copyfrom_of_ge, fun h => ⟨fun hother => ?_, fun hequal => ?_⟩⟩
  · exact (exec_copyfrom_of_lt h).trans (if_neg hother)
  · exact (exec_copyfrom_of_lt h).trans (if_pos hequal)

/-- SWAPINST to an instance of the bank depends on its dims (45_memory_management.md R234). -/
theorem exec_swapinst_of_lt {s : State} {k : Index} (h : k.toNat < s.insts.length) :
    exec (.swapinst k) s =
      if s.insts[k.toNat].dims = dimsOf s.config then
        respond { s with active := k.toNat } (okResponse (BitVec.ofNat 64 s.active)) []
      else raise s .incompatible 0 := by
  show execSwapinst k s = _
  rw [execSwapinst, List.getElem?_eq_getElem h]

/-- SWAPINST to an instance that is not there is illegal (30_encoding.md R110). -/
theorem exec_swapinst_of_ge {s : State} {k : Index} (h : s.insts.length ≤ k.toNat) :
    exec (.swapinst k) s = .next (s.failed .illegalCmd 0) := by
  show execSwapinst k s = _
  rw [execSwapinst, List.getElem?_eq_none h]
  rfl

/-- Settles O55: the index is looked up in the bank, then the dims are compared with the configuration's. -/
theorem instancesSwapped : Obligations.InstancesSwapped := by
  unfold Obligations.InstancesSwapped
  intro s k
  refine ⟨hasOpcode_of_encode rfl rfl, exec_swapinst_of_ge, fun h => ⟨fun hother => ?_, fun hequal => ?_⟩⟩
  · exact (exec_swapinst_of_lt h).trans (if_neg hother)
  · exact (exec_swapinst_of_lt h).trans (if_pos hequal)

/-! ## OBSADD, OBSADD1 and OBSDEL -/

/-- The state after a command that gives the active instance another set of registrations (10_state.md R43). -/
def State.withRegistrations (s : State) (l : List MemObserver) : State :=
  (s.setMemory { s.memory with observers := l }).answer ⟨.ok, false, false, 0⟩ []

/-- After such a command the registrations are the new ones and nothing else changed (10_state.md R43). -/
theorem State.withRegistrations_frame {s : State} {l : List MemObserver} {P : MemObserver → Prop}
    (hactive : s.active < s.insts.length) (hl : ∀ r, r ∈ l ↔ P r) :
    (s.withRegistrations l).rsp = some ⟨.ok, false, false, 0⟩ ∧ (s.withRegistrations l).notices = [] ∧
      OnlyMemory s (s.withRegistrations l) ∧
      (s.withRegistrations l).memory = { s.memory with observers := (s.withRegistrations l).memory.observers } ∧
      ∀ r, r ∈ (s.withRegistrations l).memory.observers ↔ P r := by
  have hmem : (s.withRegistrations l).memory = { s.memory with observers := l } := s.setMemory_memory _ hactive
  rw [hmem]
  exact ⟨rfl, rfl, onlyMemory_setMemory_answer _ _ _ hactive, rfl, hl⟩

/-- A range is inverted when it ends before it starts (45_memory_management.md R235). -/
theorem exec_obsadd_inverted {s : State} {o : ObserverId} {a b : Addr} (h : b.toNat < a.toNat) :
    exec (.obsadd o a b) s = .next (s.failed .obsRangeInverted a) := if_pos h

/-- A range that is not inverted fails when it straddles 0x80000000 (45_memory_management.md R235). -/
theorem exec_obsadd_straddling {s : State} {o : ObserverId} {a b : Addr} (ha : a.toNat < 0x80000000)
    (hb : 0x80000000 ≤ b.toNat) : exec (.obsadd o a b) s = .next (s.failed .obsRangeStraddle a) := by
  have hle : ¬ b.toNat < a.toNat := by omega
  exact (if_neg hle).trans (if_pos ⟨ha, hb⟩)

/-- OBSADD of a range that is neither inverted nor straddling inserts its triple (45_memory_management.md R235). -/
theorem exec_obsadd_legal {s : State} {o : ObserverId} {a b : Addr} (hle : a.toNat ≤ b.toNat)
    (hside : ¬(a.toNat < 0x80000000 ∧ 0x80000000 ≤ b.toNat)) :
    exec (.obsadd o a b) s =
      .next (s.withRegistrations (insertRising MemObserver.key ⟨o, a, b⟩ s.memory.observers)) :=
  (if_neg (not_lt.2 hle)).trans (if_neg hside)

/-- A range of one byte is neither inverted nor straddling, so OBSADD1 always inserts its triple (30_encoding.md R112). -/
theorem exec_obsadd1 (s : State) (o : ObserverId) (a : Addr) :
    exec (.obsadd1 o a) s =
      .next (s.withRegistrations (insertRising MemObserver.key ⟨o, a, a⟩ s.memory.observers)) := by
  have hside : ¬(a.toNat < 0x80000000 ∧ 0x80000000 ≤ a.toNat) := by omega
  exact exec_obsadd_legal (le_refl _) hside

/-- Inserting a registration adds exactly it to the set (10_state.md R43). -/
theorem mem_insertRegistration (o r : MemObserver) (l : List MemObserver) :
    r ∈ insertRising MemObserver.key o l ↔ r ∈ l ∨ r = o :=
  (mem_insertRising MemObserver.key MemObserver.key_injective o r l).trans or_comm

/-- Filtering an observer out drops exactly its registrations (45_memory_management.md R236). -/
theorem mem_filterRegistrations (o : ObserverId) (r : MemObserver) (l : List MemObserver) :
    r ∈ l.filter (fun p => p.obs != o) ↔ r ∈ l ∧ r.obs ≠ o := by
  rw [List.mem_filter, bne_iff_ne]

/-- Settles O56: each accepted command replaces the set of registrations, by an insertion or by a filter. -/
theorem memoryObserversRegistered : Obligations.MemoryObserversRegistered := by
  unfold Obligations.MemoryObserversRegistered
  intro s o a b
  refine ⟨hasOpcode_of_encode rfl rfl, hasOpcode_of_encode rfl rfl, exec_obsadd_inverted, exec_obsadd_straddling,
    fun hactive => ⟨fun hle hside => ?_, ?_, ?_⟩⟩
  · exact ⟨_, exec_obsadd_legal hle hside, State.withRegistrations_frame hactive fun r => mem_insertRegistration _ r _⟩
  · exact ⟨_, exec_obsadd1 s o a, State.withRegistrations_frame hactive fun r => mem_insertRegistration _ r _⟩
  · exact ⟨_, rfl, State.withRegistrations_frame hactive fun r => mem_filterRegistrations o r _⟩

/-! ## SETCONFIG -/

/-- SETCONFIG to an index that is not there is illegal (30_encoding.md R110). -/
theorem exec_setconfig_of_ge {s : State} {k : Index} (h : s.cfgs.length ≤ k.toNat) :
    exec (.setconfig k) s = .next (s.failed .illegalCmd 0) := by
  show execSetconfig k s = _
  rw [execSetconfig, List.getElem?_eq_none h]
  rfl

/-- SETCONFIG to the current configuration changes nothing (45_memory_management.md R238). -/
theorem exec_setconfig_current {s : State} {k : Index} (h : k.toNat < s.cfgs.length) (hcur : k.toNat = s.cur) :
    exec (.setconfig k) s = .next (s.ends ⟨.ok, false, false, 0⟩ []) := by
  show execSetconfig k s = _
  rw [execSetconfig, List.getElem?_eq_getElem h]
  exact if_pos hcur

/-- The integer file with new reset values of x2 and x3, every value and observer kept (10_state.md R26). -/
def withPointerResets (x : Vector Cell 32) (sp gp : Word64) : Vector Cell 32 :=
  (x.set 2 { x[2] with reset := sp }).set 3 { x[3] with reset := gp }

/-- The state under another configuration, with an emptied active instance and the new reset values
(45_memory_management.md R238). -/
def State.reconfigured (s : State) (k : Nat) (c : MemConfig) : State :=
  { s.setMemory (Memory.fresh c s.memory.observers) with
    cur := k
    x := withPointerResets s.x (c.spReset.setWidth 64) (c.gpReset.setWidth 64)
    pc := { s.pc with reset := c.pcReset.setWidth 64 } }

/-- Changing the reset values of x2 and then of x3 gives the file with both (40_register_cells.md R137). -/
theorem cellChangeReset_pointers (s : State) (sp gp : Word64) :
    cellChangeReset (cellChangeReset s (.own (.x 2)) sp) (.own (.x 3)) gp =
      { s with x := withPointerResets s.x sp gp } := by
  have hx3 : (s.x.set 2 { s.x[2] with reset := sp })[3] = s.x[3] := Vector.getElem_set_ne _ _ (by decide)
  rw [withPointerResets, ← hx3]
  rfl

/-- SETCONFIG to another configuration of CFGS completes with flag 1 (45_memory_management.md R238). -/
theorem exec_setconfig_other {s : State} {k : Index} (h : k.toNat < s.cfgs.length) (hcur : k.toNat ≠ s.cur) :
    exec (.setconfig k) s =
      .next ((s.reconfigured k.toNat s.cfgs[k.toNat]).answer ⟨.ok, false, true, 0⟩ []) := by
  show execSetconfig k s = _
  rw [execSetconfig, List.getElem?_eq_getElem h]
  refine (if_neg hcur).trans ?_
  simp only [cellChangeReset_pointers]
  rfl

/-- The configuration selected is the current one (10_state.md R35). -/
theorem State.reconfigured_config {s : State} {k : Nat} (h : k < s.cfgs.length) :
    (s.reconfigured k s.cfgs[k]).config = s.cfgs[k] := (List.getElem_eq_getD _).symm

/-- The active instance is emptied under the configuration selected, its registrations kept (45_memory_management.md
R238). -/
theorem State.reconfigured_memory {s : State} (k : Nat) (c : MemConfig) (hactive : s.active < s.insts.length) :
    (s.reconfigured k c).memory = Memory.fresh c s.memory.observers := s.setMemory_memory _ hactive

/-- Settles O57: an index of CFGS other than the current one gives the reconfigured state. -/
theorem configurationSelected : Obligations.ConfigurationSelected := by
  unfold Obligations.ConfigurationSelected
  intro s k
  refine ⟨hasOpcode_of_encode rfl rfl, exec_setconfig_of_ge, exec_setconfig_current, fun h hcur hactive =>
    ⟨_, exec_setconfig_other h hcur, rfl, rfl, rfl, State.reconfigured_config h, ?_⟩⟩
  rw [State.answer_memory, State.reconfigured_memory _ _ hactive]
  refine ⟨rfl, rfl, rfl, fun S => ?_, rfl, rfl, rfl⟩
  rw [Memory.fresh_table]
  exact ⟨rfl, rfl⟩

end Sys2Proof.Machine

/-! PROOFS. The reservation tables (46_reservation.md), and what neither reads nor changes them (R256). -/

namespace Sys2Proof.Machine

/-! ## The checks of a reservation request -/

/-- What RESERVE and UNRESERVE share: width and hart, then alignment, then the command's own part (46_reservation.md
R252, R253). -/
def onRequest (s : State) (hart : Index) (len : BitVec 4) (addr : Addr) (misaligned : Status)
    (command : Width → Result) : Result :=
  match widthOf len with
  | none => raiseIllegal s
  | some w =>
    if legalHart s hart = false then raiseIllegal s
    else if addr.toNat % widthBytes w ≠ 0 then raise s misaligned addr
    else command w

/-- RESERVE is a request that inserts its key into the hart's table (46_reservation.md R252). -/
theorem exec_reserve (s : State) (h : Index) (len : BitVec 4) (a : Addr) :
    exec (.reserve h len a) s = onRequest s h len a .reserveMisaligned fun w =>
      .next (State.ends { s with rsv := s.rsv.modify h.toNat (addReservation ⟨a, w⟩) } ⟨.ok, false, false, 0⟩ []) := rfl

/-- UNRESERVE is a request that looks for a match in the hart's table (46_reservation.md R253). -/
theorem exec_unreserve (s : State) (h : Index) (len : BitVec 4) (a : Addr) :
    exec (.unreserve h len a) s = onRequest s h len a .unreserveMisaligned fun w =>
      if (s.reservations h.toNat).any (fun e => reservationMatches e a w) then
        .next (State.ends { s with rsv := s.rsv.map fun t => t.filter fun e => !reservationMatches e a w }
          ⟨.ok, false, true, 0⟩ [])
      else .next (s.ends ⟨.ok, false, false, 0⟩ []) := rfl

section
variable {s : State} {h : Index} {len : BitVec 4} {a : Addr} {e : Status} {command : Width → Result}

/-- A length other than 4 and 8 is illegal (30_encoding.md R110). -/
theorem onRequest_of_illegal_width (h4 : len ≠ 4) (h8 : len ≠ 8) :
    onRequest s h len a e command = .next (s.failed .illegalCmd 0) := by
  have hwidth : widthOf len = none := (if_neg h4).trans (if_neg h8)
  rw [onRequest, hwidth]
  rfl

/-- The two lengths name the two widths (30_encoding.md R108). -/
theorem widthOf_of_mem {w : Width} (hlen : (len, w) ∈ [(4#4, Width.word), (8#4, Width.doubleword)]) :
    widthOf len = some w := by
  simp only [List.mem_cons, Prod.mk.injEq, List.not_mem_nil, or_false] at hlen
  rcases hlen with ⟨rfl, rfl⟩ | ⟨rfl, rfl⟩ <;> rfl

variable {w : Width} (hwidth : widthOf len = some w)
include hwidth

/-- A hart that is not there is illegal (30_encoding.md R110). -/
theorem onRequest_of_illegal_hart (hhart : s.rsv.length ≤ h.toNat) :
    onRequest s h len a e command = .next (s.failed .illegalCmd 0) := by
  rw [onRequest, hwidth]
  exact if_pos ((legalHart_eq_false s h).2 hhart)

/-- A request at an address that is not a multiple of its width raises the command's error (46_reservation.md R252,
R253). -/
theorem onRequest_of_misaligned (hhart : h.toNat < s.rsv.length) (ha : a.toNat % len.toNat ≠ 0) :
    onRequest s h len a e command = .next (s.failed e a) := by
  rw [← widthBytes_of_widthOf len w hwidth] at ha
  rw [onRequest, hwidth]
  exact (if_neg (mt (legalHart_eq_false s h).1 (not_le.2 hhart))).trans (if_pos ha)

/-- A request that passes the checks is carried out (46_reservation.md R252, R253). -/
theorem onRequest_of_aligned (hhart : h.toNat < s.rsv.length) (ha : a.toNat % len.toNat = 0) :
    onRequest s h len a e command = command w := by
  rw [← widthBytes_of_widthOf len w hwidth] at ha
  rw [onRequest, hwidth]
  exact (if_neg (mt (legalHart_eq_false s h).1 (not_le.2 hhart))).trans (if_neg (not_not.2 ha))

end

/-! ## RESERVE -/

/-- A duplicate leaves the tables as they were (46_reservation.md R252). -/
theorem modify_addReservation_of_mem {tables : List (List Reservation)} {k : Nat} (hk : k < tables.length)
    {e : Reservation} (hmem : e ∈ tables[k]) : tables.modify k (addReservation e) = tables := by
  rcases addReservation_cases e tables[k] with ⟨-, h⟩ | ⟨hnot, -⟩
  · rw [List.modify_eq_set_get _ hk, List.get_eq_getElem, h, List.set_getElem_self]
  · exact absurd hmem hnot

/-- A new entry is appended to the one table, whose oldest entry leaves if it is full (46_reservation.md R252). -/
theorem modify_addReservation_of_not_mem {tables : List (List Reservation)} {k : Nat} (hk : k < tables.length)
    {e : Reservation} (hmem : e ∉ tables[k]) :
    tables.modify k (addReservation e) =
      tables.set k ((if tables[k].length = 8 then tables[k].tail else tables[k]) ++ [e]) := by
  rcases addReservation_cases e tables[k] with ⟨h, -⟩ | ⟨-, h⟩
  · exact absurd h hmem
  · rw [List.modify_eq_set_get _ hk, List.get_eq_getElem, h]

/-- Settles O58: after the checks, the entry is in the hart's table or it is appended to it. -/
theorem reservationsRecorded : Obligations.ReservationsRecorded := by
  unfold Obligations.ReservationsRecorded
  intro s h a
  simp only [exec_reserve]
  refine ⟨fun _ => hasOpcode_of_encode rfl rfl, fun _ => onRequest_of_illegal_width, fun len w hlen => ?_⟩
  have hwidth := widthOf_of_mem hlen
  refine ⟨onRequest_of_illegal_hart hwidth, fun hhart => ⟨onRequest_of_misaligned hwidth hhart, fun haligned => ?_⟩⟩
  rw [onRequest_of_aligned hwidth hhart haligned]
  refine ⟨fun hmem => ?_, fun hmem => ?_⟩
  · rw [modify_addReservation_of_mem hhart hmem]
  · rw [modify_addReservation_of_not_mem hhart hmem]

/-! ## UNRESERVE and RSVRESET -/

/-- When an entry matches a request, with the doubleword of the address in natural numbers (46_reservation.md R251). -/
theorem reservationMatches_iff (e : Reservation) (a : Addr) (w : Width) :
    reservationMatches e a w = true ↔
      (e.address = a ∧ e.width = w) ∨
        (w = .word ∧ e.width = .doubleword ∧ e.address.toNat = a.toNat / 8 * 8) := by
  have hcovers : e.address = a &&& 0xFFFFFFF8 ↔ e.address.toNat = a.toNat / 8 * 8 := by
    rw [← toNat_doubleword, BitVec.toNat_inj]
  simp only [reservationMatches, Bool.or_eq_true, Bool.and_eq_true, beq_iff_eq, hcovers, and_assoc]

/-- Settles O59: after the checks, the hart's table has a match or it has none. -/
theorem unreservesOnMatch : Obligations.UnreservesOnMatch := by
  unfold Obligations.UnreservesOnMatch
  refine ⟨reservationMatches_iff, hasOpcode_of_encode rfl rfl, fun s h a => ?_⟩
  simp only [exec_unreserve]
  refine ⟨fun _ => hasOpcode_of_encode rfl rfl, fun _ => onRequest_of_illegal_width, fun len w hlen => ?_, rfl⟩
  have hwidth := widthOf_of_mem hlen
  refine ⟨onRequest_of_illegal_hart hwidth, fun hhart => ⟨onRequest_of_misaligned hwidth hhart, fun haligned => ?_⟩⟩
  rw [onRequest_of_aligned hwidth hhart haligned, reservations_eq s h hhart]
  refine ⟨fun hnone => ?_, fun hsome => ?_⟩
  · exact if_neg (by simpa using hnone)
  · exact if_pos (List.any_eq_true.2 hsome)

/-! ## Commands that do not see a part of the state (46_reservation.md R256) -/

/-- The outcome with a function applied to its next state. -/
def mapNext (f : State → State) : Result → Result
  | .next t => .next (f t)
  | .fault r => .fault r
  | .refused r => .refused r

/-- Two outcomes chosen by the same test are related if the branches are. -/
theorem ite_eq_mapNext {f : State → State} {c : Prop} [Decidable c] {x x' y y' : Result} (hx : x' = mapNext f x)
    (hy : y' = mapNext f y) : (if c then x' else y') = mapNext f (if c then x else y) := by
  split
  · exact hx
  · exact hy

/-- A command that commutes with a change of the state keeps a state that the change leaves as it is. -/
theorem eq_of_commutes {i : Instr} (f : State → State) {s t : State} (hc : exec i (f s) = mapNext f (exec i s))
    (hs : f s = s) (h : exec i s = .next t) : f t = t := by
  rw [hs, h] at hc
  exact (Host.Outcome.next.inj hc).symm

/-! ## The reservation commands do not see the memory -/

/-- The state with another bank, active instance and configuration. -/
def State.withBank (s : State) (bank : List Memory) (active cur : Nat) : State :=
  { s with insts := bank, active := active, cur := cur }

/-- The checks of a request do not see the memory (46_reservation.md R256). -/
theorem onRequest_withBank {s : State} {bank : List Memory} {active cur : Nat} {h : Index} {len : BitVec 4} {a : Addr}
    {e : Status} {command command' : Width → Result}
    (hc : ∀ w, command' w = mapNext (·.withBank bank active cur) (command w)) :
    onRequest (s.withBank bank active cur) h len a e command' =
      mapNext (·.withBank bank active cur) (onRequest s h len a e command) := by
  unfold onRequest
  cases widthOf len with
  | none => rfl
  | some w => exact ite_eq_mapNext rfl (ite_eq_mapNext rfl (hc w))

/-- RESERVE and UNRESERVE do not see the memory (46_reservation.md R256). -/
theorem exec_withBank (bank : List Memory) (active cur : Nat) {i : Instr}
    (hi : ∃ h l a, i = .reserve h l a ∨ i = .unreserve h l a) (s : State) :
    exec i (s.withBank bank active cur) = mapNext (·.withBank bank active cur) (exec i s) := by
  obtain ⟨h, l, a, rfl | rfl⟩ := hi
  · rw [exec_reserve, exec_reserve]
    exact onRequest_withBank fun _ => rfl
  · rw [exec_unreserve, exec_unreserve]
    exact onRequest_withBank fun _ => ite_eq_mapNext rfl rfl

/-! ## No other command sees the reservation tables -/

/-- The state with other reservation tables. -/
def State.withTables (s : State) (tables : List (List Reservation)) : State := { s with rsv := tables }

section
variable {tables : List (List Reservation)} {s : State}

@[simp] theorem State.withTables_cell (h : Home) : (s.withTables tables).cell h = s.cell h := by cases h <;> rfl
@[simp] theorem State.withTables_setValue (h : Home) (v : Word64) :
    (s.withTables tables).setValue h v = (s.setValue h v).withTables tables := by cases h <;> rfl
@[simp] theorem State.withTables_storeOwn (h : Home) (v : Word64) :
    storeOwn (s.withTables tables) h v = (storeOwn s h v).withTables tables := by cases h <;> rfl
@[simp] theorem State.withTables_cellPeek (r : CellRef) : cellPeek (s.withTables tables) r = cellPeek s r := by
  cases r with
  | own h => exact congrArg Cell.value (State.withTables_cell h)
  | view j => rfl
@[simp] theorem State.withTables_registerNotices (kind : AccessKind) (r : CellRef) :
    registerNotices (s.withTables tables) kind r = registerNotices s kind r := by
  cases r with
  | own h => simp [registerNotices, observersOf]
  | view j => rfl
@[simp] theorem State.withTables_config : (s.withTables tables).config = s.config := rfl
@[simp] theorem State.withTables_memory : (s.withTables tables).memory = s.memory := rfl
@[simp] theorem State.withTables_insts : (s.withTables tables).insts = s.insts := rfl
@[simp] theorem State.withTables_cfgs : (s.withTables tables).cfgs = s.cfgs := rfl
@[simp] theorem State.withTables_gatedRead (a : Addr) (n : Nat) :
    gatedRead (s.withTables tables) a n = gatedRead s a n := rfl
@[simp] theorem State.withTables_gatedWrite (a : Addr) (n : Nat) (v : Word32) :
    gatedWrite (s.withTables tables) a n v = gatedWrite s a n v := rfl

/-- A register command does not see the tables if its action on the cell found does not. -/
theorem onCell_withTables {found : Option CellRef} {command command' : CellRef → Result}
    (hc : ∀ r, command' r = mapNext (·.withTables tables) (command r)) :
    onCell (s.withTables tables) found command' = mapNext (·.withTables tables) (onCell s found command) := by
  cases found with
  | none => rfl
  | some r => exact hc r

/-! A cell primitive does not see the tables, so the register commands that end with it do not. -/

theorem cellGet_withTables (r : CellRef) :
    cellGet (s.withTables tables) r = { cellGet s r with state := s.withTables tables } := by
  simp [cellGet]

theorem cellSet_withTables (r : CellRef) (v : Word64) :
    cellSet (s.withTables tables) r v =
      { cellSet s r v with state := (cellSet s r v).state.withTables tables } := by
  cases r <;> simp [cellSet]

theorem cellSetBackdoor_withTables (r : CellRef) (v : Word64) :
    cellSetBackdoor (s.withTables tables) r v =
      { cellSetBackdoor s r v with state := (cellSetBackdoor s r v).state.withTables tables } := by
  cases r <;> simp [cellSetBackdoor]

theorem respondAccess_cellGet_withTables (r : CellRef) :
    respondAccess (cellGet (s.withTables tables) r) = mapNext (·.withTables tables) (respondAccess (cellGet s r)) := by
  rw [cellGet_withTables]
  rfl

theorem respondAccess_cellSet_withTables (r : CellRef) (v : Word64) :
    respondAccess (cellSet (s.withTables tables) r v) = mapNext (·.withTables tables) (respondAccess (cellSet s r v)) := by
  rw [cellSet_withTables]
  rfl

theorem respondAccess_cellSetBackdoor_withTables (r : CellRef) (v : Word64) :
    respondAccess (cellSetBackdoor (s.withTables tables) r v) =
      mapNext (·.withTables tables) (respondAccess (cellSetBackdoor s r v)) := by
  rw [cellSetBackdoor_withTables]
  rfl

/-- A load does not see the tables: no check of a memory access reads them (46_reservation.md R256). -/
theorem loadBytes_withTables (a : Addr) (n : Nat) :
    loadBytes (s.withTables tables) a n = mapNext (·.withTables tables) (loadBytes s a n) := by
  simp only [loadBytes, State.withTables_gatedRead]
  cases gatedRead s a n <;> rfl

/-- A store does not see the tables, a matching reservation included (46_reservation.md R256). -/
theorem storeBytes_withTables (a : Addr) (n : Nat) (v : Word32) :
    storeBytes (s.withTables tables) a n v = mapNext (·.withTables tables) (storeBytes s a n v) := by
  simp only [storeBytes, State.withTables_gatedWrite]
  cases gatedWrite s a n v <;> rfl

theorem execGet_withTables (len : BitVec 4) (a : Addr) :
    execGet len a (s.withTables tables) = mapNext (·.withTables tables) (execGet len a s) :=
  ite_eq_mapNext (loadBytes_withTables _ _) rfl

theorem execSet_withTables (len : BitVec 4) (a : Addr) (v : Word32) :
    execSet len a v (s.withTables tables) = mapNext (·.withTables tables) (execSet len a v s) :=
  ite_eq_mapNext (storeBytes_withTables _ _ _) rfl

theorem execObsadd_withTables (o : ObserverId) (a b : Addr) :
    execObsadd o a b (s.withTables tables) = mapNext (·.withTables tables) (execObsadd o a b s) :=
  ite_eq_mapNext rfl (ite_eq_mapNext rfl rfl)

end

/-- The commands of the reservation tables (46_reservation.md). -/
def usesTables (i : Instr) : Prop := (∃ h l a, i = .reserve h l a ∨ i = .unreserve h l a) ∨ i = .rsvreset

/-- No other command sees the reservation tables (46_reservation.md R256). -/
theorem exec_withTables (tables : List (List Reservation)) {i : Instr} (hi : ¬usesTables i) (s : State) :
    exec i (s.withTables tables) = mapNext (·.withTables tables) (exec i s) := by
  cases i with
  | xread | fread64 | csrread => exact onCell_withTables respondAccess_cellGet_withTables
  | xreadq | freadq | csrreadq => exact onCell_withTables fun r => by rw [State.withTables_cellPeek]; rfl
  | fread32 => exact onCell_withTables fun r => by rw [cellGet_withTables]; rfl
  | xwrite => exact onCell_withTables fun r => ite_eq_mapNext rfl (respondAccess_cellSet_withTables r _)
  | xwriteb => exact onCell_withTables fun r => ite_eq_mapNext rfl (respondAccess_cellSetBackdoor_withTables r _)
  | pcset | pcinc | pcinita => exact respondAccess_cellSet_withTables _ _
  | pcinitm =>
    exact ite_eq_mapNext (respondAccess_cellSet_withTables _ _) (respondAccess_cellSet_withTables _ _)
  | fwrite32 | fwrite64 => exact onCell_withTables fun r => respondAccess_cellSet_withTables r _
  | fwriteb | csrwriteb => exact onCell_withTables fun r => respondAccess_cellSetBackdoor_withTables r _
  | csrwrite =>
    exact onCell_withTables fun r =>
      ite_eq_mapNext rfl (ite_eq_mapNext rfl (respondAccess_cellSet_withTables r _))
  | csrpos idx =>
    show execCsrpos idx _ = mapNext _ (execCsrpos idx s)
    unfold execCsrpos
    split <;> rfl
  | get len a => exact execGet_withTables len a
  | getbyte a => exact execGet_withTables 1 a
  | set len a v => exact execSet_withTables len a v
  | setbyte a v => exact execSet_withTables 1 a v
  | getword | gethalf => exact ite_eq_mapNext (loadBytes_withTables _ _) rfl
  | setword | sethalf => exact ite_eq_mapNext (storeBytes_withTables _ _ _) rfl
  | getrawword a =>
    refine ite_eq_mapNext ?_ rfl
    rw [State.withTables_config, State.withTables_memory]
    cases memRead s.config s.memory a 4 <;> rfl
  | setrawword a v =>
    refine ite_eq_mapNext ?_ rfl
    rw [State.withTables_gatedWrite]
    cases gatedWrite s a 4 v <;> rfl
  | getrawwordornull a =>
    refine ite_eq_mapNext ?_ rfl
    rw [State.withTables_config, State.withTables_memory]
    rcases rawWordOrNull s.config s.memory a with e | (_ | w) <;> rfl
  | fetch | install => exact ite_eq_mapNext (ite_eq_mapNext rfl rfl) rfl
  | alloc => exact ite_eq_mapNext rfl (ite_eq_mapNext rfl rfl)
  | firstnull base limit =>
    refine ite_eq_mapNext ?_ rfl
    rw [State.withTables_config, State.withTables_memory]
    cases scanNull s.config s.memory (scanLength base limit) base.toNat <;> rfl
  | copyfrom k =>
    show execCopyfrom k _ = mapNext _ (execCopyfrom k s)
    rw [execCopyfrom, execCopyfrom, State.withTables_insts]
    cases s.insts[k.toNat]? with
    | none => rfl
    | some m => exact ite_eq_mapNext rfl rfl
  | swapinst k =>
    show execSwapinst k _ = mapNext _ (execSwapinst k s)
    rw [execSwapinst, execSwapinst, State.withTables_insts]
    cases s.insts[k.toNat]? with
    | none => rfl
    | some m => exact ite_eq_mapNext rfl rfl
  | obsadd | obsadd1 => exact execObsadd_withTables _ _ _
  | setconfig k =>
    show execSetconfig k _ = mapNext _ (execSetconfig k s)
    rw [execSetconfig, execSetconfig, State.withTables_cfgs]
    cases s.cfgs[k.toNat]? with
    | none => rfl
    | some c => exact ite_eq_mapNext rfl rfl
  | reserve h l a => exact absurd (.inl ⟨h, l, a, .inl rfl⟩) hi
  | unreserve h l a => exact absurd (.inl ⟨h, l, a, .inr rfl⟩) hi
  | rsvreset => exact absurd (.inr rfl) hi
  | pcsetb | xreset | xobsadd | xobsdel | pcreadq | pcread | pcobsadd | pcobsdel | freset | fobsadd | fobsdel
  | csrreset | csrobsadd | csrobsdel | memclear | obsdel => rfl

/-- Settles O19: a change of the tables commutes with every command that does not use them, and a change of the memory
with RESERVE and UNRESERVE; what a command does not see, it does not change. -/
theorem reservationsAreIndependentOfMemory : Obligations.ReservationsAreIndependentOfMemory := by
  unfold Obligations.ReservationsAreIndependentOfMemory
  intro i s t h
  refine ⟨fun hi => ⟨?_, fun tables => ?_⟩, fun hi => ⟨?_, fun bank active cur => ?_⟩⟩
  · have hkept : t.withTables s.rsv = t := eq_of_commutes (·.withTables s.rsv) (exec_withTables s.rsv hi s) rfl h
    exact (congrArg State.rsv hkept).symm
  · exact (exec_withTables tables hi s).trans (congrArg _ h)
  · have hkept : t.withBank s.insts s.active s.cur = t :=
      eq_of_commutes (·.withBank s.insts s.active s.cur) (exec_withBank s.insts s.active s.cur hi s) rfl h
    exact (congrArg State.insts hkept).symm
  · exact (exec_withBank bank active cur hi s).trans (congrArg _ h)

end Sys2Proof.Machine

/-! PROOFS. Errors (60_exceptions.md R272). -/

namespace Sys2Proof.Machine

/-- An error's response at the ports of a state, with no notice, is the failed state of the statements (30_encoding.md
R103, R104). -/
theorem State.answer_errorResponse (s : State) (e : Status) (a : Addr) :
    s.answer (errorResponse e a) [] = s.failed e a := rfl

/-- Settles O13: of what a command can do (`effect_of_next`), a response other than OK leaves only the kept state with
an error's response and no notice. -/
theorem errorsChangeNothing : Obligations.ErrorsChangeNothing := by
  unfold Obligations.ErrorsChangeNothing
  intro i s t r hnext hrsp hstatus
  obtain ⟨u, r', g, rfl, -, herror⟩ := effect_of_next hnext
  obtain rfl : r' = r := Option.some.inj hrsp
  obtain ⟨rfl, rfl, a, hr⟩ := herror hstatus
  refine ⟨a, ?_⟩
  rw [← State.answer_errorResponse, ← hr]

end Sys2Proof.Machine

/-! PROOFS. The decoder against the encoder, the reserved opcodes, and the words at the ports (30_encoding.md R100 to R109). -/

namespace Sys2Proof.Machine

/-! ## The decoder reads what the encoder writes -/

/-- The command a pseudo-command spells is a real one (30_encoding.md R112). -/
theorem canonical_canonical (i : Instr) : i.canonical.canonical = i.canonical := by cases i <;> rfl

/-- Settles O1: a command is encoded as the real command it spells, whose encoding lies at the bits it uses, and the
decoder reads those. -/
theorem decodeOfEncodeIsCanonical : Obligations.DecodeOfEncodeIsCanonical := by
  unfold Obligations.DecodeOfEncodeIsCanonical
  intro i
  rw [encode_canonical]
  exact decode_of_encode_eq (canonical_canonical i) (encode_and_usedBits i.canonical).symm

/-! ## Reserved opcodes -/

/-- The opcode map has no row for a reserved value of `op` (30_encoding.md R109). -/
theorem decode_of_reserved {w : CommandWord} (h : reservedOpcode (opField w)) :
    decode w = .error (.reservedOpcode (opField w)) := by
  unfold reservedOpcode at h
  unfold decode
  split
  case h_56 => rfl
  all_goals omega

/-- Where the decoder rejects a word, no row of the opcode map has its `op` (30_encoding.md R109). -/
theorem reserved_of_decode {w : CommandWord} {e : DecodeReject} (h : decode w = .error e) :
    reservedOpcode (opField w) := by
  unfold decode at h
  split at h
  case h_56 =>
    have hop := (opField w).isLt
    simp only [imp_false] at *
    unfold reservedOpcode
    omega
  all_goals cases h

/-- A step that finds a command runs it on the state with its two inputs sampled, if it decodes (00_scope.md R10). -/
theorem step_of_decode {s : State} {c : Command} {rest : List Input} {i : Instr} (hp : s.pending = .command c :: rest)
    (hd : decode c.word = .ok i) :
    step s = exec i { s with smcEn := c.smcEn, backstepEn := c.backstepEn, pending := rest } := by
  simp only [step, takeInput, hp, hd]

/-- A step that finds a command that does not decode answers ILLEGAL_CMD (30_encoding.md R109). -/
theorem step_of_reject {s : State} {c : Command} {rest : List Input} {e : DecodeReject}
    (hp : s.pending = .command c :: rest) (hd : decode c.word = .error e) :
    step s = .next
      (State.failed { s with smcEn := c.smcEn, backstepEn := c.backstepEn, pending := rest } .illegalCmd 0) := by
  simp only [step, takeInput, hp, hd]
  rfl

/-- Settles O3: the rows of the opcode map are the values that are not reserved. -/
theorem reservedOpcodesAreIllegal : Obligations.ReservedOpcodesAreIllegal := by
  unfold Obligations.ReservedOpcodesAreIllegal
  refine ⟨fun w => ⟨fun h => ⟨_, decode_of_reserved h⟩, fun ⟨_, h⟩ => reserved_of_decode h⟩, ?_⟩
  intro s c rest hp h
  exact step_of_reject hp (decode_of_reserved h)

/-- Settles O7: a command that decodes is run on the state with its inputs sampled. -/
theorem stepRunsTheDecodedCommand : Obligations.StepRunsTheDecodedCommand := by
  unfold Obligations.StepRunsTheDecodedCommand
  intro s c rest i
  exact step_of_decode

/-! ## The words at the ports -/

/-- A bit of the response word, field by field (30_encoding.md R103). -/
theorem getLsbD_responseWord (r : Response) (i : Nat) (hi : i < 74) :
    (responseWord r).getLsbD i =
      if 66 ≤ i then (statusCode r.status).getLsbD (i - 66) else if i = 65 then r.absent
      else if i = 64 then r.flag else r.data.getLsbD i := by
  have hdata : 64 ≤ i → r.data.getLsbD i = false := BitVec.getLsbD_of_ge r.data i
  simp only [responseWord, BitVec.getLsbD_or, BitVec.getLsbD_shiftLeft, BitVec.getLsbD_setWidth, BitVec.getLsbD_ofBool, hi]
  grind

/-- A bit of the notice word, field by field (30_encoding.md R106). -/
theorem getLsbD_noticeWord (n : Notice) (i : Nat) (hi : i < 88) :
    (noticeWord n).getLsbD i =
      if 87 ≤ i then (kindBit n.kind).getLsbD (i - 87) else if 84 ≤ i then (spaceCode n.space).getLsbD (i - 84)
      else if 72 ≤ i then n.obs.getLsbD (i - 72) else if 68 ≤ i then n.len.getLsbD (i - 68)
      else if 32 ≤ i then n.id.getLsbD (i - 32) else n.value.getLsbD i := by
  have hspace : 3 ≤ i - 84 → (spaceCode n.space).getLsbD (i - 84) = false := BitVec.getLsbD_of_ge _ _
  have hobs : 12 ≤ i - 72 → n.obs.getLsbD (i - 72) = false := BitVec.getLsbD_of_ge _ _
  have hlen : 4 ≤ i - 68 → n.len.getLsbD (i - 68) = false := BitVec.getLsbD_of_ge _ _
  have hid : 32 ≤ i - 32 → n.id.getLsbD (i - 32) = false := BitVec.getLsbD_of_ge _ _
  have hvalue : 32 ≤ i → n.value.getLsbD i = false := BitVec.getLsbD_of_ge _ _
  simp only [noticeWord, BitVec.getLsbD_or, BitVec.getLsbD_shiftLeft, BitVec.getLsbD_setWidth, hi]
  grind

/-- A word's field is given by its bits (30_encoding.md R100). -/
theorem extractLsb'_eq_of_bits {n w : Nat} {x : BitVec n} {lo : Nat} {v : BitVec w}
    (h : ∀ i < w, x.getLsbD (lo + i) = v.getLsbD i) : x.extractLsb' lo w = v := by
  apply BitVec.eq_of_getLsbD_eq
  intro i hi
  simp [h i hi, hi]

/-- The fields of the response word (30_encoding.md R103). -/
theorem responseWord_fields (r : Response) :
    (responseWord r).extractLsb' 66 8 = statusCode r.status ∧ (responseWord r).getLsbD 65 = r.absent ∧
      (responseWord r).getLsbD 64 = r.flag ∧ (responseWord r).extractLsb' 0 64 = r.data := by
  refine ⟨extractLsb'_eq_of_bits fun i hi => ?_, getLsbD_responseWord r 65 (by decide),
    getLsbD_responseWord r 64 (by decide), extractLsb'_eq_of_bits fun i hi => ?_⟩
  · rw [getLsbD_responseWord r _ (by omega), if_pos (by omega), Nat.add_sub_cancel_left]
  · rw [getLsbD_responseWord r _ (by omega), if_neg (by omega), if_neg (by omega), if_neg (by omega), Nat.zero_add]

/-- The kind's bit is 1 for a write (30_encoding.md R106). -/
theorem kindBit_getLsbD (k : AccessKind) : (kindBit k).getLsbD 0 = decide (k = .write) := by cases k <;> rfl

/-- The fields of the notice word (30_encoding.md R106). -/
theorem noticeWord_fields (n : Notice) :
    (noticeWord n).getLsbD 87 = decide (n.kind = .write) ∧ (noticeWord n).extractLsb' 84 3 = spaceCode n.space ∧
      (noticeWord n).extractLsb' 72 12 = n.obs ∧ (noticeWord n).extractLsb' 68 4 = n.len ∧
      (noticeWord n).extractLsb' 64 4 = 0 ∧ (noticeWord n).extractLsb' 32 32 = n.id ∧
      (noticeWord n).extractLsb' 0 32 = n.value := by
  have hbit := getLsbD_noticeWord n
  refine ⟨?kind, ?_, ?_, ?_, ?zero, ?_, ?_⟩
  case kind => rw [hbit 87 (by decide), ← kindBit_getLsbD]; rfl
  case zero =>
    refine extractLsb'_eq_of_bits fun i hi => ?_
    have hid : n.id.getLsbD (64 + i - 32) = false := BitVec.getLsbD_of_ge _ _ (by omega)
    grind
  all_goals
    refine extractLsb'_eq_of_bits fun i hi => ?_
    grind

/-- The statuses of 30_encoding.md R105. -/
def allStatuses : List Status :=
  [.ok, .illegalCmd, .loadMisaligned, .storeMisaligned, .loadRange, .storeRange, .loadTextForbidden, .storeTextForbidden,
   .reserveMisaligned, .unreserveMisaligned, .heapExhausted, .heapBadSize, .obsRangeInverted, .obsRangeStraddle,
   .incompatible]

/-- A status can be read back from its number (30_encoding.md R105). -/
theorem find_statusCode (e : Status) : allStatuses.find? (fun e' => statusCode e' == statusCode e) = some e := by
  cases e <;> rfl

/-- Different statuses have different numbers (30_encoding.md R105). -/
theorem statusCode_injective {e e' : Status} (h : statusCode e = statusCode e') : e = e' := by
  have hfind := find_statusCode e
  rw [h, find_statusCode e'] at hfind
  exact (Option.some.inj hfind).symm

/-- Settles O6: the fields of the words do not overlap, and the numbers are the spec's. -/
theorem portWordsHoldTheirFields : Obligations.PortWordsHoldTheirFields := by
  unfold Obligations.PortWordsHoldTheirFields
  exact ⟨responseWord_fields, noticeWord_fields, by decide, fun _ _ => statusCode_injective, by decide⟩

end Sys2Proof.Machine

/-! PROOFS. Reset and the invariant (10_state.md R49, 70_reset_and_hazards.md R290), and what a step can change. -/

namespace Sys2Proof.Machine

/-! ## Steps -/

/-- Every command completes, with a response (60_exceptions.md R278). -/
theorem exec_next (i : Instr) (s : State) : ∃ t, exec i s = .next t := by
  obtain ⟨u, r, g, he⟩ := exec_effect i s
  exact ⟨_, he.next⟩

/-- No command touches the inputs, sampled or waiting (30_encoding.md R102). -/
theorem Effect.inputs {s u : State} {i : Instr} (h : Effect s i u) :
    u.pending = s.pending ∧ u.smcEn = s.smcEn ∧ u.backstepEn = s.backstepEn := by
  cases h with
  | value => simp [State.setValue]
  | setconfig => simp [cellChangeReset]
  | _ => exact ⟨rfl, rfl, rfl⟩

/-- A command that completes leaves the inputs and gives a response (60_exceptions.md R278). -/
theorem inputs_of_next {i : Instr} {s t : State} (h : exec i s = .next t) :
    t.pending = s.pending ∧ t.smcEn = s.smcEn ∧ t.backstepEn = s.backstepEn ∧ ∃ r, t.rsp = some r := by
  obtain ⟨u, r, g, rfl, he, -⟩ := effect_of_next h
  obtain ⟨hpending, hsmc, hbackstep⟩ := he.inputs
  exact ⟨hpending, hsmc, hbackstep, r, rfl⟩

/-- A step that finds `rst` restores the reset state (70_reset_and_hazards.md R290). -/
theorem step_of_rst {s : State} {rest : List Input} (hp : s.pending = .rst :: rest) :
    step s = .next { State.resetOf s.params with pending := rest } := by simp only [step, takeInput, hp]

/-- A step that finds no input does nothing (00_scope.md R12). -/
theorem step_of_nil {s : State} (hp : s.pending = []) : step s = .next s := by simp only [step, takeInput, hp]

/-- Settles O8: each input has its step, and of a command's step `inputs_of_next` tells the rest. -/
theorem stepIsTotal : Obligations.StepIsTotal := by
  unfold Obligations.StepIsTotal
  intro s
  rcases hp : s.pending with _ | ⟨_ | _, rest⟩
  case nil => exact ⟨s, step_of_nil hp, nofun⟩
  case cons.rst => exact ⟨_, step_of_rst hp, nofun⟩
  case cons.command c =>
    rcases hd : decode c.word with e | i
    · refine ⟨_, step_of_reject hp hd, ?_⟩
      rintro _ _ ⟨⟩
      exact ⟨rfl, rfl, rfl, _, rfl⟩
    · obtain ⟨t, ht⟩ := exec_next i { s with smcEn := c.smcEn, backstepEn := c.backstepEn, pending := rest }
      refine ⟨t, (step_of_decode hp hd).trans ht, ?_⟩
      rintro _ _ ⟨⟩
      exact inputs_of_next ht

/-- Settles O9: the two inputs that are no command. -/
theorem rstRestoresTheResetState : Obligations.RstRestoresTheResetState := by
  unfold Obligations.RstRestoresTheResetState
  exact ⟨fun s rest hp => ⟨step_of_rst hp, rfl⟩, fun s => step_of_nil⟩

/-! ## The reset state -/

/-- Every cell is reset to its reset value, observed by no one (10_state.md R49). -/
theorem resetOf_cell (p : Params) (h : Home) :
    (State.resetOf p).cell h = Cell.atReset (resetValue (p.cfgs.headD .nowhere) h) := by
  cases h with
  | x i =>
    simp only [State.cell_x, State.resetOf, resetValue, Fin.getElem_fin, Vector.getElem_set, Fin.ext_iff]
    by_cases h3 : i.val = 3
    · simp [h3]
    · by_cases h2 : i.val = 2
      · simp [h2]
      · simp [h2, h3, show ¬ 2 = i.val by omega, show ¬ 3 = i.val by omega]
  | f i => simp [State.resetOf, resetValue]
  | pc => rfl
  | csr k => simp [State.resetOf, resetValue]

/-- No cell has an observer after reset (10_state.md R49). -/
theorem resetOf_observersOf (p : Params) (r : CellRef) : observersOf (State.resetOf p) r = [] := by
  cases r with
  | own h => rw [observersOf, resetOf_cell]; rfl
  | view j => simp [observersOf, State.resetOf]

/-- Every view reads 0 after reset (10_state.md R49). -/
theorem resetOf_cellPeek_view (p : Params) (j : Fin 5) : cellPeek (State.resetOf p) (.view j) = 0 := by
  rw [cellPeek, resetOf_cell]
  simp [Cell.atReset, resetValue, fieldOf]

/-- Every instance is fresh after reset (10_state.md R49). -/
theorem eq_fresh_of_mem_resetOf {p : Params} {m : Memory} (h : m ∈ (State.resetOf p).insts) :
    m = Memory.fresh (p.cfgs.headD .nowhere) [] := List.eq_of_mem_replicate h

/-- A floating-point register that holds 0 is not NaN-boxed: FREAD32 answers the canonical NaN (42_fp_file.md R170). -/
theorem resetOf_fread32 (p : Params) (idx : Index) (h : idx.toNat < 32) :
    exec (.fread32 idx) (State.resetOf p) =
      .next ((State.resetOf p).ends ⟨.ok, false, false, 0x7FC00000⟩ [[]]) := by
  have hcell : (State.resetOf p).f[idx.toNat] = ⟨0, 0, []⟩ := resetOf_cell p (.f ⟨idx.toNat, h⟩)
  rw [exec_fread32_of_lt _ idx h, hcell]
  rfl

/-- Settles O10: the cells, the views and the instances of the reset state, for CFGS[0]. -/
theorem resetValues : Obligations.ResetValues := by
  unfold Obligations.ResetValues
  intro p c0 others hp
  have hhead : p.cfgs.headD .nowhere = c0 := by rw [hp]; rfl
  have hcell := resetOf_cell p
  rw [hhead] at hcell
  refine ⟨rfl, rfl, rfl, fun i => ?x, hcell .pc, fun i => hcell (.f i), fun k => hcell (.csr k),
    fun j => ⟨resetOf_observersOf p (.view j), resetOf_cellPeek_view p j⟩, List.length_replicate, fun m hm => ?insts,
    List.length_replicate, fun t ht => List.eq_of_mem_replicate ht, resetOf_fread32 p⟩
  case x =>
    have hx := hcell (.x i)
    rw [State.cell_x] at hx
    rw [hx]
    exact ⟨rfl, rfl, rfl⟩
  case insts =>
    rw [eq_fresh_of_mem_resetOf hm, hhead]
    refine ⟨rfl, fun S => ?_, rfl, rfl⟩
    rw [Memory.fresh_table]
    exact ⟨rfl, rfl⟩

/-! ## The invariant after reset -/

/-- A fresh instance under a valid configuration satisfies the invariant of instances if its registrations do. -/
theorem fresh_inv {c : MemConfig} {l : List MemObserver} (hc : c.valid = true)
    (hrising : rising MemObserver.key l = true) (hlegal : ∀ o ∈ l, o.legal = true) : (Memory.fresh c l).Inv := by
  refine ⟨fresh_wf c l hrising, fresh_within c l, hlegal, ?_⟩
  simp only [MemConfig.valid, Bool.and_eq_true, beq_iff_eq] at hc
  exact hc.1.2.1.1

/-- Valid parameters name at least one instance and one configuration (00_scope.md R6). -/
theorem params_valid_pos {p : Params} (h : p.valid = true) : 0 < p.ninst ∧ 0 < p.cfgs.length := by
  simp only [Params.valid, Bool.and_eq_true, decide_eq_true_eq] at h
  omega

/-- The parameters of the reset state are those it was built with (00_scope.md R6). -/
theorem resetOf_params (p : Params) : (State.resetOf p).params = p := by
  simp [State.params, State.resetOf]

/-- The reset state for valid parameters satisfies the invariant (10_state.md R49). -/
theorem resetOf_inv {p : Params} (h : p.valid = true) : (State.resetOf p).Inv := by
  obtain ⟨hninst, hncfg⟩ := params_valid_pos h
  have hconfig := resetOf_config p
  have hmem : p.cfgs.headD .nowhere ∈ p.cfgs := by
    rw [List.headD_eq_head?_getD, List.head?_eq_getElem?, List.getElem?_eq_getElem hncfg]
    exact List.getElem_mem hncfg
  have hactive : (State.resetOf p).active < (State.resetOf p).insts.length :=
    hninst.trans_eq List.length_replicate.symm
  exact {
    params := by rwa [resetOf_params]
    cur := hncfg
    active := hactive
    insts := fun m hm => by
      rw [eq_fresh_of_mem_resetOf hm]
      exact fresh_inv (params_valid_mem p h _ hmem) (rising_nil _) nofun
    dims := by
      rw [eq_fresh_of_mem_resetOf (State.memory_mem _ hactive), hconfig]
      rfl
    x0 := congrArg Cell.value (resetOf_cell p (.x 0))
    resets := fun h => by rw [resetOf_cell, hconfig]; rfl
    observers := fun r => by rw [resetOf_observersOf]; exact rising_nil _
    rsv := fun t ht => by
      rw [List.eq_of_mem_replicate ht]
      exact reservationsLegal_nil }

/-- Settles O11: the model's own parameters are valid. -/
theorem resetMeetsTheInvariant : Obligations.ResetMeetsTheInvariant := by
  unfold Obligations.ResetMeetsTheInvariant
  exact ⟨fun p => resetOf_inv, resetOf_inv (by decide)⟩

end Sys2Proof.Machine

/-! PROOFS. What a command can do to one cell, and to the sets of observers of the views. -/

namespace Sys2Proof.Machine

/-- The reset command of a cell's file (40_register_cells.md R139); no command resets the pc. -/
def resetsFile (i : Instr) : Home → Prop
  | .x _ => i = .xreset
  | .f _ => i = .freset
  | .csr _ => i = .csrreset
  | .pc => False

/-- The commands that attach an observer to a cell (41_integer_file_and_pc.md R155, R164). -/
def attaches (i : Instr) : Home → Prop
  | .x _ => ∃ o, i = .xobsadd o
  | .pc => ∃ o, i = .pcobsadd o
  | .f _ => ∃ o, i = .fobsadd o
  | .csr _ => ∃ o, i = .csrobsadd o

/-- The commands that detach an observer from a cell (41_integer_file_and_pc.md R156, R165). -/
def detaches (i : Instr) : Home → Prop
  | .x _ => ∃ o, i = .xobsdel o
  | .pc => ∃ o, i = .pcobsdel o
  | .f _ => ∃ o, i = .fobsdel o
  | .csr _ => ∃ o, i = .csrobsdel o

/-- The command that changes the reset values of x2, x3 and the pc (45_memory_management.md R238). -/
def changesReset (i : Instr) (r : Home) : Prop := (∃ k, i = .setconfig k) ∧ (r = .x 2 ∨ r = .x 3 ∨ r = .pc)

/-- Every change a command can make to a cell that owns storage. -/
inductive CellEffect (i : Instr) (r : Home) (c : Cell) : Cell → Prop where
  | keep : CellEffect i r c c
  | value (v : Word64) (h : mayWrite i r) : CellEffect i r c { c with value := v }
  | reset (h : resetsFile i r) : CellEffect i r c (resetCell c)
  | attach (o : ObserverId) (h : attaches i r) : CellEffect i r c (observeCell o c)
  | detach (o : ObserverId) (h : detaches i r) : CellEffect i r c (unobserveCell o c)
  | resetValue (v : Word64) (h : changesReset i r) : CellEffect i r c { c with reset := v }

/-- What a change of every cell of a file does to one of them. -/
theorem cellEffect_mapAll {n : Nat} {i : Instr} {r : Home} {g : Cell → Cell} (hg : ∀ c, CellEffect i r c (g c))
    (v : Vector Cell n) (k : Fin n) : CellEffect i r v[k] (mapAll g v)[k] :=
  forall_mapAll (CellEffect i r) hg v k

/-- A new reset value is all SETCONFIG does to a cell (40_register_cells.md R137). -/
theorem cellChangeReset_cell (s : State) (h r : Home) (v : Word64) :
    (cellChangeReset s (.own h) v).cell r = if r = h then { s.cell h with reset := v } else s.cell r :=
  State.setCell_cell s h r _

/-- The state that SETCONFIG leaves, as one update (45_memory_management.md R238). -/
theorem reconfigured_eq (s : State) (k : Nat) (c : MemConfig) :
    cellChangeReset (cellChangeReset (cellChangeReset
      (State.setMemory { s with cur := k } (Memory.fresh c s.memory.observers))
      (.own (.x 2)) (c.spReset.setWidth 64)) (.own (.x 3)) (c.gpReset.setWidth 64)) (.own .pc) (c.pcReset.setWidth 64) =
      s.reconfigured k c := by
  rw [cellChangeReset_pointers]
  rfl

/-- The cells after SETCONFIG: a reset value of the configuration selected, everything else as before. -/
theorem reconfigured_cell (s : State) (k : Nat) (c : MemConfig) (r : Home) :
    (s.reconfigured k c).cell r =
      if r = .pc then { s.pc with reset := c.pcReset.setWidth 64 }
      else if r = .x 3 then { s.x[3] with reset := c.gpReset.setWidth 64 }
      else if r = .x 2 then { s.x[2] with reset := c.spReset.setWidth 64 } else s.cell r := by
  rw [← reconfigured_eq]
  simp only [cellChangeReset_cell, State.setMemory_cell]
  cases r <;> rfl

/-- Everything a command can do to a cell. -/
theorem Effect.cell {s u : State} {i : Instr} (h : Effect s i u) (r : Home) :
    CellEffect i r (s.cell r) (u.cell r) := by
  cases h with
  | value i h v hw =>
    rw [State.setValue_cell]
    split
    · next e => subst e; exact .value v hw
    · exact .keep
  | xreset =>
    cases r with
    | x k => exact cellEffect_mapAll (fun _ => by exact .reset rfl) s.x k
    | _ => exact .keep
  | freset =>
    cases r with
    | f k => exact cellEffect_mapAll (fun _ => by exact .reset rfl) s.f k
    | _ => exact .keep
  | csrreset =>
    cases r with
    | csr k => exact cellEffect_mapAll (fun _ => by exact .reset rfl) s.csr k
    | _ => exact .keep
  | xobsadd o =>
    cases r with
    | x k => exact cellEffect_mapAll (fun _ => by exact .attach o ⟨o, rfl⟩) s.x k
    | _ => exact .keep
  | pcobsadd o =>
    cases r with
    | pc => exact .attach o ⟨o, rfl⟩
    | _ => exact .keep
  | fobsadd o =>
    cases r with
    | f k => exact cellEffect_mapAll (fun _ => by exact .attach o ⟨o, rfl⟩) s.f k
    | _ => exact .keep
  | csrobsadd o =>
    cases r with
    | csr k => exact cellEffect_mapAll (fun _ => by exact .attach o ⟨o, rfl⟩) s.csr k
    | _ => exact .keep
  | xobsdel o =>
    cases r with
    | x k => exact cellEffect_mapAll (fun _ => by exact .detach o ⟨o, rfl⟩) s.x k
    | _ => exact .keep
  | pcobsdel o =>
    cases r with
    | pc => exact .detach o ⟨o, rfl⟩
    | _ => exact .keep
  | fobsdel o =>
    cases r with
    | f k => exact cellEffect_mapAll (fun _ => by exact .detach o ⟨o, rfl⟩) s.f k
    | _ => exact .keep
  | csrobsdel o =>
    cases r with
    | csr k => exact cellEffect_mapAll (fun _ => by exact .detach o ⟨o, rfl⟩) s.csr k
    | _ => exact .keep
  | setconfig k c hk hne =>
    rw [reconfigured_eq, reconfigured_cell]
    split
    · next e => subst e; exact .resetValue _ ⟨⟨k, rfl⟩, .inr (.inr rfl)⟩
    · split
      · next e => subst e; exact .resetValue _ ⟨⟨k, rfl⟩, .inr (.inl rfl)⟩
      · split
        · next e => subst e; exact .resetValue _ ⟨⟨k, rfl⟩, .inl rfl⟩
        · exact .keep
  | keep => exact .keep
  | store | install | alloc | memclear | copyfrom | obsadd | obsdel =>
    rw [State.setMemory_cell]
    exact .keep
  | swapinst | reserve | unreserve | rsvreset => cases r <;> exact .keep

/-- Everything a command can do to a view's set of observers (43_csr_file.md R190, R191). -/
theorem Effect.view {s u : State} {i : Instr} (h : Effect s i u) (j : Fin 5) :
    u.csrViews[j] = s.csrViews[j] ∨ ∃ o, (i = .csrobsadd o ∧ u.csrViews[j] = addObserver o s.csrViews[j]) ∨
      (i = .csrobsdel o ∧ u.csrViews[j] = removeObserver o s.csrViews[j]) := by
  cases h with
  | csrobsadd o => exact .inr ⟨o, .inl ⟨rfl, getElem_mapAll _ _ _ j.isLt⟩⟩
  | csrobsdel o => exact .inr ⟨o, .inr ⟨rfl, getElem_mapAll _ _ _ j.isLt⟩⟩
  | value => exact .inl (by simp [State.setValue])
  | setconfig => exact .inl (by simp [cellChangeReset])
  | _ => exact .inl rfl

section
variable {s u : State} (hx : u.x = s.x) (hpc : u.pc = s.pc) (hf : u.f = s.f) (hcsr : u.csr = s.csr)
include hx hpc hf hcsr

/-- States with the same files have the same cells. -/
theorem cell_congr (r : Home) : u.cell r = s.cell r := by cases r <;> simp only [State.cell, hx, hpc, hf, hcsr]

/-- States with the same files and views have the same sets of observers. -/
theorem observersOf_congr (hviews : u.csrViews = s.csrViews) (r : CellRef) : observersOf u r = observersOf s r := by
  cases r with
  | own h => rw [observersOf, cell_congr hx hpc hf hcsr, observersOf]
  | view j => rw [observersOf, hviews, observersOf]

end

section
variable {i : Instr} {r : Home} {c c' : Cell} (h : CellEffect i r c c')
include h

/-- A cell's value is changed by a write to it or by a reset of its file. -/
theorem CellEffect.value_changed (hne : c'.value ≠ c.value) : mayWrite i r ∨ resetsFile i r := by
  cases h with
  | value v hw => exact .inl hw
  | reset hr => exact .inr hr
  | _ => exact absurd rfl hne

/-- A cell's reset value is changed by SETCONFIG only (10_state.md R22). -/
theorem CellEffect.reset_changed (hne : c'.reset ≠ c.reset) : changesReset i r := by
  cases h with
  | resetValue v hr => exact hr
  | _ => exact absurd rfl hne

/-- A cell's set of observers is changed by the observer commands of its file only (70_reset_and_hazards.md R291). -/
theorem CellEffect.observers_changed (hne : c'.observers ≠ c.observers) : attaches i r ∨ detaches i r := by
  cases h with
  | attach o ha => exact .inl ha
  | detach o hd => exact .inr hd
  | _ => exact absurd rfl hne

/-- A command keeps the canonical form of a cell's set of observers. -/
theorem CellEffect.keeps_rising (hc : rising BitVec.toNat c.observers = true) :
    rising BitVec.toNat c'.observers = true := by
  cases h with
  | attach o => exact rising_addObserver o _ hc
  | detach o => exact rising_removeObserver o _ hc
  | _ => exact hc

end

/-- A command gives x0 no new value (10_state.md R25). -/
theorem not_mayWrite_x0 (i : Instr) : ¬mayWrite i (.x 0) := by
  cases i with
  | xwrite | xwriteb => exact fun h => h.2 rfl
  | _ => exact id

/-- SETCONFIG leaves the reset value of x0 (45_memory_management.md R238). -/
theorem not_changesReset_x0 (i : Instr) : ¬changesReset i (.x 0) := fun h => absurd h.2 (by decide)

/-- Whatever a command does to x0, its value and its reset value stay 0 (10_state.md R25). -/
theorem CellEffect.keeps_x0 {i : Instr} {c c' : Cell} (h : CellEffect i (.x 0) c c') (hv : c.value = 0)
    (hr : c.reset = 0) : c'.value = 0 ∧ c'.reset = 0 := by
  cases h with
  | value v hw => exact absurd hw (not_mayWrite_x0 i)
  | resetValue v hw => exact absurd hw (not_changesReset_x0 i)
  | reset => exact ⟨hr, hr⟩
  | _ => exact ⟨hv, hr⟩

end Sys2Proof.Machine

/-! PROOFS. The invariant (10_state.md sections 2 to 9): every effect of a command keeps it. -/

namespace Sys2Proof.Machine

/-! ## Instances -/

/-- A new table in canonical form within its blocks keeps the invariant of instances. -/
theorem Memory.Inv.setTable {m : Memory} (h : m.Inv) {S : Segment} {t : Table} (hwf : Table.wf S t = true)
    (hwithin : Table.within S (m.dims.blocks S) t = true) : (m.setTable S t).Inv :=
  { wf := setTable_wf m S t h.wf hwf
    within := setTable_within m S t h.within hwithin
    observers := by rw [Memory.setTable_observers]; exact h.observers
    heap := by rw [Memory.setTable_heap]; exact h.heap }

/-- A set of legal registrations in canonical form keeps the invariant of instances (10_state.md R43). -/
theorem Memory.Inv.setObservers {m : Memory} (h : m.Inv) {l : List MemObserver}
    (hrising : rising MemObserver.key l = true) (hlegal : ∀ o ∈ l, o.legal = true) :
    Memory.Inv { m with observers := l } :=
  { wf := (memoryWf_iff _).2 ⟨((memoryWf_iff m).1 h.wf).1, hrising⟩
    within := h.within
    observers := hlegal
    heap := h.heap }

/-- A cursor that is a multiple of 4 keeps the invariant of instances (45_memory_management.md R230). -/
theorem Memory.Inv.setHeap {m : Memory} (h : m.Inv) {a : Addr} (ha : a.toNat % 4 = 0) :
    Memory.Inv { m with heap := a } :=
  { wf := h.wf, within := h.within, observers := h.observers, heap := ha }

/-- The tables of an instance with the same dims keep the invariant of instances (45_memory_management.md R233). -/
theorem Memory.Inv.copyTables {m src : Memory} (h : m.Inv) (hsrc : src.Inv) (hd : src.dims = m.dims) :
    Memory.Inv { m with text := src.text, data := src.data, stack := src.stack, mmio := src.mmio } := by
  have hwithin := hsrc.within
  rw [Memory.within, hd] at hwithin
  exact {
    wf := (memoryWf_iff _).2 ⟨((memoryWf_iff src).1 hsrc.wf).1, ((memoryWf_iff m).1 h.wf).2⟩
    within := hwithin
    observers := h.observers
    heap := h.heap }

/-- A completed write keeps the invariant of the active instance. -/
theorem memWrite_inv {s : State} (h : s.Inv) {a : Addr} {n : Nat} {v prev : Word32} {m : Memory} (hn : 0 < n)
    (hm : memWrite s.config s.memory a n v = .ok (m, prev)) : m.Inv ∧ m.dims = s.memory.dims := by
  have hmem := inv_memory h
  have hwf := memWrite_wf _ _ _ _ _ _ _ hm hmem.wf
  have hwithin := memWrite_within _ _ _ _ _ _ _ hn hm (inv_valid h) h.dims hmem.within
  obtain ⟨S, t, -, rfl⟩ := memWrite_eq _ _ _ _ _ _ _ hm
  refine ⟨⟨hwf, hwithin, ?_, ?_⟩, Memory.setTable_dims ..⟩
  · rw [Memory.setTable_observers]; exact hmem.observers
  · rw [Memory.setTable_heap]; exact hmem.heap

/-- The word of an address of TEXT ends within the blocks of TEXT (10_state.md R38). -/
theorem word_within_text {s : State} (h : s.Inv) {a : Addr} (hc : classify s.config a = some .text) :
    4 * wordIndex s.config .text a + 3 < s.memory.dims.blocks .text * blockBytes := by
  have hv := inv_valid h
  have hcontains := contains_of_classify s.config a .text hc
  have hbounds := (rangeContains_iff _ _).1 hcontains
  have hvalid := (rangeValid_iff _).1 (range_valid s.config hv .text)
  rw [h.dims, dimsOf_blocks, wordIndex_eq s.config .text a (by decide) hcontains]
  simp only [blockCount, blockBytes]
  omega

/-- A filled slot keeps the invariant of the active instance (44_memory_access.md R210). -/
theorem withSlot_inv {s : State} (h : s.Inv) {a : Addr} (v : Word32) (hc : classify s.config a = some .text) :
    (s.withSlot a v).Inv := by
  have hmem := inv_memory h
  exact hmem.setTable (putWord_wf _ _ _ v (((memoryWf_iff _).1 hmem.wf).1 .text))
    (putWord_within _ _ _ _ v ((memoryWithin_iff _).1 hmem.within .text) (word_within_text h hc))

/-- ALLOC keeps the cursor a multiple of 4 (45_memory_management.md R230). -/
theorem alloc_heap_aligned {s : State} (h : s.Inv) {n : Nat}
    (hn : s.memory.heap.toNat + roundUp4 n ≤ s.config.data.high.toNat) :
    (BitVec.ofNat 32 (s.memory.heap.toNat + roundUp4 n)).toNat % 4 = 0 := by
  have hheap := (inv_memory h).heap
  rw [BitVec.toNat_ofNat, Nat.mod_eq_of_lt (hn.trans_lt s.config.data.high.isLt), roundUp4]
  omega

/-! ## Cells -/

/-- A command that changes cells only, and no reset value, keeps the invariant: x0 stays 0 and every set of observers stays
in canonical form. -/
theorem Effect.inv_of_cells {s u : State} {i : Instr} (he : Effect s i u) (h : s.Inv) (hi : ∀ k, i ≠ .setconfig k)
    (hu : u = { s with x := u.x, pc := u.pc, f := u.f, csr := u.csr, csrViews := u.csrViews }) : u.Inv := by
  have hx0 := (he.cell (.x 0)).keeps_x0 h.x0 (h.resets (.x 0))
  have hresets : ∀ r, (u.cell r).reset = (s.cell r).reset := fun r =>
    not_not.1 fun hne => ((he.cell r).reset_changed hne).1.elim hi
  obtain ⟨hparams, hcur, hactive, hinsts, hrsv, hcfgs⟩ : u.params = s.params ∧ u.cur = s.cur ∧ u.active = s.active ∧
      u.insts = s.insts ∧ u.rsv = s.rsv ∧ u.cfgs = s.cfgs := by rw [hu]; exact ⟨rfl, rfl, rfl, rfl, rfl, rfl⟩
  refine inv_cells h hparams hcur hactive hinsts hrsv hcfgs hx0.1 hresets fun r => ?_
  have hr := h.observers r
  cases r with
  | own h' => exact (he.cell h').keeps_rising hr
  | view j =>
    simp only [observersOf] at hr ⊢
    rcases he.view j with hj | ⟨o, ⟨-, hj⟩ | ⟨-, hj⟩⟩ <;> rw [hj]
    · exact hr
    · exact rising_addObserver o _ hr
    · exact rising_removeObserver o _ hr

/-! ## Selections and tables -/

/-- Reservation tables for the same harts, each legal, keep the invariant (10_state.md R44). -/
theorem inv_withTables {s : State} (h : s.Inv) {tables : List (List Reservation)}
    (hlen : tables.length = s.rsv.length) (hlegal : ∀ t ∈ tables, reservationsLegal t = true) :
    (s.withTables tables).Inv :=
  { params := by
      have hp : (s.withTables tables).params = s.params := by simp [State.params, State.withTables, hlen]
      rw [hp]
      exact h.params
    cur := h.cur
    active := h.active
    insts := h.insts
    dims := h.dims
    x0 := h.x0
    resets := fun r => by rw [State.withTables_cell]; exact h.resets r
    observers := fun r => by rw [observersOf_congr rfl rfl rfl rfl rfl]; exact h.observers r
    rsv := hlegal }

/-- A member of a list after one place of it was changed. -/
theorem mem_modify {α : Type} {f : α → α} {l : List α} {k : Nat} {a : α} (h : a ∈ l.modify k f) :
    a ∈ l ∨ ∃ b ∈ l, a = f b := by
  obtain ⟨j, hj⟩ := List.mem_iff_getElem?.1 h
  rw [List.getElem?_modify, Option.map_eq_map, Option.map_eq_some_iff] at hj
  obtain ⟨b, hb, rfl⟩ := hj
  have hmem := List.mem_of_getElem? hb
  split
  · exact .inr ⟨b, hmem, rfl⟩
  · exact .inl hmem

/-- Another active instance with the dims of the current configuration keeps the invariant (45_memory_management.md
R234). -/
theorem inv_swap {s : State} (h : s.Inv) {k : Nat} {target : Memory} (hk : s.insts[k]? = some target)
    (hd : target.dims = dimsOf s.config) : State.Inv { s with active := k } :=
  { params := h.params
    cur := h.cur
    active := (List.getElem?_eq_some_iff.1 hk).1
    insts := h.insts
    dims := by
      have hmem : State.memory { s with active := k } = target := by simp [State.memory, hk]
      rw [hmem]
      exact hd
    x0 := h.x0
    resets := fun r => by rw [cell_congr rfl rfl rfl rfl]; exact h.resets r
    observers := fun r => by rw [observersOf_congr rfl rfl rfl rfl rfl]; exact h.observers r
    rsv := h.rsv }

/-- Another configuration of CFGS keeps the invariant (45_memory_management.md R238). -/
theorem inv_reconfigured {s : State} (h : s.Inv) {k : Nat} {c : MemConfig} (hk : s.cfgs[k]? = some c) :
    (s.reconfigured k c).Inv := by
  obtain ⟨hlt, rfl⟩ := List.getElem?_eq_some_iff.1 hk
  have hmem := inv_memory h
  have hvalid : s.cfgs[k].valid = true := params_valid_mem s.params h.params _ (List.getElem_mem hlt)
  have hcell := reconfigured_cell s k s.cfgs[k]
  exact {
    params := by
      have hp : (s.reconfigured k s.cfgs[k]).params = s.params := State.setMemory_params s _
      rw [hp]
      exact h.params
    cur := hlt
    active := by simpa [State.reconfigured] using h.active
    insts := fun m hm => by
      rcases List.mem_or_eq_of_mem_set hm with hm | rfl
      · exact h.insts m hm
      · exact fresh_inv hvalid ((memoryWf_iff _).1 hmem.wf).2 hmem.observers
    dims := by
      rw [State.reconfigured_memory _ _ h.active, State.reconfigured_config hlt]
      rfl
    x0 := (congrArg Cell.value (hcell (.x 0))).trans h.x0
    resets := fun r => by
      have hr := h.resets r
      rw [hcell, State.reconfigured_config hlt]
      split
      · next e => rw [e]; rfl
      · split
        · next e => rw [e]; rfl
        · split
          · next e => rw [e]; rfl
          · rw [hr]
            cases r <;> simp_all [resetValue]
    observers := fun r => by
      rw [← reconfigured_eq]
      simp only [observersOf_cellChangeReset, State.setMemory_observersOf]
      rw [observersOf_congr rfl rfl rfl rfl rfl]
      exact h.observers r
    rsv := h.rsv }

/-! ## Every effect -/

/-- Every command keeps the invariant. -/
theorem Effect.keeps_inv {s u : State} {i : Instr} (he : Effect s i u) (h : s.Inv) : u.Inv := by
  have hcells := he.inv_of_cells h
  have hmem := inv_memory h
  have hobservers : rising MemObserver.key s.memory.observers = true := ((memoryWf_iff _).1 hmem.wf).2
  cases he with
  | keep => exact h
  | value i r v hw =>
    refine hcells ?_ (by cases r <;> rfl)
    rintro k rfl
    exact hw
  | xreset | xobsadd | xobsdel | pcobsadd | pcobsdel | freset | fobsadd | fobsdel | csrreset | csrobsadd | csrobsdel =>
    exact hcells nofun rfl
  | store i a n v prev m hi hn hm =>
    obtain ⟨hinv, hdims⟩ := memWrite_inv h (by omega) hm
    exact inv_setMemory h m hinv hdims
  | install a v hc => exact inv_setMemory h _ (withSlot_inv h v hc) rfl
  | alloc size n hn => exact inv_setMemory h _ (hmem.setHeap (alloc_heap_aligned h hn)) rfl
  | memclear => exact inv_setMemory h _ (fresh_inv (inv_valid h) hobservers hmem.observers) h.dims.symm
  | copyfrom k src hk hd =>
    exact inv_setMemory h _ (hmem.copyTables (h.insts _ (List.mem_of_getElem? hk)) hd) rfl
  | swapinst k target hk hd => exact inv_swap h hk hd
  | obsadd i o a b hi hl =>
    refine inv_setMemory h _ (hmem.setObservers (rising_insertRising _ _ _ hobservers) fun r hr => ?_) rfl
    rcases mem_of_mem_insertRising _ _ _ _ hr with rfl | hr
    · exact hl
    · exact hmem.observers r hr
  | obsdel o =>
    exact inv_setMemory h _ (hmem.setObservers (rising_filter _ _ _ hobservers)
      fun r hr => hmem.observers r (List.mem_filter.1 hr).1) rfl
  | setconfig k c hk hne =>
    rw [reconfigured_eq]
    exact inv_reconfigured h hk
  | reserve k len a w hw hh ha =>
    refine inv_withTables h (List.length_modify ..) fun t ht => ?_
    rcases mem_modify ht with ht | ⟨t', ht', rfl⟩
    · exact h.rsv t ht
    · exact addReservation_legal _ _ (h.rsv t' ht') ha
  | unreserve k len a w hw =>
    refine inv_withTables h (List.length_map ..) fun t ht => ?_
    obtain ⟨t', ht', rfl⟩ := List.mem_map.1 ht
    exact reservationsLegal_filter _ _ (h.rsv t' ht')
  | rsvreset =>
    refine inv_withTables h (List.length_map ..) fun t ht => ?_
    obtain ⟨t', -, rfl⟩ := List.mem_map.1 ht
    exact reservationsLegal_nil

/-- The ports are no part of the invariant. -/
theorem inv_answer {s : State} (h : s.Inv) (r : Response) (g : List (List Notice)) : (s.answer r g).Inv :=
  inv_cells h rfl rfl rfl rfl rfl rfl h.x0 (fun _ => by rw [State.answer_cell])
    (fun c => by rw [State.answer_observersOf]; exact h.observers c)

/-- The inputs are no part of the invariant. -/
theorem inv_inputs {s : State} (h : s.Inv) (a b : Bool) (l : List Input) :
    State.Inv { s with smcEn := a, backstepEn := b, pending := l } :=
  inv_cells h rfl rfl rfl rfl rfl rfl h.x0 (fun r => congrArg Cell.reset (cell_congr rfl rfl rfl rfl r))
    (fun c => by rw [observersOf_congr rfl rfl rfl rfl rfl]; exact h.observers c)

/-- Settles O12: the invariant does not see the inputs and the ports, the reset state has it, and every effect keeps it. -/
theorem stepKeepsTheInvariant : Obligations.StepKeepsTheInvariant := by
  unfold Obligations.StepKeepsTheInvariant
  intro s t
  exact step_keeps State.Inv (fun s r g h => inv_answer h r g) (fun s a b l h => inv_inputs h a b l)
    (fun s h => resetOf_inv h.params) (fun i s u h he => he.keeps_inv h)

end Sys2Proof.Machine

/-! PROOFS. Writes of the floating-point file (42_fp_file.md), and the CSR file (43_csr_file.md). -/

namespace Sys2Proof.Machine

/-! ## Writes of the floating-point file -/

/-- A write of a mapped floating-point number stores the value it is given and answers the previous raw value
(42_fp_file.md R173, R174). -/
theorem respondAccess_cellSet_f (s : State) (idx : Index) (v : Word64) (h : idx.toNat < 32) :
    respondAccess (cellSet s (.own (.f ⟨idx.toNat, h⟩)) v) = .next
      (State.ends { s with f := s.f.set idx.toNat { s.f[idx.toNat] with value := v } }
        ⟨.ok, false, false, s.f[idx.toNat].value⟩
        [cellNotices .write .f (idx.setWidth 32) s.f[idx.toNat].observers]) := by
  rw [← registerNotices_f s .write idx h]
  exact respondAccess_cellSet_own s _ v (keptBits_f _)

/-- FWRITE32 stores the pattern NaN-boxed (42_fp_file.md R173). -/
theorem exec_fwrite32_of_lt (s : State) (idx : Index) (w : Word32) (h : idx.toNat < 32) :
    exec (.fwrite32 idx w) s = .next
      (State.ends { s with f := s.f.set idx.toNat { s.f[idx.toNat] with value := 0xFFFFFFFF#32 ++ w } }
        ⟨.ok, false, false, s.f[idx.toNat].value⟩
        [cellNotices .write .f (idx.setWidth 32) s.f[idx.toNat].observers]) := by
  rw [← boxFloat_eq]
  exact (onCell_of_some _ (lookupF_of_lt idx h)).trans (respondAccess_cellSet_f s idx _ h)

/-- FREAD32 after FWRITE32 answers the pattern (42_fp_file.md R170, R173). -/
theorem fread32_after_fwrite32 {s t : State} {idx : Index} {w : Word32} (h : idx.toNat < 32)
    (ht : exec (.fwrite32 idx w) s = .next t) :
    ∃ u, exec (.fread32 idx) t = .next u ∧ u.rsp = some ⟨.ok, false, false, w.setWidth 64⟩ := by
  rw [exec_fwrite32_of_lt s idx w h] at ht
  cases ht
  refine ⟨_, exec_fread32_of_lt _ idx h, ?_⟩
  simp [State.ends, ← boxFloat_eq]

/-- Settles O34: the three writes store a whole value, and an unboxed box is the pattern. -/
theorem floatWrites : Obligations.FloatWrites := by
  unfold Obligations.FloatWrites
  intro s idx w data
  refine ⟨hasOpcode_of_encode rfl rfl, hasOpcode_of_encode rfl rfl, hasOpcode_of_encode rfl rfl, fun hlt => ?_,
    fun hge => ?_⟩
  · have hfound := lookupF_of_lt idx hlt
    exact ⟨exec_fwrite32_of_lt s idx w hlt, (onCell_of_some _ hfound).trans (respondAccess_cellSet_f s idx data hlt),
      (onCell_of_some _ hfound).trans (respondAccess_cellSetBackdoor_own s _ data), fun t => fread32_after_fwrite32 hlt⟩
  · have hnone := lookupF_of_ge idx hge
    exact ⟨onCell_of_none _ hnone, onCell_of_none _ hnone, onCell_of_none _ hnone⟩

/-! ## The numbers of the CSR file -/

/-- A fact about every place of a list holds of every member. -/
theorem forall_mem_of_forall_getElem {α : Type} {l : List α} {P : α → Prop} (h : ∀ k : Fin l.length, P l[k]) :
    ∀ a ∈ l, P a := by
  intro a ha
  obtain ⟨k, hk, rfl⟩ := List.getElem_of_mem ha
  exact h ⟨k, hk⟩

/-- The numbers of the cells that own storage name them (10_state.md R31). -/
theorem ownCsrs_lookup : ∀ p ∈ ownCsrs, lookupCsr p.1 = some (.own (.csr p.2)) :=
  forall_mem_of_forall_getElem (by decide)

/-- The notices of these cells carry their numbers (30_encoding.md R106). -/
theorem ownCsrs_number : ∀ p ∈ ownCsrs, cellNumber (.own (.csr p.2)) = p.1.setWidth 32 :=
  forall_mem_of_forall_getElem (by decide)

/-- The numbers of the views name them (10_state.md R31). -/
theorem linkedCsrs_lookup : ∀ v ∈ linkedCsrs, lookupCsr v.number = some (.view v.view) := by decide

/-- The notices of the views carry their numbers (30_encoding.md R106). -/
theorem linkedCsrs_number : ∀ v ∈ linkedCsrs, cellNumber (.view v.view) = v.number.setWidth 32 := by decide

/-- The base of each view (10_state.md R31). -/
theorem linkedCsrs_base : ∀ v ∈ linkedCsrs, viewBase v.view = v.base := by decide

/-- The number of each view's base names it (10_state.md R31). -/
theorem linkedCsrs_baseNumber : ∀ v ∈ linkedCsrs, (v.baseNumber, v.base) ∈ ownCsrs := by decide

/-- The mask of each view is its field (10_state.md R31, R32). -/
theorem linkedCsrs_mask : ∀ v ∈ linkedCsrs, ∀ i < 64,
    (viewMask v.view).getLsbD i = decide (v.low ≤ i ∧ i < v.low + v.width) := by decide

/-- The shift of each view is the low end of its field (10_state.md R31). -/
theorem linkedCsrs_shift : ∀ v ∈ linkedCsrs, lsbIndex (viewMask v.view) = v.low := by decide

/-- A number outside the block's list names nothing (10_state.md R30). -/
theorem lookupCsr_of_not_mem {idx : Index} (h : idx ∉ csrOrder) : lookupCsr idx = none :=
  lookupCsr_eq_none idx h

/-- The notices of a cell that owns storage (40_register_cells.md R138). -/
theorem registerNotices_own {p : Index × Fin 12} (hp : p ∈ ownCsrs) (s : State) (kind : AccessKind) :
    registerNotices s kind (.own (.csr p.2)) = cellNotices kind .csr (p.1.setWidth 32) s.csr[p.2].observers := by
  rw [← ownCsrs_number p hp]
  rfl

/-- The notices of a view (40_register_cells.md R138). -/
theorem registerNotices_view {v : ViewSpec} (hv : v ∈ linkedCsrs) (s : State) (kind : AccessKind) :
    registerNotices s kind (.view v.view) = cellNotices kind .csr (v.number.setWidth 32) s.csrViews[v.view] := by
  rw [← linkedCsrs_number v hv]
  rfl

/-! ## Fields -/

/-- A masked field, shifted down, is the extract (10_state.md R32). -/
theorem fieldOf_eq {lo w : Nat} {mask : Word64} (b : Word64)
    (hm : ∀ i < 64, mask.getLsbD i = decide (lo ≤ i ∧ i < lo + w)) (hl : lsbIndex mask = lo) :
    fieldOf mask b = (b.extractLsb' lo w).setWidth 64 := by
  apply BitVec.eq_of_getLsbD_eq
  intro i hi
  simp only [fieldOf, hl, BitVec.getLsbD_ushiftRight, BitVec.getLsbD_and, BitVec.getLsbD_setWidth,
    BitVec.getLsbD_extractLsb', hi]
  by_cases hlt : lo + i < 64
  · rw [hm _ hlt]
    simp [Bool.and_comm]
  · rw [BitVec.getLsbD_of_ge b _ (by omega)]
    simp

/-- A view shows its field of its base (10_state.md R32). -/
theorem cellPeek_view {v : ViewSpec} (hv : v ∈ linkedCsrs) (s : State) :
    cellPeek s (.view v.view) = (s.csr[v.base].value.extractLsb' v.low v.width).setWidth 64 := by
  rw [cellPeek, linkedCsrs_base v hv]
  exact fieldOf_eq _ (linkedCsrs_mask v hv) (linkedCsrs_shift v hv)

/-- A write through a view's mask sets its field and keeps the other bits of its base (40_register_cells.md R135). -/
theorem getLsbD_withField_view {v : ViewSpec} (hv : v ∈ linkedCsrs) (base w : Word64) {i : Nat} (hi : i < 64) :
    (withField (viewMask v.view) base w).getLsbD i =
      if v.low ≤ i ∧ i < v.low + v.width then w.getLsbD (i - v.low) else base.getLsbD i :=
  getLsbD_withField v.low v.width _ base w (linkedCsrs_mask v hv) (linkedCsrs_shift v hv) i hi

/-! ## Reads of the CSR file -/

/-- CSRREAD of a number that is mapped (43_csr_file.md R185). -/
theorem exec_csrread_of_lookup {s : State} {idx : Index} {r : CellRef} (h : lookupCsr idx = some r) :
    exec (.csrread idx) s = .next (s.ends ⟨.ok, false, false, cellPeek s r⟩ [registerNotices s .read r]) :=
  onCell_of_some _ h

/-- CSRREADQ of a number that is mapped (43_csr_file.md R186). -/
theorem exec_csrreadq_of_lookup {s : State} {idx : Index} {r : CellRef} (h : lookupCsr idx = some r) :
    exec (.csrreadq idx) s = .next (s.ends ⟨.ok, false, false, cellPeek s r⟩ []) := onCell_of_some _ h

/-- Settles O35: every number of the list names a cell or a view, and the reads answer what it shows. -/
theorem csrReads : Obligations.CsrReads := by
  unfold Obligations.CsrReads
  refine ⟨fun idx => ⟨hasOpcode_of_encode rfl rfl, hasOpcode_of_encode rfl rfl⟩, fun s =>
    ⟨fun p hp => ?_, fun v hv => ?_, fun idx hidx => ?_⟩⟩
  · rw [← registerNotices_own hp s .read]
    exact ⟨exec_csrread_of_lookup (ownCsrs_lookup p hp), exec_csrreadq_of_lookup (ownCsrs_lookup p hp)⟩
  · rw [← registerNotices_view hv s .read, ← cellPeek_view hv s]
    exact ⟨exec_csrread_of_lookup (linkedCsrs_lookup v hv), exec_csrreadq_of_lookup (linkedCsrs_lookup v hv)⟩
  · have hnone := lookupCsr_of_not_mem hidx
    exact ⟨onCell_of_none _ hnone, onCell_of_none _ hnone⟩

/-! ## Positions -/

/-- A number of the list stands at its position (43_csr_file.md R192). -/
theorem csrPosition_of_getElem? {idx : Index} {pos : Nat} (h : csrOrder[pos]? = some idx) :
    csrPosition idx = some pos := by
  have hposition : ∀ k : Fin csrOrder.length, csrPosition csrOrder[k] = some k.val := by decide
  obtain ⟨hlt, rfl⟩ := List.getElem?_eq_some_iff.1 h
  exact hposition ⟨pos, hlt⟩

/-- A number outside the list has no position (43_csr_file.md R192). -/
theorem csrPosition_of_not_mem {idx : Index} (h : idx ∉ csrOrder) : csrPosition idx = none := by
  rw [csrPosition, List.findIdx?_eq_none_iff]
  intro row hrow
  rw [beq_eq_false_iff_ne]
  rintro rfl
  exact h (List.mem_map_of_mem (f := CsrRow.number) hrow)

/-- Settles O40: the list's numbers are distinct, so the first with the number is the one. -/
theorem csrPositions : Obligations.CsrPositions := by
  unfold Obligations.CsrPositions
  intro s idx
  refine ⟨hasOpcode_of_encode rfl rfl, fun pos hpos => ?_, fun hidx => ?_⟩
  · show execCsrpos idx s = _
    rw [execCsrpos, csrPosition_of_getElem? hpos]
    rfl
  · show execCsrpos idx s = _
    rw [execCsrpos, csrPosition_of_not_mem hidx]
    rfl

/-! ## Backdoor writes -/

/-- The state with one storage-owning CSR cell at another value. -/
def State.withCsr (s : State) (k : Fin 12) (v : Word64) : State :=
  { s with csr := s.csr.set k { s.csr[k] with value := v } }

/-- The cell holds the value it was given. -/
theorem State.withCsr_value (s : State) (k : Fin 12) (v : Word64) : (s.withCsr k v).csr[k].value = v := by
  simp [State.withCsr]

/-- Settles O37: a backdoor write is one new value of the cell, for a view of its base. -/
theorem csrBackdoorWrites : Obligations.CsrBackdoorWrites := by
  unfold Obligations.CsrBackdoorWrites
  refine fun s v => ⟨fun _ => hasOpcode_of_encode rfl rfl, fun p hp => ?_, fun p hp => ?_, fun idx hidx => ?_⟩
  · exact (onCell_of_some _ (ownCsrs_lookup p hp)).trans (respondAccess_cellSetBackdoor_own s _ v)
  · refine ⟨withField (viewMask p.view) s.csr[p.base].value v, ?_, fun i => getLsbD_withField_view hp _ _⟩
    rw [← cellPeek_view hp s]
    refine (onCell_of_some _ (linkedCsrs_lookup p hp)).trans ?_
    simp only [respondAccess, cellSetBackdoor, linkedCsrs_base p hp]
    rfl
  · exact onCell_of_none _ (lookupCsr_of_not_mem hidx)

/-! ## Ordinary writes -/

/-- The numbers an ordinary write is not refused at: the first nine cells that own storage (43_csr_file.md R187). -/
theorem ownCsrs_writable : ∀ p ∈ ownCsrs.take 9,
    p ∈ ownCsrs ∧ isReadOnly (.own (.csr p.2)) = false ∧ isCounterHigh p.1 = false :=
  forall_mem_of_forall_getElem (by decide)

/-- fflags and frm are not refused, and their base is fcsr (43_csr_file.md R187). -/
theorem linkedCsrs_writable : ∀ p ∈ linkedCsrs.take 2,
    isReadOnly (.view p.view) = false ∧ isCounterHigh p.number = false ∧ p.base = 1 := by decide

/-- The fields of fflags and frm lie in the bits a write of fcsr may change (10_state.md R32). -/
theorem linkedCsrs_within_fcsr : ∀ p ∈ linkedCsrs.take 2, p.low + p.width ≤ 8 := by decide

/-- The masks of ustatus and fcsr; the seven plain cells have none (10_state.md R31). -/
theorem ownCsrs_mask : ∀ p ∈ ownCsrs.take 9, keptBits (.csr p.2) =
    if p.1 = 0x000 then 0xFFFFFFFFFFFFFFEE#64 else if p.1 = 0x003 then 0xFFFFFFFFFFFFFF00#64 else 0#64 :=
  forall_mem_of_forall_getElem (by decide)

/-- The bits an ordinary write keeps: all but 0 and 4 of ustatus, those from 8 on of fcsr (10_state.md R31). -/
theorem ownCsrs_keptBits {p : Index × Fin 12} (hp : p ∈ ownCsrs.take 9) {i : Nat} (hi : i < 64) :
    (keptBits (.csr p.2)).getLsbD i = decide ((p.1 = 0x000 ∧ i ≠ 0 ∧ i ≠ 4) ∨ (p.1 = 0x003 ∧ 8 ≤ i)) := by
  have hustatus : ∀ i < 64, (0xFFFFFFFFFFFFFFEE#64).getLsbD i = decide (i ≠ 0 ∧ i ≠ 4) := by decide
  have hfcsr : ∀ i < 64, (0xFFFFFFFFFFFFFF00#64).getLsbD i = decide (8 ≤ i) := by decide
  rw [ownCsrs_mask p hp]
  by_cases h0 : p.1 = 0#12
  · simp [h0, hustatus i hi]
  · by_cases h3 : p.1 = 3#12
    · simp [h3, hfcsr i hi]
    · simp [h0, h3]

/-- CSRWRITE of a number that is mapped and not refused is a write of the cell (43_csr_file.md R187). -/
theorem exec_csrwrite_of_lookup {s : State} {idx : Index} {r : CellRef} {v : Word64} (h : lookupCsr idx = some r)
    (hro : isReadOnly r = false) (hhigh : isCounterHigh idx = false) :
    exec (.csrwrite idx v) s = respondAccess (cellSet s r v) := by
  refine (onCell_of_some _ h).trans ?_
  rw [hro, hhigh]
  rfl

/-- CSRWRITE of a counter or an h number is refused (43_csr_file.md R187). -/
theorem exec_csrwrite_refused {s : State} {idx : Index} {v : Word64}
    (h : idx ∈ [0xC00#12, 0xC01#12, 0xC02#12, 0xC80#12, 0xC81#12, 0xC82#12]) :
    exec (.csrwrite idx v) s = .next (s.ends ⟨.ok, false, true, 0⟩ []) := by
  simp only [List.mem_cons, List.not_mem_nil, or_false] at h
  rcases h with rfl | rfl | rfl | rfl | rfl | rfl <;> rfl

/-- Settles O36: a write that is not refused stores the value merged with the kept bits, a view's through its base. -/
theorem csrWrites : Obligations.CsrWrites := by
  unfold Obligations.CsrWrites
  refine fun s v => ⟨fun _ => hasOpcode_of_encode rfl rfl, fun p hp => ?own, fun p hp => ?view,
    fun idx => exec_csrwrite_refused, fun idx hidx => onCell_of_none _ (lookupCsr_of_not_mem hidx)⟩
  case own =>
    obtain ⟨hown, hro, hhigh⟩ := ownCsrs_writable p hp
    refine ⟨mergeKept (keptBits (.csr p.2)) s.csr[p.2].value v, ?_, fun i hi => ?_⟩
    · rw [exec_csrwrite_of_lookup (ownCsrs_lookup p hown) hro hhigh, ← registerNotices_own hown s .write]
      rfl
    · rw [getLsbD_mergeKept _ _ _ i hi, ownCsrs_keptBits hp hi]
      simp only [decide_eq_true_eq]
  case view =>
    obtain ⟨hro, hhigh, hbase⟩ := linkedCsrs_writable p hp
    have hview : p ∈ linkedCsrs := List.mem_of_mem_take hp
    have hfcsr : (0x003, 1) ∈ ownCsrs.take 9 := by decide
    have hpeek := cellPeek_view hview s
    simp only [hbase] at hpeek
    refine ⟨mergeKept (keptBits (.csr 1)) s.csr[1].value (withField (viewMask p.view) s.csr[1].value v), ?_, fun i hi => ?_⟩
    · rw [exec_csrwrite_of_lookup (linkedCsrs_lookup p hview) hro hhigh, ← registerNotices_view hview s .write]
      simp only [respondAccess, cellSet, linkedCsrs_base p hview, hbase, hpeek]
      rfl
    · rw [getLsbD_mergeKept _ _ _ i hi, ownCsrs_keptBits hfcsr hi, getLsbD_withField_view hview _ _ hi]
      have hfield : p.low + p.width ≤ 8 := linkedCsrs_within_fcsr p hp
      by_cases h8 : 8 ≤ i
      · simp [h8, show ¬ i < p.low + p.width by omega]
      · simp [h8]

/-! ## A write through one name, seen through another -/

/-- CSRREADQ answers a cell that owns storage whole. -/
theorem csrreadq_own {p : Index × Fin 12} (hp : p ∈ ownCsrs) (s : State) :
    ∃ u, exec (.csrreadq p.1) s = .next u ∧ u.rsp = some ⟨.ok, false, false, s.csr[p.2].value⟩ :=
  ⟨_, exec_csrreadq_of_lookup (ownCsrs_lookup p hp), rfl⟩

/-- CSRREADQ answers a view as its field of its base. -/
theorem csrreadq_view {p : ViewSpec} (hp : p ∈ linkedCsrs) (s : State) :
    ∃ u, exec (.csrreadq p.number) s = .next u ∧
      u.rsp = some ⟨.ok, false, false, (s.csr[p.base].value.extractLsb' p.low p.width).setWidth 64⟩ := by
  rw [← cellPeek_view hp s]
  exact ⟨_, exec_csrreadq_of_lookup (linkedCsrs_lookup p hp), rfl⟩

/-- CSRWRITE to fcsr sets its low eight bits. -/
theorem csrwrite_fcsr (s : State) (v : Word64) :
    ∃ t, exec (.csrwrite 0x003 v) s = .next t ∧ ∀ i < 8, t.csr[1].value.getLsbD i = v.getLsbD i := by
  obtain ⟨-, hown, -⟩ := csrWrites s v
  obtain ⟨w, hexec, hbits⟩ := hown (0x003, 1) (by decide)
  refine ⟨_, hexec, fun i hi => ?_⟩
  simpa [State.ends, hi, show ¬ 8 ≤ i by omega] using hbits i (by omega)

/-- CSRWRITE to fflags or frm sets its field of fcsr and no other bit. -/
theorem csrwrite_view {p : ViewSpec} (hp : p ∈ linkedCsrs.take 2) (s : State) (v : Word64) :
    ∃ t, exec (.csrwrite p.number v) s = .next t ∧ ∀ i < 64, t.csr[1].value.getLsbD i =
      if p.low ≤ i ∧ i < p.low + p.width then v.getLsbD (i - p.low) else s.csr[1].value.getLsbD i := by
  obtain ⟨-, -, hview, -⟩ := csrWrites s v
  obtain ⟨w, hexec, hbits⟩ := hview p hp
  refine ⟨_, hexec, fun i hi => ?_⟩
  simpa [State.ends] using hbits i hi

/-- CSRWRITEB to a cell that owns storage gives it the value. -/
theorem csrwriteb_own {p : Index × Fin 12} (hp : p ∈ ownCsrs) (s : State) (v : Word64) :
    ∃ t, exec (.csrwriteb p.1 v) s = .next t ∧ t.csr[p.2].value = v := by
  obtain ⟨-, hown, -⟩ := csrBackdoorWrites s v
  exact ⟨_, hown p hp, by simp [State.ends]⟩

/-- CSRWRITEB to a view sets its field of its base and no other bit. -/
theorem csrwriteb_view {p : ViewSpec} (hp : p ∈ linkedCsrs) (s : State) (v : Word64) :
    ∃ t, exec (.csrwriteb p.number v) s = .next t ∧ ∀ i < 64, t.csr[p.base].value.getLsbD i =
      if p.low ≤ i ∧ i < p.low + p.width then v.getLsbD (i - p.low) else s.csr[p.base].value.getLsbD i := by
  obtain ⟨-, -, hview, -⟩ := csrBackdoorWrites s v
  obtain ⟨w, hexec, hbits⟩ := hview p hp
  refine ⟨_, hexec, fun i hi => ?_⟩
  simpa [State.ends] using hbits i hi

/-- Two slices of a width are equal when their bits are. -/
theorem extractLsb'_congr {n lo w : Nat} {x y : BitVec n} (h : ∀ i < w, x.getLsbD (lo + i) = y.getLsbD (lo + i)) :
    x.extractLsb' lo w = y.extractLsb' lo w :=
  extractLsb'_eq_of_bits fun i hi => by rw [h i hi]; simp [hi]

/-- fcsr is frm above fflags (10_state.md R32). -/
theorem fcsr_eq_append {d frm fflags : Word64} {lo : Nat} (hlow : ∀ i < 5, d.getLsbD i = fflags.getLsbD i)
    (hhigh : ∀ i < 3, d.getLsbD (5 + i) = frm.getLsbD (lo + i)) :
    d.extractLsb' 0 8 = frm.extractLsb' lo 3 ++ fflags.extractLsb' 0 5 := by
  refine extractLsb'_eq_of_bits fun i hi => ?_
  rw [BitVec.getLsbD_append, Nat.zero_add]
  by_cases h5 : i < 5
  · simp [h5, hlow i h5]
  · have h := hhigh (i - 5) (by omega)
    rw [show 5 + (i - 5) = i by omega] at h
    simp [h5, h, show i - 5 < 3 by omega]

/-- Settles O38: every write is seen at once through the base, of which every view is a field. -/
theorem viewsAliasTheirBase : Obligations.ViewsAliasTheirBase := by
  unfold Obligations.ViewsAliasTheirBase
  refine fun s v w => ⟨?fcsr, fun p hp => ?base⟩
  case fcsr =>
    have hfcsr : ((0x003 : Index), (1 : Fin 12)) ∈ ownCsrs := by decide
    have hfflags : (⟨0x001, 0, 1, 0x003, 0, 5⟩ : ViewSpec) ∈ linkedCsrs.take 2 := .head _
    have hfrm : (⟨0x002, 1, 1, 0x003, 5, 3⟩ : ViewSpec) ∈ linkedCsrs.take 2 := .tail _ (.head _)
    obtain ⟨t, ht, htbits⟩ := csrwrite_fcsr s v
    refine ⟨t, ht, ?_, ?_, ?_, ?_⟩
    · rw [← extractLsb'_congr fun i hi => htbits (0 + i) (by omega)]
      exact csrreadq_view (List.mem_of_mem_take hfflags) t
    · rw [← extractLsb'_congr fun i hi => htbits (5 + i) (by omega)]
      exact csrreadq_view (List.mem_of_mem_take hfrm) t
    · obtain ⟨u, hu, hubits⟩ := csrwrite_view hfflags t w
      obtain ⟨r, hr, hrsp⟩ := csrreadq_own hfcsr u
      refine ⟨u, r, _, hu, hr, hrsp, fcsr_eq_append (fun i hi => ?_) fun i hi => ?_⟩
      · simpa [hi] using hubits i (by omega)
      · exact (hubits (5 + i) (by omega)).trans ((if_neg (by simp)).trans (htbits _ (by omega)))
    · obtain ⟨u, hu, hubits⟩ := csrwrite_view hfrm t w
      obtain ⟨r, hr, hrsp⟩ := csrreadq_own hfcsr u
      refine ⟨u, r, _, hu, hr, hrsp, fcsr_eq_append (fun i hi => ?_) fun i hi => ?_⟩
      · exact (hubits i (by omega)).trans ((if_neg (by simp; omega)).trans (htbits _ (by omega)))
      · simpa [show 5 + i < 8 by omega] using hubits (5 + i) (by omega)
  case base =>
    have hbase := linkedCsrs_baseNumber p hp
    obtain ⟨t, ht, htvalue⟩ := csrwriteb_own hbase s v
    obtain ⟨u, hu, hubits⟩ := csrwriteb_view hp t w
    obtain ⟨r, hr, hrsp⟩ := csrreadq_own hbase u
    rw [htvalue] at hubits
    refine ⟨t, ht, ?_, u, r, _, hu, hr, hrsp, hubits⟩
    rw [← htvalue]
    exact csrreadq_view hp t

/-! ## The order of the notices -/

/-- The orders of two groups: the first group in some order, then the second (70_reset_and_hazards.md R302). -/
theorem mayDeliver_pair {g₁ g₂ order : List Notice} (h : mayDeliver [g₁, g₂] order) :
    ∃ l₁ l₂, order = l₁ ++ l₂ ∧ l₁.Perm g₁ ∧ l₂.Perm g₂ := by
  obtain ⟨parts, hparts, rfl⟩ := h
  rcases hparts with _ | ⟨h₁, _ | ⟨h₂, ⟨⟩⟩⟩
  exact ⟨_, _, by simp, h₁, h₂⟩

/-- Settles O39: a write through fflags or frm emits the group of fcsr, then its own. -/
theorem baseNoticesComeFirst : Obligations.BaseNoticesComeFirst := by
  unfold Obligations.BaseNoticesComeFirst
  intro s t v order p hp ht hdeliver
  obtain ⟨-, -, hview, -⟩ := csrWrites s v
  obtain ⟨w, hexec, -⟩ := hview p hp
  rw [hexec] at ht
  cases ht
  exact mayDeliver_pair hdeliver

end Sys2Proof.Machine

/-! PROOFS. Rules about every command: what may change a cell, a selection, an instance (10_state.md, 60_exceptions.md). -/

namespace Sys2Proof.Machine

/-! ## Cells -/

/-- Everything a command that completes can do to a cell. -/
theorem cell_of_next {i : Instr} {s t : State} (h : exec i s = .next t) (r : Home) :
    CellEffect i r (s.cell r) (t.cell r) := by
  obtain ⟨u, rsp, g, rfl, he, -⟩ := effect_of_next h
  rw [State.answer_cell]
  exact he.cell r

/-- x0 is 0 at reset (10_state.md R25). -/
theorem resetOf_x0 (p : Params) : (State.resetOf p).x[0].value = 0 ∧ (State.resetOf p).x[0].reset = 0 := by
  have h : (State.resetOf p).x[0] = Cell.atReset 0 := resetOf_cell p (.x 0)
  rw [h]
  exact ⟨rfl, rfl⟩

/-- Settles O14: no effect changes x0, and the reads of integer registers answer its 0. -/
theorem x0IsHardwired : Obligations.X0IsHardwired := by
  unfold Obligations.X0IsHardwired
  refine ⟨fun p => ?reset, fun s t hvalue hreset => ?step, fun s hvalue => ?read⟩
  case reset => exact resetOf_x0 p
  case step =>
    exact step_keeps (fun s => s.x[0].value = 0 ∧ s.x[0].reset = 0) (fun _ _ _ h => h) (fun _ _ _ _ h => h)
      (fun s _ => resetOf_x0 s.params)
      (fun _ _ _ h he => (he.cell (.x 0)).keeps_x0 h.1 h.2) ⟨hvalue, hreset⟩
  case read =>
    obtain ⟨-, -, hmapped, -⟩ := integerReads s 0
    rw [← hvalue]
    exact hmapped (by decide)

/-- The commands that write the pc (41_integer_file_and_pc.md R166). -/
theorem pc_command_of_mayWrite {i : Instr} (h : mayWrite i .pc) :
    (∃ v, i = .pcset v) ∨ (∃ v, i = .pcsetb v) ∨ i = .pcinc ∨ (∃ v, i = .pcinita v) ∨ ∃ d a, i = .pcinitm d a := by
  cases i with
  | pcset | pcsetb | pcinc | pcinita | pcinitm => simp
  | _ => exact absurd h id

/-- Settles O15: of the cells, the pc is written by these commands only, and no reset command reaches it. -/
theorem pcChangesOnlyByPcCommands : Obligations.PcChangesOnlyByPcCommands := by
  unfold Obligations.PcChangesOnlyByPcCommands
  intro s t h hne
  rcases step_cases h with ⟨-, rfl⟩ | ⟨rest, hp, -⟩ | ⟨c, rest, s', hp, rfl, ⟨i, hd, h⟩ | ⟨e, -, rfl⟩⟩
  · exact absurd rfl hne
  · exact .inl ⟨rest, hp⟩
  · rcases (cell_of_next h .pc).value_changed hne with hw | hr
    · exact .inr ⟨c, rest, i, hp, hd, pc_command_of_mayWrite hw⟩
    · exact absurd hr id
  · exact absurd rfl hne

/-- Settles O16: a new reset value is an effect of SETCONFIG alone. -/
theorem resetValuesChangeOnlyBySetconfig : Obligations.ResetValuesChangeOnlyBySetconfig := by
  unfold Obligations.ResetValuesChangeOnlyBySetconfig
  intro i s t h hnext hne
  exact (cell_of_next hnext h).reset_changed hne

/-- What can give a CSR cell another value: a CSR write to one of its numbers, or CSRRESET. -/
theorem csr_value_changed {i : Instr} {s t : State} (k : Fin 12) (h : exec i s = .next t)
    (hne : t.csr[k].value ≠ s.csr[k].value) :
    i = .csrreset ∨ ∃ idx v, (i = .csrwrite idx v ∧ (idx, k) ∈ csrWriteTargets) ∨
      (i = .csrwriteb idx v ∧ (idx, k) ∈ csrBackdoorTargets) := by
  rcases (cell_of_next h (.csr k)).value_changed hne with hw | hr
  · cases i with
    | csrwrite idx v => exact .inr ⟨idx, v, .inl ⟨rfl, hw⟩⟩
    | csrwriteb idx v => exact .inr ⟨idx, v, .inr ⟨rfl, hw⟩⟩
    | _ => exact absurd hw id
  · exact .inl hr

/-- A cell that no ordinary write reaches is changed by CSRWRITEB to one of its numbers and by CSRRESET
(60_exceptions.md R279). -/
theorem counter_changed {i : Instr} {s t : State} (k : Fin 12) {n m : Index} (h : exec i s = .next t)
    (hordinary : ∀ idx, (idx, k) ∉ csrWriteTargets) (hbackdoor : ∀ idx, (idx, k) ∈ csrBackdoorTargets → idx = n ∨ idx = m)
    (hne : t.csr[k].value ≠ s.csr[k].value) : i = .csrreset ∨ ∃ v, i = .csrwriteb n v ∨ i = .csrwriteb m v := by
  rcases csr_value_changed k h hne with hi | ⟨idx, v, ⟨-, hk⟩ | ⟨rfl, hk⟩⟩
  · exact .inl hi
  · exact absurd hk (hordinary idx)
  · rcases hbackdoor idx hk with rfl | rfl
    · exact .inr ⟨v, .inl rfl⟩
    · exact .inr ⟨v, .inr rfl⟩

/-- Settles O17: an ordinary write has no counter for a target, and a backdoor write reaches each by two numbers. -/
theorem countersStandStill : Obligations.CountersStandStill := by
  unfold Obligations.CountersStandStill
  intro i s t h
  exact ⟨counter_changed 9 h (by simp [csrWriteTargets]) (by simp [csrBackdoorTargets, csrWriteTargets]),
    counter_changed 10 h (by simp [csrWriteTargets]) (by simp [csrBackdoorTargets, csrWriteTargets]),
    counter_changed 11 h (by simp [csrWriteTargets]) (by simp [csrBackdoorTargets, csrWriteTargets])⟩

/-- A write through frm leaves fflags, by either command (10_state.md R32). -/
theorem fflags_of_frm_write {s t : State} {v : Word64}
    (h : exec (.csrwrite 0x002 v) s = .next t ∨ exec (.csrwriteb 0x002 v) s = .next t) :
    t.csr[1].value.extractLsb' 0 5 = s.csr[1].value.extractLsb' 0 5 := by
  have hfrm : (⟨0x002, 1, 1, 0x003, 5, 3⟩ : ViewSpec) ∈ linkedCsrs.take 2 := .tail _ (.head _)
  refine extractLsb'_congr fun i hi => ?_
  have hout : ¬(5 ≤ 0 + i ∧ 0 + i < 5 + 3) := by omega
  rcases h with h | h
  · obtain ⟨u, hu, hbits⟩ := csrwrite_view hfrm s v
    obtain rfl : u = t := Host.Outcome.next.inj (hu.symm.trans h)
    exact (hbits (0 + i) (by omega)).trans (if_neg hout)
  · obtain ⟨u, hu, hbits⟩ := csrwriteb_view (List.mem_of_mem_take hfrm) s v
    obtain rfl : u = t := Host.Outcome.next.inj (hu.symm.trans h)
    exact (hbits (0 + i) (by omega)).trans (if_neg hout)

/-- Settles O18: fcsr is written through three numbers, and through frm its low bits are kept. -/
theorem flagsChangeOnlyByCsrWrites : Obligations.FlagsChangeOnlyByCsrWrites := by
  unfold Obligations.FlagsChangeOnlyByCsrWrites
  intro i s t h hne
  rcases csr_value_changed 1 h fun e => hne (congrArg (BitVec.extractLsb' 0 5) e) with
    rfl | ⟨idx, v, ⟨rfl, hk⟩ | ⟨rfl, hk⟩⟩
  · exact .inl rfl
  · have hidx : idx = 0x001 ∨ idx = 0x002 ∨ idx = 0x003 := by simpa [csrWriteTargets] using hk
    rcases hidx with rfl | rfl | rfl
    · exact .inr ⟨v, .inl rfl⟩
    · exact absurd (fflags_of_frm_write (.inl h)) hne
    · exact .inr ⟨v, .inr (.inl rfl)⟩
  · have hidx : idx = 0x001 ∨ idx = 0x002 ∨ idx = 0x003 := by simpa [csrBackdoorTargets, csrWriteTargets] using hk
    rcases hidx with rfl | rfl | rfl
    · exact .inr ⟨v, .inr (.inr (.inl rfl))⟩
    · exact absurd (fflags_of_frm_write (.inr h)) hne
    · exact .inr ⟨v, .inr (.inr (.inr rfl))⟩

/-! ## The bank -/

/-- The changes of the heap cursor and of the registrations a command can make, under the configuration after it
(10_state.md R42, R43). -/
structure MemoryChange (i : Instr) (c : MemConfig) (m m' : Memory) : Prop where
  heap : m'.heap = m.heap ∨ (∃ n, i = .alloc n ∧ m.heap ≤ m'.heap) ∨
    ((i = .memclear ∨ ∃ k, i = .setconfig k) ∧ m'.heap = c.heapLow)
  observers : m'.observers = m.observers ∨ (∃ o a b, i = .obsadd o a b) ∨ (∃ o a, i = .obsadd1 o a) ∨ ∃ o, i = .obsdel o

/-- A change that leaves the cursor and the registrations. -/
theorem MemoryChange.of_eq {i : Instr} {c : MemConfig} {m m' : Memory} (hheap : m'.heap = m.heap)
    (hobservers : m'.observers = m.observers) : MemoryChange i c m m' := ⟨.inl hheap, .inl hobservers⟩

/-- Everything a command can do to the bank: leave it, or replace the active instance. -/
theorem Effect.bank {s u : State} {i : Instr} (h : Effect s i u) :
    u.insts = s.insts ∨ ∃ m, u.insts = (s.setMemory m).insts ∧ MemoryChange i u.config s.memory m := by
  cases h with
  | store i a n v prev m hi hn hm =>
    obtain ⟨S, t, -, rfl⟩ := memWrite_eq _ _ _ _ _ _ _ hm
    exact .inr ⟨_, rfl, .of_eq (Memory.setTable_heap ..) (Memory.setTable_observers ..)⟩
  | install | copyfrom => exact .inr ⟨_, rfl, .of_eq rfl rfl⟩
  | alloc size n hn =>
    refine .inr ⟨_, rfl, .inr (.inl ⟨size, rfl, ?_⟩), .inl rfl⟩
    have hlt := s.config.data.high.isLt
    rw [BitVec.le_def, BitVec.toNat_ofNat, Nat.mod_eq_of_lt (by omega)]
    exact Nat.le_add_right _ _
  | memclear => exact .inr ⟨_, rfl, .inr (.inr ⟨.inl rfl, rfl⟩), .inl rfl⟩
  | obsadd i o a b hi =>
    refine .inr ⟨_, rfl, .inl rfl, .inr ?_⟩
    rcases hi with rfl | ⟨rfl, -⟩
    · exact .inl ⟨o, a, b, rfl⟩
    · exact .inr (.inl ⟨o, a, rfl⟩)
  | obsdel o => exact .inr ⟨_, rfl, .inl rfl, .inr (.inr (.inr ⟨o, rfl⟩))⟩
  | setconfig k c hk =>
    obtain ⟨hlt, rfl⟩ := List.getElem?_eq_some_iff.1 hk
    rw [reconfigured_eq]
    refine .inr ⟨_, rfl, .inr (.inr ⟨.inr ⟨k, rfl⟩, ?_⟩), .inl rfl⟩
    rw [State.reconfigured_config hlt]
    rfl
  | value => exact .inl (by simp [State.setValue])
  | _ => exact .inl rfl

/-- Everything a command that completes can do to an instance. -/
theorem instance_of_next {i : Instr} {s t : State} {k : Nat} {m m' : Memory} (h : exec i s = .next t)
    (hm : s.insts[k]? = some m) (hm' : t.insts[k]? = some m') :
    m' = m ∨ k = s.active ∧ MemoryChange i t.config m m' := by
  obtain ⟨u, r, g, rfl, he, -⟩ := effect_of_next h
  rw [State.answer_insts] at hm'
  rcases he.bank with hbank | ⟨x, hbank, hx⟩ <;> rw [hbank] at hm'
  · exact .inl (Option.some.inj (hm'.symm.trans hm))
  · rcases State.setMemory_cases s x m m' k hm hm' with ⟨hk, rfl, rfl⟩ | rfl
    · exact .inr ⟨hk, hx⟩
    · exact .inl rfl

/-- Settles O21: of the changes of an instance, ALLOC raises the cursor and MEMCLEAR and SETCONFIG set it to HEAP_LOW. -/
theorem heapCursorIsMonotonic : Obligations.HeapCursorIsMonotonic := by
  unfold Obligations.HeapCursorIsMonotonic
  intro i s t k m m' h hm hm' hne
  rcases instance_of_next h hm hm' with rfl | ⟨hk, hchange⟩
  · exact absurd rfl hne
  · refine ⟨hk, ?_⟩
    rcases hchange.heap with heq | ⟨n, hi, hle⟩ | hlow
    · exact absurd heq hne
    · have hne' : m.heap.toNat ≠ m'.heap.toNat := fun e => hne (BitVec.eq_of_toNat_eq e.symm)
      exact .inl ⟨n, hi, BitVec.lt_def.2 (Nat.lt_of_le_of_ne hle hne')⟩
    · exact .inr hlow

/-- Everything a command can do to the parameters and the selections (10_state.md R35, R37). -/
theorem Effect.selections {s u : State} {i : Instr} (h : Effect s i u) :
    u.cfgs = s.cfgs ∧ u.rsv.length = s.rsv.length ∧
      (u.cur = s.cur ∨ ∃ k, i = .setconfig k ∧ u.cur = k.toNat ∧ u.cur < s.cfgs.length) ∧
      (u.active = s.active ∨ ∃ k, i = .swapinst k ∧ u.active = k.toNat ∧ u.active < s.insts.length) := by
  cases h with
  | value => simp [State.setValue]
  | setconfig k c hk =>
    rw [reconfigured_eq]
    exact ⟨rfl, rfl, .inr ⟨k, rfl, rfl, (List.getElem?_eq_some_iff.1 hk).1⟩, .inl rfl⟩
  | swapinst k target hk =>
    exact ⟨rfl, rfl, .inl rfl, .inr ⟨k, rfl, rfl, (List.getElem?_eq_some_iff.1 hk).1⟩⟩
  | reserve => exact ⟨rfl, List.length_modify .., .inl rfl, .inl rfl⟩
  | unreserve | rsvreset => exact ⟨rfl, List.length_map .., .inl rfl, .inl rfl⟩
  | _ => exact ⟨rfl, rfl, .inl rfl, .inl rfl⟩

/-- Settles O22: the selections and the bank, effect by effect. -/
theorem selectionsAndInactiveInstances : Obligations.SelectionsAndInactiveInstances := by
  unfold Obligations.SelectionsAndInactiveInstances
  intro i s t h
  obtain ⟨u, r, g, rfl, he, -⟩ := effect_of_next h
  obtain ⟨hcfgs, hrsv, hcur, hactive⟩ := he.selections
  have hbank : u.insts.length = s.insts.length ∧ ∀ k, k ≠ s.active → u.insts[k]? = s.insts[k]? := by
    rcases he.bank with hbank | ⟨m, hbank, -⟩ <;> rw [hbank]
    · exact ⟨rfl, fun _ _ => rfl⟩
    · exact ⟨List.length_set .., State.setMemory_other s m⟩
  exact ⟨hcfgs, hbank.1, hrsv, hcur.resolve_left, hactive.resolve_left, hbank.2⟩

/-- Settles O23: cells, views and instances, each with the commands that change its set. -/
theorem observersChangeOnlyByObserverCommands : Obligations.ObserversChangeOnlyByObserverCommands := by
  unfold Obligations.ObserversChangeOnlyByObserverCommands
  intro i s t h
  have hcell := fun r => (cell_of_next h r).observers_changed
  refine ⟨fun k hne => exists_or.2 (hcell (.x k) hne), fun hne => exists_or.2 (hcell .pc hne),
    fun k hne => exists_or.2 (hcell (.f k) hne), fun k hne => exists_or.2 (hcell (.csr k) hne), fun j hne => ?view,
    fun k m m' hm hm' hne => ?bank⟩
  case view =>
    obtain ⟨u, r, g, rfl, he, -⟩ := effect_of_next h
    rcases he.view j with heq | ⟨o, ⟨hi, -⟩ | ⟨hi, -⟩⟩
    · exact absurd heq hne
    · exact ⟨o, .inl hi⟩
    · exact ⟨o, .inr hi⟩
  case bank =>
    rcases instance_of_next h hm hm' with rfl | ⟨hk, hchange⟩
    · exact absurd rfl hne
    · exact ⟨hk, hchange.observers.resolve_left hne⟩

end Sys2Proof.Machine

/-! PROOFS. Reads (20_memory.md R72), the inputs (10_state.md R36) and silence (20_memory.md R75): rules about every
command that speak of the ports. -/

namespace Sys2Proof.Machine

/-! ## Commands that do not see the inputs and the ports -/

/-- The state with other sampled inputs. -/
def State.withInputs (s : State) (smc backstep : Bool) : State := { s with smcEn := smc, backstepEn := backstep }

/-- The state with other sampled inputs and other ports. -/
def State.withInputsAndPorts (s : State) (smc backstep : Bool) (rsp : Option Response) (notices : List (List Notice)) :
    State := { s.withInputs smc backstep with rsp := rsp, notices := notices }

/-- The commands the self-modifying-code gate applies to (20_memory.md R70). -/
def usesGate : Instr → Prop
  | .get _ _ | .set _ _ _ | .getword _ | .setword _ _ | .gethalf _ | .sethalf _ _ | .setrawword _ _ | .getbyte _
  | .setbyte _ _ => True
  | _ => False

section
variable {smc backstep : Bool} {rsp : Option Response} {notices : List (List Notice)} {s : State}

@[simp] theorem State.withInputsAndPorts_cell (h : Home) :
    (s.withInputsAndPorts smc backstep rsp notices).cell h = s.cell h := by cases h <;> rfl

@[simp] theorem State.withInputsAndPorts_cellPeek (r : CellRef) :
    cellPeek (s.withInputsAndPorts smc backstep rsp notices) r = cellPeek s r := by
  cases r with
  | own h => exact congrArg Cell.value (State.withInputsAndPorts_cell h)
  | view j => rfl

@[simp] theorem State.withInputsAndPorts_registerNotices (kind : AccessKind) (r : CellRef) :
    registerNotices (s.withInputsAndPorts smc backstep rsp notices) kind r = registerNotices s kind r := by
  cases r with
  | own h => simp [registerNotices, observersOf]
  | view j => rfl

@[simp] theorem State.withInputsAndPorts_config : (s.withInputsAndPorts smc backstep rsp notices).config = s.config := rfl
@[simp] theorem State.withInputsAndPorts_memory : (s.withInputsAndPorts smc backstep rsp notices).memory = s.memory := rfl
@[simp] theorem State.withInputsAndPorts_insts : (s.withInputsAndPorts smc backstep rsp notices).insts = s.insts := rfl
@[simp] theorem State.withInputsAndPorts_cfgs : (s.withInputsAndPorts smc backstep rsp notices).cfgs = s.cfgs := rfl

/-- A register command does not see the inputs and the ports if its action on the cell found does not. -/
theorem onCell_withInputsAndPorts {found : Option CellRef} {command command' : CellRef → Result}
    (hc : ∀ r, command' r = mapNext (·.withInputs smc backstep) (command r)) :
    onCell (s.withInputsAndPorts smc backstep rsp notices) found command' =
      mapNext (·.withInputs smc backstep) (onCell s found command) := by
  cases found with
  | none => rfl
  | some r => exact hc r

theorem respondAccess_cellGet_withInputsAndPorts (r : CellRef) :
    respondAccess (cellGet (s.withInputsAndPorts smc backstep rsp notices) r) =
      mapNext (·.withInputs smc backstep) (respondAccess (cellGet s r)) := by
  simp only [respondAccess_cellGet, State.withInputsAndPorts_cellPeek, State.withInputsAndPorts_registerNotices]
  rfl

theorem respondAccess_cellSet_withInputsAndPorts (r : CellRef) (v : Word64) :
    respondAccess (cellSet (s.withInputsAndPorts smc backstep rsp notices) r v) =
      mapNext (·.withInputs smc backstep) (respondAccess (cellSet s r v)) := by
  cases r with
  | own h => cases h <;> rfl
  | view j => rfl

theorem respondAccess_cellSetBackdoor_withInputsAndPorts (r : CellRef) (v : Word64) :
    respondAccess (cellSetBackdoor (s.withInputsAndPorts smc backstep rsp notices) r v) =
      mapNext (·.withInputs smc backstep) (respondAccess (cellSetBackdoor s r v)) := by
  cases r with
  | own h => cases h <;> rfl
  | view j => rfl

theorem execObsadd_withInputsAndPorts (o : ObserverId) (a b : Addr) :
    execObsadd o a b (s.withInputsAndPorts smc backstep rsp notices) =
      mapNext (·.withInputs smc backstep) (execObsadd o a b s) :=
  ite_eq_mapNext rfl (ite_eq_mapNext rfl rfl)

/-! A gated access does not see the ports and `backstep_en`. -/

theorem loadBytes_withPorts (a : Addr) (n : Nat) :
    loadBytes (s.withInputsAndPorts s.smcEn backstep rsp notices) a n =
      mapNext (·.withInputs s.smcEn backstep) (loadBytes s a n) := by
  have hread : gatedRead (s.withInputsAndPorts s.smcEn backstep rsp notices) a n = gatedRead s a n := rfl
  rw [loadBytes, loadBytes, hread]
  cases gatedRead s a n <;> rfl

theorem storeBytes_withPorts (a : Addr) (n : Nat) (v : Word32) :
    storeBytes (s.withInputsAndPorts s.smcEn backstep rsp notices) a n v =
      mapNext (·.withInputs s.smcEn backstep) (storeBytes s a n v) := by
  have hwrite : gatedWrite (s.withInputsAndPorts s.smcEn backstep rsp notices) a n v = gatedWrite s a n v := rfl
  rw [storeBytes, storeBytes, hwrite]
  cases gatedWrite s a n v <;> rfl

theorem execGet_withPorts (len : BitVec 4) (a : Addr) :
    execGet len a (s.withInputsAndPorts s.smcEn backstep rsp notices) =
      mapNext (·.withInputs s.smcEn backstep) (execGet len a s) :=
  ite_eq_mapNext (loadBytes_withPorts _ _) rfl

theorem execSet_withPorts (len : BitVec 4) (a : Addr) (v : Word32) :
    execSet len a v (s.withInputsAndPorts s.smcEn backstep rsp notices) =
      mapNext (·.withInputs s.smcEn backstep) (execSet len a v s) :=
  ite_eq_mapNext (storeBytes_withPorts _ _ _) rfl

/-- The gated commands do not see the ports and `backstep_en`. -/
theorem exec_gated_withPorts {i : Instr} (hi : usesGate i) :
    exec i (s.withInputsAndPorts s.smcEn backstep rsp notices) =
      mapNext (·.withInputs s.smcEn backstep) (exec i s) := by
  cases i with
  | get len a => exact execGet_withPorts len a
  | getbyte a => exact execGet_withPorts 1 a
  | set len a v => exact execSet_withPorts len a v
  | setbyte a v => exact execSet_withPorts 1 a v
  | getword | gethalf => exact ite_eq_mapNext (loadBytes_withPorts _ _) rfl
  | setword | sethalf => exact ite_eq_mapNext (storeBytes_withPorts _ _ _) rfl
  | setrawword a v =>
    refine ite_eq_mapNext ?_ rfl
    have hwrite : gatedWrite (s.withInputsAndPorts s.smcEn backstep rsp notices) a 4 v = gatedWrite s a 4 v := rfl
    rw [hwrite]
    cases gatedWrite s a 4 v <;> rfl
  | _ => exact absurd hi id

/-- No other command sees the inputs or the ports (10_state.md R36). -/
theorem exec_withInputsAndPorts {i : Instr} (hi : ¬usesGate i) :
    exec i (s.withInputsAndPorts smc backstep rsp notices) = mapNext (·.withInputs smc backstep) (exec i s) := by
  cases i with
  | xread | fread64 | csrread => exact onCell_withInputsAndPorts respondAccess_cellGet_withInputsAndPorts
  | xreadq | freadq | csrreadq =>
    exact onCell_withInputsAndPorts fun r => by rw [State.withInputsAndPorts_cellPeek]; rfl
  | fread32 =>
    exact onCell_withInputsAndPorts fun r => by
      simp only [cellGet, State.withInputsAndPorts_cellPeek, State.withInputsAndPorts_registerNotices]; rfl
  | xwrite =>
    exact onCell_withInputsAndPorts fun r => ite_eq_mapNext rfl (respondAccess_cellSet_withInputsAndPorts r _)
  | xwriteb =>
    exact onCell_withInputsAndPorts fun r => ite_eq_mapNext rfl (respondAccess_cellSetBackdoor_withInputsAndPorts r _)
  | pcset | pcinc | pcinita => exact respondAccess_cellSet_withInputsAndPorts _ _
  | pcsetb => exact respondAccess_cellSetBackdoor_withInputsAndPorts _ _
  | pcinitm =>
    exact ite_eq_mapNext (respondAccess_cellSet_withInputsAndPorts _ _) (respondAccess_cellSet_withInputsAndPorts _ _)
  | fwrite32 | fwrite64 => exact onCell_withInputsAndPorts fun r => respondAccess_cellSet_withInputsAndPorts r _
  | fwriteb | csrwriteb =>
    exact onCell_withInputsAndPorts fun r => respondAccess_cellSetBackdoor_withInputsAndPorts r _
  | csrwrite =>
    exact onCell_withInputsAndPorts fun r =>
      ite_eq_mapNext rfl (ite_eq_mapNext rfl (respondAccess_cellSet_withInputsAndPorts r _))
  | csrpos idx =>
    show execCsrpos idx _ = mapNext _ (execCsrpos idx s)
    unfold execCsrpos
    split <;> rfl
  | getrawword a =>
    refine ite_eq_mapNext ?_ rfl
    rw [State.withInputsAndPorts_config, State.withInputsAndPorts_memory]
    cases memRead s.config s.memory a 4 <;> rfl
  | getrawwordornull a =>
    refine ite_eq_mapNext ?_ rfl
    rw [State.withInputsAndPorts_config, State.withInputsAndPorts_memory]
    rcases rawWordOrNull s.config s.memory a with e | (_ | w) <;> rfl
  | fetch | install => exact ite_eq_mapNext (ite_eq_mapNext rfl rfl) rfl
  | alloc => exact ite_eq_mapNext rfl (ite_eq_mapNext rfl rfl)
  | firstnull base limit =>
    refine ite_eq_mapNext ?_ rfl
    rw [State.withInputsAndPorts_config, State.withInputsAndPorts_memory]
    cases scanNull s.config s.memory (scanLength base limit) base.toNat <;> rfl
  | copyfrom k =>
    show execCopyfrom k _ = mapNext _ (execCopyfrom k s)
    rw [execCopyfrom, execCopyfrom, State.withInputsAndPorts_insts]
    cases s.insts[k.toNat]? with
    | none => rfl
    | some m => exact ite_eq_mapNext rfl rfl
  | swapinst k =>
    show execSwapinst k _ = mapNext _ (execSwapinst k s)
    rw [execSwapinst, execSwapinst, State.withInputsAndPorts_insts]
    cases s.insts[k.toNat]? with
    | none => rfl
    | some m => exact ite_eq_mapNext rfl rfl
  | obsadd | obsadd1 => exact execObsadd_withInputsAndPorts _ _ _
  | setconfig k =>
    show execSetconfig k _ = mapNext _ (execSetconfig k s)
    rw [execSetconfig, execSetconfig, State.withInputsAndPorts_cfgs]
    cases s.cfgs[k.toNat]? with
    | none => rfl
    | some c => exact ite_eq_mapNext rfl rfl
  | reserve h l a =>
    show execReserve h l a _ = mapNext _ (execReserve h l a s)
    unfold execReserve
    cases widthOf l with
    | none => rfl
    | some w => exact ite_eq_mapNext rfl (ite_eq_mapNext rfl rfl)
  | unreserve h l a =>
    show execUnreserve h l a _ = mapNext _ (execUnreserve h l a s)
    unfold execUnreserve
    cases widthOf l with
    | none => rfl
    | some w => exact ite_eq_mapNext rfl (ite_eq_mapNext rfl (ite_eq_mapNext rfl rfl))
  | get | getbyte | set | setbyte | getword | gethalf | setword | sethalf | setrawword => exact absurd trivial hi
  | xreset | xobsadd | xobsdel | pcreadq | pcread | pcobsadd | pcobsdel | freset | fobsadd | fobsdel | csrreset
  | csrobsadd | csrobsdel | memclear | obsdel | rsvreset => rfl

/-- No command sees the ports or `backstep_en` (10_state.md R36). -/
theorem exec_withPorts (i : Instr) :
    exec i (s.withInputsAndPorts s.smcEn backstep rsp notices) =
      mapNext (·.withInputs s.smcEn backstep) (exec i s) := by
  by_cases hi : usesGate i
  · exact exec_gated_withPorts hi
  · exact exec_withInputsAndPorts hi

end

/-- A command leaves the inputs, so its next state with the inputs of the first one is itself. -/
theorem withInputs_of_next {i : Instr} {s t : State} (h : exec i s = .next t) (smc backstep : Bool) :
    t.withInputs s.smcEn backstep = { t with backstepEn := backstep } ∧
      t.withInputs smc s.backstepEn = { t with smcEn := smc } ∧ t.withInputs s.smcEn s.backstepEn = t := by
  obtain ⟨-, hsmc, hbackstep, -⟩ := inputs_of_next h
  rw [← hsmc, ← hbackstep]
  exact ⟨rfl, rfl, rfl⟩

/-- The gated commands, as the statement lists them. -/
theorem gated_commands {i : Instr} (h : usesGate i) :
    (∃ l a, i = .get l a) ∨ (∃ l a v, i = .set l a v) ∨ (∃ a, i = .getword a) ∨ (∃ a v, i = .setword a v) ∨
      (∃ a, i = .gethalf a) ∨ (∃ a v, i = .sethalf a v) ∨ (∃ a v, i = .setrawword a v) ∨ (∃ a, i = .getbyte a) ∨
      ∃ a v, i = .setbyte a v := by
  cases i with
  | get | set | getword | setword | gethalf | sethalf | setrawword | getbyte | setbyte => simp
  | _ => exact absurd h id

/-- Settles O24: a change of the inputs commutes with a command that does not see them. -/
theorem inputsGateOnlyGatedCommands : Obligations.InputsGateOnlyGatedCommands := by
  unfold Obligations.InputsGateOnlyGatedCommands
  intro i s t h
  refine ⟨fun b => ?_, fun hi b => ?_⟩
  · have hb : exec i { s with backstepEn := b } = mapNext (·.withInputs s.smcEn b) (exec i s) :=
      exec_withPorts (s := s) (backstep := b) (rsp := s.rsp) (notices := s.notices) i
    rw [hb, h, ← (withInputs_of_next h false b).1]
    rfl
  · have hb : exec i { s with smcEn := b } = mapNext (·.withInputs b s.backstepEn) (exec i s) :=
      exec_withInputsAndPorts (s := s) (smc := b) (backstep := s.backstepEn) (rsp := s.rsp) (notices := s.notices)
        (mt gated_commands hi)
    rw [hb, h, ← (withInputs_of_next h b false).2.1]
    rfl

/-! ## Reads -/

/-- The commands that read (20_memory.md R72, 40_register_cells.md R131, R132). -/
def isRead : Instr → Prop
  | .get _ _ | .getword _ | .gethalf _ | .getbyte _ | .getrawword _ | .getrawwordornull _ | .fetch _ | .firstnull _ _
  | .xread _ | .xreadq _ | .pcread | .pcreadq | .fread32 _ | .fread64 _ | .freadq _ | .csrread _ | .csrreadq _
  | .csrpos _ => True
  | _ => False

/-- A read gives no cell a new value. -/
theorem not_mayWrite_of_isRead {i : Instr} (hi : isRead i) (h : Home) : ¬mayWrite i h := by
  cases i with
  | xwrite | xwriteb | pcset | pcsetb | pcinc | pcinita | pcinitm | fwrite32 | fwrite64 | fwriteb | csrwrite | csrwriteb =>
    exact absurd hi id
  | _ => exact id

/-- A read is no store. -/
theorem storeOf_of_isRead {i : Instr} (hi : isRead i) : storeOf i = none := by
  cases i with
  | set | setbyte | sethalf | setword | setrawword => exact absurd hi id
  | _ => rfl

/-- A read changes nothing but the ports. -/
theorem Effect.eq_of_isRead {s u : State} {i : Instr} (h : Effect s i u) (hi : isRead i) : u = s := by
  cases h with
  | keep => rfl
  | value i h v hw => exact absurd hw (not_mayWrite_of_isRead hi h)
  | store i a n v prev m hs => rw [storeOf_of_isRead hi] at hs; cases hs
  | obsadd i o a b hobs => rcases hobs with rfl | ⟨rfl, -⟩ <;> exact absurd hi id
  | _ => exact absurd hi id

/-- A command answers the same, whatever the ports showed. -/
theorem exec_answer (i : Instr) (s : State) (r : Response) (g : List (List Notice)) :
    exec i (s.answer r g) = exec i s := by
  obtain ⟨t, ht⟩ := exec_next i s
  have hports : exec i (s.answer r g) = mapNext (·.withInputs s.smcEn s.backstepEn) (exec i s) := exec_withPorts i
  rw [hports, ht]
  exact congrArg Host.Outcome.next (withInputs_of_next ht false false).2.2

/-- Settles O20: a read leaves the state of an effect that keeps, and the second read does not see the ports. -/
theorem readsHaveNoSideEffect : Obligations.ReadsHaveNoSideEffect := by
  unfold Obligations.ReadsHaveNoSideEffect
  intro i s t h hread
  have hi : isRead i := by
    rcases hread with ⟨_, _, rfl⟩ | ⟨_, rfl⟩ | ⟨_, rfl⟩ | ⟨_, rfl⟩ | ⟨_, rfl⟩ | ⟨_, rfl⟩ | ⟨_, rfl⟩ | ⟨_, _, rfl⟩ |
      ⟨_, rfl⟩ | ⟨_, rfl⟩ | rfl | rfl | ⟨_, rfl⟩ | ⟨_, rfl⟩ | ⟨_, rfl⟩ | ⟨_, rfl⟩ | ⟨_, rfl⟩ | ⟨_, rfl⟩ <;> trivial
  obtain ⟨u, r, g, rfl, he, -⟩ := effect_of_next h
  obtain rfl := he.eq_of_isRead hi
  exact ⟨State.answer_onlyPorts u r g, (exec_answer i u r g).trans h⟩

/-! ## Silence -/

/-- An outcome without notices. -/
def Silent (r : Result) : Prop := ∀ t, r = .next t → t.notices = []

theorem silent_respond (s : State) (r : Response) : Silent (respond s r []) := by
  rintro t ⟨⟩
  rfl

theorem silent_raise (s : State) (e : Status) (a : Addr) : Silent (raise s e a) := by
  rintro t ⟨⟩
  rfl

/-- A choice between two silent outcomes is silent. -/
theorem silent_ite {c : Prop} [Decidable c] {r r' : Result} (h : Silent r) (h' : Silent r') :
    Silent (if c then r else r') := by
  split
  · exact h
  · exact h'

/-- A register command is silent if its action on the cell found is. -/
theorem silent_onCell {s : State} {found : Option CellRef} {command : CellRef → Result} (h : ∀ r, Silent (command r)) :
    Silent (onCell s found command) := by
  cases found with
  | none => exact silent_respond _ _
  | some r => exact h r

/-- A backdoor write is silent (40_register_cells.md R136). -/
theorem silent_cellSetBackdoor (s : State) (r : CellRef) (v : Word64) :
    Silent (respondAccess (cellSetBackdoor s r v)) := by
  rw [respondAccess, cellSetBackdoor_groups]
  exact silent_respond _ _

/-- The commands that notify (20_memory.md R75, 40_register_cells.md R132, R133). -/
def notifies : Instr → Prop
  | .get _ _ | .set _ _ _ | .getword _ | .setword _ _ | .gethalf _ | .sethalf _ _ | .getbyte _ | .setbyte _ _ | .fetch _
  | .install _ _ | .xread _ | .xwrite _ _ | .pcread | .pcset _ | .pcinc | .pcinita _ | .pcinitm _ _ | .fread32 _
  | .fread64 _ | .fwrite32 _ _ | .fwrite64 _ _ | .csrread _ | .csrwrite _ _ => True
  | _ => False

/-- Every other command is silent. -/
theorem silent_exec {i : Instr} (hi : ¬notifies i) (s : State) : Silent (exec i s) := by
  cases i with
  | xreadq | freadq | csrreadq => exact silent_onCell fun r => silent_respond _ _
  | xwriteb => exact silent_onCell fun r => silent_ite (silent_respond _ _) (silent_cellSetBackdoor _ _ _)
  | fwriteb | csrwriteb => exact silent_onCell fun r => silent_cellSetBackdoor _ _ _
  | pcsetb => exact silent_cellSetBackdoor _ _ _
  | csrpos idx =>
    show Silent (execCsrpos idx s)
    unfold execCsrpos
    split
    · exact silent_respond _ _
    · exact silent_respond _ _
  | getrawword a =>
    refine silent_ite ?_ (silent_raise _ _ _)
    split
    · exact silent_raise _ _ _
    · exact silent_respond _ _
  | setrawword a v =>
    refine silent_ite ?_ (silent_raise _ _ _)
    split
    · exact silent_raise _ _ _
    · exact silent_respond _ _
  | getrawwordornull a =>
    refine silent_ite ?_ (silent_raise _ _ _)
    split
    · exact silent_raise _ _ _
    · exact silent_respond _ _
    · exact silent_respond _ _
  | alloc => exact silent_ite (silent_raise _ _ _) (silent_ite (silent_raise _ _ _) (silent_respond _ _))
  | firstnull base limit =>
    refine silent_ite ?_ (silent_raise _ _ _)
    split
    · exact silent_raise _ _ _
    · exact silent_respond _ _
  | copyfrom k =>
    show Silent (execCopyfrom k s)
    unfold execCopyfrom
    split
    · exact silent_raise _ _ _
    · exact silent_ite (silent_respond _ _) (silent_respond _ _)
  | swapinst k =>
    show Silent (execSwapinst k s)
    unfold execSwapinst
    split
    · exact silent_raise _ _ _
    · exact silent_ite (silent_respond _ _) (silent_raise _ _ _)
  | obsadd | obsadd1 =>
    exact silent_ite (silent_raise _ _ _) (silent_ite (silent_raise _ _ _) (silent_respond _ _))
  | setconfig k =>
    show Silent (execSetconfig k s)
    unfold execSetconfig
    split
    · exact silent_raise _ _ _
    · exact silent_ite (silent_respond _ _) (silent_respond _ _)
  | reserve h l a =>
    show Silent (execReserve h l a s)
    unfold execReserve
    split
    · exact silent_raise _ _ _
    · exact silent_ite (silent_raise _ _ _) (silent_ite (silent_raise _ _ _) (silent_respond _ _))
  | unreserve h l a =>
    show Silent (execUnreserve h l a s)
    unfold execUnreserve
    split
    · exact silent_raise _ _ _
    · exact silent_ite (silent_raise _ _ _)
        (silent_ite (silent_raise _ _ _) (silent_ite (silent_respond _ _) (silent_respond _ _)))
  | xreset | xobsadd | xobsdel | pcreadq | pcobsadd | pcobsdel | freset | fobsadd | fobsdel | csrreset | csrobsadd
  | csrobsdel | memclear | obsdel | rsvreset => exact silent_respond _ _
  | _ => exact absurd trivial hi

/-- The notifying commands, as the statement lists them. -/
theorem notifying_commands {i : Instr} (h : notifies i) :
    (∃ l a, i = .get l a) ∨ (∃ l a v, i = .set l a v) ∨ (∃ a, i = .getword a) ∨ (∃ a v, i = .setword a v) ∨
      (∃ a, i = .gethalf a) ∨ (∃ a v, i = .sethalf a v) ∨ (∃ a, i = .getbyte a) ∨ (∃ a v, i = .setbyte a v) ∨
      (∃ a, i = .fetch a) ∨ (∃ a v, i = .install a v) ∨ (∃ k, i = .xread k) ∨ (∃ k v, i = .xwrite k v) ∨
      i = .pcread ∨ (∃ v, i = .pcset v) ∨ i = .pcinc ∨ (∃ v, i = .pcinita v) ∨ (∃ d a, i = .pcinitm d a) ∨
      (∃ k, i = .fread32 k) ∨ (∃ k, i = .fread64 k) ∨ (∃ k v, i = .fwrite32 k v) ∨ (∃ k v, i = .fwrite64 k v) ∨
      (∃ k, i = .csrread k) ∨ ∃ k v, i = .csrwrite k v := by
  cases i with
  | get | set | getword | setword | gethalf | sethalf | getbyte | setbyte | fetch | install | xread | xwrite | pcread
  | pcset | pcinc | pcinita | pcinitm | fread32 | fread64 | fwrite32 | fwrite64 | csrread | csrwrite => simp
  | _ => exact absurd h id

/-- Settles O25: every command outside the list ends in silent outcomes only. -/
theorem otherCommandsAreSilent : Obligations.OtherCommandsAreSilent := by
  unfold Obligations.OtherCommandsAreSilent
  intro i s t h hi
  exact silent_exec (mt notifying_commands hi) s t h

end Sys2Proof.Machine

/-! PROOFS. The notified loads and the stores (44_memory_access.md R200 to R205, R207). -/

namespace Sys2Proof.Machine

/-! ## Lengths and the gate -/

/-- A length other than 1, 2 and 4 is no access length (20_memory.md R71). -/
theorem accessLength_eq_false {len : BitVec 4} (h1 : len ≠ 1) (h2 : len ≠ 2) (h4 : len ≠ 4) : accessLength len = false := by
  simp only [accessLength, beq_eq_false_iff_ne.2 h1, beq_eq_false_iff_ne.2 h2, beq_eq_false_iff_ne.2 h4, Bool.or_self]

/-- The gate is closed in TEXT with smc_en = 0 (20_memory.md R70). -/
theorem gated_text {s : State} (h : s.smcEn = false) : gated s .text = true := by simp [gated, h]

/-- The gate is open outside TEXT, and in TEXT with smc_en = 1 (20_memory.md R70). -/
theorem gated_eq_false {s : State} {S : Segment} (h : S = .text → s.smcEn = true) : gated s S = false := by
  by_cases hS : S = .text
  · simp [gated, h hS]
  · simp [gated, hS]

/-- An access that ends beyond its segment's end is past the end (20_memory.md R66). -/
theorem pastEnd_of_lt {c : MemConfig} {S : Segment} {a : Addr} {n : Nat} (h : (c.range S).high.toNat < a.toNat + n) :
    pastEnd c S a n = true := by
  rw [pastEnd, decide_eq_true_eq]
  omega

/-- A command that first checks the alignment of a halfword raises its error for a misaligned address (20_memory.md
R65). -/
theorem failed_of_misaligned_half {s : State} {a : Addr} {e : Status} {r : Result} (ha : a.toNat % 2 ≠ 0) :
    (if halfAligned a then r else raise s e a) = .next (s.failed e a) := if_neg (mt (halfAligned_iff a).1 ha)

/-- A command that first checks the alignment of a halfword goes on for an aligned address (20_memory.md R65). -/
theorem goes_on_of_aligned_half {a : Addr} {r r' : Result} (ha : a.toNat % 2 = 0) :
    (if halfAligned a then r else r') = r := if_pos ((halfAligned_iff a).2 ha)

/-! ## Loads -/

/-- The notified loads of an address, with their lengths. -/
def loadsOf (a : Addr) : List (Instr × Nat) :=
  [(.get 1 a, 1), (.get 2 a, 2), (.get 4 a, 4), (.getbyte a, 1), (.gethalf a, 2), (.getword a, 4)]

/-- A notified load whose address is aligned for it is GET after its length check (44_memory_access.md R200, R202,
R204). -/
theorem exec_of_mem_loadsOf {a : Addr} {i : Instr} {n : Nat} (hi : (i, n) ∈ loadsOf a)
    (hword : i = .getword a → a.toNat % 4 = 0) (hhalf : i = .gethalf a → a.toNat % 2 = 0) (s : State) :
    exec i s = loadBytes s a n ∧ 0 < n ∧ n ≤ 4 := by
  simp only [loadsOf, List.mem_cons, Prod.mk.injEq, List.not_mem_nil, or_false] at hi
  rcases hi with ⟨rfl, rfl⟩ | ⟨rfl, rfl⟩ | ⟨rfl, rfl⟩ | ⟨rfl, rfl⟩ | ⟨rfl, rfl⟩ | ⟨rfl, rfl⟩
  · exact ⟨rfl, by decide⟩
  · exact ⟨rfl, by decide⟩
  · exact ⟨rfl, by decide⟩
  · exact ⟨rfl, by decide⟩
  · exact ⟨goes_on_of_aligned_half (hhalf rfl), by decide⟩
  · exact ⟨goes_on_of_aligned (hword rfl), by decide⟩

section
variable {s : State} {S : Segment} {a : Addr} {n : Nat}

/-- A load of an unmapped address fails. -/
theorem loadBytes_unmapped (hc : classify s.config a = none) : loadBytes s a n = .next (s.failed .loadRange a) := by
  simp only [loadBytes, gatedRead, hc]
  rfl

/-- A load of TEXT with smc_en = 0 is forbidden. -/
theorem loadBytes_forbidden (hc : classify s.config a = some .text) (hgate : s.smcEn = false) :
    loadBytes s a n = .next (s.failed .loadTextForbidden a) := by
  simp only [loadBytes, gatedRead, hc, gated_text hgate]
  rfl

/-- A load that passes the end of its segment fails. -/
theorem loadBytes_pastEnd (hc : classify s.config a = some S) (hgate : S = .text → s.smcEn = true)
    (hend : (s.config.range S).high.toNat < a.toNat + n) : loadBytes s a n = .next (s.failed .loadRange a) := by
  simp only [loadBytes, gatedRead, hc, gated_eq_false hgate, memRead, pastEnd_of_lt hend]
  rfl

/-- A load that stays inside its segment answers its bytes and notifies. -/
theorem loadBytes_fits (hn : 0 < n) (hfits : s.fits S a n) (hgate : S = .text → s.smcEn = true) :
    loadBytes s a n =
      .next (s.ends ⟨.ok, false, false, (readBytes s.config s.memory S a n).setWidth 64⟩
        [s.noticesOf .read a n (readBytes s.config s.memory S a n)]) := by
  obtain ⟨hc, hend⟩ := hfits
  simp only [loadBytes, gatedRead, hc, gated_eq_false hgate, memRead, (pastEnd_eq_false _ S a n hn).2 hend]
  rfl

end

/-- A read of bytes that are 0 is 0. -/
theorem readBytes_eq_zero {c : MemConfig} {m : Memory} {S : Segment} {a : Addr} {n : Nat}
    (h : ∀ k < n, byteGet c m S (a + BitVec.ofNat 32 k) = 0) : readBytes c m S a n = 0 := by
  induction n with
  | zero => rfl
  | succ n ih => simp [readBytes, ih fun k hk => h k (by omega), h n (by omega)]

/-- Under the invariant, storage that was never written holds 0 (10_state.md R41). -/
theorem byte_eq_zero_of_null {s : State} (hinv : s.Inv) {S : Segment} {b : Addr} (h : s.word S b = none) :
    s.byte S b = 0 :=
  byteGet_eq_zero_of_null s.config s.memory S b (inv_memory hinv).wf h

/-- Settles O42: every load of the list is GET after its checks, whose outcomes the lemmas above name. -/
theorem loads : Obligations.Loads := by
  unfold Obligations.Loads
  refine ⟨fun len a => ⟨hasOpcode_of_encode rfl rfl, hasOpcode_of_encode rfl rfl, hasOpcode_of_encode rfl rfl⟩,
    fun s a i n S hi hword hhalf hfits hgate => ?completes, fun s S b hinv => byte_eq_zero_of_null hinv,
    fun s a => ⟨fun len h1 h2 h4 => ?length, failed_of_misaligned, failed_of_misaligned_half,
      fun i n hi hword hhalf => ?errors⟩⟩
  case completes =>
    obtain ⟨hexec, hpos, hle⟩ := exec_of_mem_loadsOf hi hword hhalf s
    refine ⟨_, hexec.trans (loadBytes_fits hpos hfits hgate), fun k => readBytes_byte _ _ S a n k hle,
      fun j => readBytes_high _ _ S a n j, fun hinv hnull => ?_⟩
    exact readBytes_eq_zero fun k hk => byte_eq_zero_of_null hinv (hnull k hk)
  case length => exact if_neg (by rw [accessLength_eq_false h1 h2 h4]; decide)
  case errors =>
    obtain ⟨hexec, -⟩ := exec_of_mem_loadsOf hi hword hhalf s
    rw [hexec]
    exact ⟨loadBytes_unmapped, loadBytes_forbidden, fun S => loadBytes_pastEnd⟩

/-! ## Stores -/

/-- A store after its length or alignment check, with the notices it emits where it completes. -/
def storeWith (s : State) (a : Addr) (n : Nat) (v : Word32) (groups : List (List Notice)) : Result :=
  match gatedWrite s a n v with
  | .error e => raise s e.status e.addr
  | .ok (m, prev) => respond (s.setMemory m) (okResponse (prev.setWidth 64)) groups

/-- A notified store emits the WRITE notices of the bytes it stores (44_memory_access.md R201). -/
theorem storeBytes_eq_storeWith (s : State) (a : Addr) (n : Nat) (v : Word32) :
    storeBytes s a n v = storeWith s a n v [memoryNotices s .write a n (truncBytes n v)] := rfl

/-- The stores of an address, with their lengths. -/
def storesOf (a : Addr) (v : Word32) : List (Instr × Nat) :=
  [(.set 1 a v, 1), (.set 2 a v, 2), (.set 4 a v, 4), (.setbyte a v, 1), (.sethalf a (v.setWidth 16), 2),
    (.setword a v, 4), (.setrawword a v, 4)]

/-- What a store of the list emits where it completes (20_memory.md R75). -/
def storeNotices (s : State) (i : Instr) (a : Addr) (n : Nat) (v : Word32) : List (List Notice) :=
  if i = .setrawword a v then [] else [s.noticesOf .write a n (BitVec.ofNat 32 (v.toNat % 256 ^ n))]

/-- The low n bytes of a value, byte by byte (20_memory.md R68). -/
theorem byte_congr_of_mod {x y : Word32} {n : Nat} (h : x.toNat % 256 ^ n = y.toNat % 256 ^ n) :
    ∀ k < n, x.extractLsb' (8 * k) 8 = y.extractLsb' (8 * k) 8 := by
  intro k hk
  refine extractLsb'_congr fun i hi => ?_
  have hbit := congrArg (Nat.testBit · (8 * k + i)) h
  simp only [show 256 ^ n = 2 ^ (8 * n) by rw [pow_mul]; rfl, Nat.testBit_mod_two_pow,
    show 8 * k + i < 8 * n by omega, decide_true, Bool.true_and] at hbit
  exact hbit

/-- A notified store of a value that agrees with v on the bytes stored. -/
theorem storeBytes_notified {i : Instr} {a : Addr} {n : Nat} {v v' : Word32} (hn : n = 1 ∨ n = 2 ∨ n = 4)
    (hraw : i ≠ .setrawword a v) (hv : v'.toNat % 256 ^ n = v.toNat % 256 ^ n) (s : State) :
    storeBytes s a n v' = storeWith s a n v' (storeNotices s i a n v) := by
  rw [storeBytes_eq_storeWith, storeNotices, if_neg hraw, truncBytes_eq n hn, hv]
  rfl

/-- SETHALF's operand agrees with the value it is taken from on the bytes stored (30_encoding.md R108). -/
theorem half_mod (v : Word32) : ((v.setWidth 16).setWidth 32).toNat % 256 ^ 2 = v.toNat % 256 ^ 2 := by
  simp only [BitVec.toNat_setWidth]
  omega

/-- A store whose address is aligned for it is SET after its length check, or its silent form (44_memory_access.md R201,
R203, R205, R207). -/
theorem exec_of_mem_storesOf {a : Addr} {v : Word32} {i : Instr} {n : Nat} (hi : (i, n) ∈ storesOf a v)
    (hword : n = 4 → i ≠ .set 4 a v → a.toNat % 4 = 0) (hhalf : i = .sethalf a (v.setWidth 16) → a.toNat % 2 = 0) :
    (n = 1 ∨ n = 2 ∨ n = 4) ∧ ∃ v' : Word32, v'.toNat % 256 ^ n = v.toNat % 256 ^ n ∧
      ∀ s, exec i s = storeWith s a n v' (storeNotices s i a n v) := by
  simp only [storesOf, List.mem_cons, Prod.mk.injEq, List.not_mem_nil, or_false] at hi
  rcases hi with ⟨rfl, rfl⟩ | ⟨rfl, rfl⟩ | ⟨rfl, rfl⟩ | ⟨rfl, rfl⟩ | ⟨rfl, rfl⟩ | ⟨rfl, rfl⟩ | ⟨rfl, rfl⟩
  · exact ⟨by decide, v, rfl, storeBytes_notified (by decide) nofun rfl⟩
  · exact ⟨by decide, v, rfl, storeBytes_notified (by decide) nofun rfl⟩
  · exact ⟨by decide, v, rfl, storeBytes_notified (by decide) nofun rfl⟩
  · exact ⟨by decide, v, rfl, storeBytes_notified (by decide) nofun rfl⟩
  · exact ⟨by decide, _, half_mod v, fun s =>
      (goes_on_of_aligned_half (hhalf rfl)).trans (storeBytes_notified (by decide) (by nofun) (half_mod v) s)⟩
  · exact ⟨by decide, v, rfl, fun s =>
      (goes_on_of_aligned (hword rfl nofun)).trans (storeBytes_notified (by decide) (by nofun) rfl s)⟩
  · refine ⟨by decide, v, rfl, fun s => (goes_on_of_aligned (hword rfl nofun)).trans ?_⟩
    rw [storeNotices, if_pos rfl]
    rfl

section
variable {s : State} {S : Segment} {a : Addr} {n : Nat} {v : Word32} {groups : List (List Notice)}

/-- A store to an unmapped address fails. -/
theorem storeWith_unmapped (hc : classify s.config a = none) :
    storeWith s a n v groups = .next (s.failed .storeRange a) := by
  simp only [storeWith, gatedWrite, hc]
  rfl

/-- A store to TEXT with smc_en = 0 is forbidden. -/
theorem storeWith_forbidden (hc : classify s.config a = some .text) (hgate : s.smcEn = false) :
    storeWith s a n v groups = .next (s.failed .storeTextForbidden a) := by
  simp only [storeWith, gatedWrite, hc, gated_text hgate]
  rfl

/-- A store to TEXT that crosses a word fails (20_memory.md R68). -/
theorem storeWith_across_word (hc : classify s.config a = some .text) (hgate : s.smcEn = true)
    (hacross : 4 < a.toNat % 4 + n) : storeWith s a n v groups = .next (s.failed .storeMisaligned a) := by
  have hopen : gated s .text = false := gated_eq_false fun _ => hgate
  have hwrite : memWrite s.config s.memory a n v = .error ⟨.storeMisaligned, a⟩ := by
    simp only [memWrite, hc, toNat_and_three]
    exact if_pos hacross
  simp only [storeWith, gatedWrite, hc, hopen, hwrite]
  rfl

/-- A store outside TEXT that passes the end of its segment fails. -/
theorem storeWith_pastEnd (hS : S ≠ .text) (hc : classify s.config a = some S)
    (hend : (s.config.range S).high.toNat < a.toNat + n) :
    storeWith s a n v groups = .next (s.failed .storeRange a) := by
  have hopen : gated s S = false := gated_eq_false fun h => absurd h hS
  have hwrite : memWrite s.config s.memory a n v = .error ⟨.storeRange, a⟩ := by
    cases S with
    | text => exact absurd rfl hS
    | data | stack | mmio =>
      simp only [memWrite, hc]
      exact if_pos (pastEnd_of_lt hend)
  simp only [storeWith, gatedWrite, hc, hopen, hwrite]
  rfl

/-- A store for which MemWrite completes replaces the active instance. -/
theorem storeWith_of_memWrite {m : Memory} {prev : Word32} (hc : classify s.config a = some S)
    (hgate : S = .text → s.smcEn = true) (hwrite : memWrite s.config s.memory a n v = .ok (m, prev)) :
    storeWith s a n v groups = .next ((s.setMemory m).answer ⟨.ok, false, false, prev.setWidth 64⟩ groups) := by
  simp only [storeWith, gatedWrite, hc, gated_eq_false hgate, hwrite]
  rfl

end

/-- Settles O43: every store of the list is SET after its checks; where MemWrite completes, `memWrite_ok` says what it
does. -/
theorem stores : Obligations.Stores := by
  unfold Obligations.Stores
  refine ⟨fun len a v h => ⟨hasOpcode_of_encode rfl rfl, hasOpcode_of_encode rfl rfl, hasOpcode_of_encode rfl rfl,
      hasOpcode_of_encode rfl rfl⟩,
    fun s a v i n S hinv hi hword hhalf hfits hgate => ?completes,
    fun s a v => ⟨fun len h1 h2 h4 => ?length, fun ha => ⟨failed_of_misaligned ha, failed_of_misaligned ha⟩,
      fun h => failed_of_misaligned_half, fun i n hi hword hhalf => ?errors⟩⟩
  case completes =>
    obtain ⟨hn, v', hv, hexec⟩ := exec_of_mem_storesOf hi hword hhalf
    obtain ⟨hc, hend⟩ := hfits
    obtain ⟨m, prev, hwrite, hprev, hhigh, hdims, hheap, hobservers, -, htables, hbytes⟩ :=
      memWrite_ok s.config s.memory a n v' S (inv_valid hinv) (inv_memory hinv).wf hc hend hn fun h => (hgate h).2
    have hmem := s.setMemory_memory m hinv.active
    refine ⟨_, prev, (hexec s).trans (storeWith_of_memWrite hc (fun h => (hgate h).1) hwrite), rfl, rfl, hprev, hhigh,
      onlyMemory_setMemory_answer _ _ _ hinv.active, ?_⟩
    simp only [State.word, State.byte, State.answer_memory, State.answer_config, State.setMemory_config, hmem]
    refine ⟨hdims, hheap, hobservers, htables, fun S' b hb => ?_⟩
    obtain ⟨hbyte, hword⟩ := hbytes S' b hb
    refine ⟨?_, hword.trans (by cases S <;> exact Iff.rfl)⟩
    rw [hbyte]
    refine ite_congr rfl (fun hin => ?_) fun _ => rfl
    exact byte_congr_of_mod hv (b.toNat - a.toNat) (by omega)
  case length => exact if_neg (by rw [accessLength_eq_false h1 h2 h4]; decide)
  case errors =>
    obtain ⟨-, v', -, hexec⟩ := exec_of_mem_storesOf hi hword hhalf
    rw [hexec s]
    exact ⟨storeWith_unmapped, storeWith_forbidden, storeWith_across_word, fun S => storeWith_pastEnd⟩

end Sys2Proof.Machine

/-! PROOFS. A load after a store (20_memory.md R76). -/

namespace Sys2Proof.Machine

/-! ## What a load finds -/

/-- The active instance holds the low n bytes of v at a, within a segment and not null. -/
structure Holds (t : State) (S : Segment) (a : Addr) (n : Nat) (v : Word32) : Prop where
  fits    : t.fits S a n
  bytes   : ∀ k < n, t.byte S (a + BitVec.ofNat 32 k) = v.extractLsb' (8 * k) 8
  present : (t.word S a).isSome = true

/-- A word of n bytes is the number they make (20_memory.md R67). -/
theorem setWidth_eq_of_bytes {w v : Word32} {n : Nat} (hlow : ∀ k < n, w.extractLsb' (8 * k) 8 = v.extractLsb' (8 * k) 8)
    (hhigh : ∀ j, 8 * n ≤ j → w.getLsbD j = false) : w.setWidth 64 = BitVec.ofNat 64 (v.toNat % 256 ^ n) := by
  apply BitVec.eq_of_getLsbD_eq
  intro j hj
  rw [BitVec.getLsbD_setWidth, BitVec.getLsbD_ofNat, show 256 ^ n = 2 ^ (8 * n) by rw [pow_mul]; rfl,
    Nat.testBit_mod_two_pow]
  by_cases h : j < 8 * n
  · have hbyte := congrArg (BitVec.getLsbD · (j % 8)) (hlow (j / 8) (by omega))
    simp only [BitVec.getLsbD_extractLsb', show j % 8 < 8 by omega, show 8 * (j / 8) + j % 8 = j by omega,
      decide_true, Bool.true_and] at hbyte
    rw [hbyte, ← BitVec.testBit_toNat]
    simp [h, hj]
  · simp [hhigh j (by omega), h]

/-- The loads of an address, with their lengths and the flag they answer. -/
def readsOf (a : Addr) : List (Instr × Nat × Bool) :=
  [(.get 1 a, 1, false), (.get 2 a, 2, false), (.get 4 a, 4, false), (.getbyte a, 1, false), (.gethalf a, 2, false),
    (.getword a, 4, false), (.getrawword a, 4, false), (.getrawwordornull a, 4, true), (.fetch a, 4, true)]

/-- A load is a notified one, or one of the three that are not gated (44_memory_access.md R206, R208, R209). -/
theorem readsOf_cases {a : Addr} {load : Instr} {n : Nat} {flag : Bool} (h : (load, n, flag) ∈ readsOf a) :
    ((load, n) ∈ loadsOf a ∧ flag = false ∧ load ∉ [.getrawword a, .getrawwordornull a, .fetch a]) ∨
      (load = .getrawword a ∧ n = 4 ∧ flag = false) ∨ (load = .getrawwordornull a ∧ n = 4 ∧ flag = true) ∨
      (load = .fetch a ∧ n = 4 ∧ flag = true) := by
  simp only [readsOf, List.mem_cons, Prod.mk.injEq, List.not_mem_nil, or_false] at h
  rcases h with ⟨rfl, rfl, rfl⟩ | ⟨rfl, rfl, rfl⟩ | ⟨rfl, rfl, rfl⟩ | ⟨rfl, rfl, rfl⟩ | ⟨rfl, rfl, rfl⟩ | ⟨rfl, rfl, rfl⟩ |
    h | h | h
  iterate 6 exact .inl (by simp [loadsOf])
  · exact .inr (.inl h)
  · exact .inr (.inr (.inl h))
  · exact .inr (.inr (.inr h))

/-- Where a segment holds n bytes, every load of n bytes whose own conditions are met answers them. -/
theorem load_of_holds {t : State} {S : Segment} {a : Addr} {n : Nat} {v : Word32} {load : Instr} {flag : Bool}
    (hinv : t.Inv) (hholds : Holds t S a n v) (hload : (load, n, flag) ∈ readsOf a)
    (hword : n = 4 → load ≠ .get 4 a → a.toNat % 4 = 0) (hhalf : load = .gethalf a → a.toNat % 2 = 0)
    (hfetch : load = .fetch a → classify t.config a = some .text)
    (hgate : load ∉ [.getrawword a, .getrawwordornull a, .fetch a] → classify t.config a = some .text →
      t.smcEn = true) :
    ∃ u, exec load t = .next u ∧ u.rsp = some ⟨.ok, false, flag, BitVec.ofNat 64 (v.toNat % 256 ^ n)⟩ := by
  have hv := inv_valid hinv
  have hc := hholds.fits.1
  obtain ⟨w, hw⟩ := Option.isSome_iff_exists.1 hholds.present
  have hword_answer : n = 4 → a.toNat % 4 = 0 → w.setWidth 64 = BitVec.ofNat 64 (v.toNat % 256 ^ n) := by
    rintro rfl ha
    refine setWidth_eq_of_bytes (fun k hk => ?_) fun j hj => BitVec.getLsbD_of_ge w j hj
    rw [byte_of_word hv ha hc hw hk, hholds.bytes k hk]
  have hread : n ≤ 4 → (readBytes t.config t.memory S a n).setWidth 64 = BitVec.ofNat 64 (v.toNat % 256 ^ n) := by
    intro hn
    refine setWidth_eq_of_bytes (fun k hk => ?_) fun j => readBytes_high _ _ S a n j
    rw [readBytes_byte _ _ S a n k hn hk]
    exact hholds.bytes k hk
  rcases readsOf_cases hload with ⟨hmem, rfl, hgated⟩ | ⟨rfl, rfl, rfl⟩ | ⟨rfl, rfl, rfl⟩ | ⟨rfl, rfl, rfl⟩
  · have hword' : load = .getword a → a.toNat % 4 = 0 := by
      rintro rfl
      have hn : n = 4 := by simpa [loadsOf] using hmem
      exact hword hn nofun
    obtain ⟨hexec, hpos, hle⟩ := exec_of_mem_loadsOf hmem hword' hhalf t
    rw [hexec, loadBytes_fits hpos hholds.fits fun hS => hgate hgated (hS ▸ hc), hread hle]
    exact ⟨_, rfl, rfl⟩
  · have ha := hword rfl nofun
    rw [exec_getrawword_mapped hv ha hc, hread (le_refl 4)]
    exact ⟨_, rfl, rfl⟩
  · have ha := hword rfl nofun
    rw [exec_getrawwordornull_mapped ha hc, hw, ← hword_answer rfl ha]
    exact ⟨_, rfl, rfl⟩
  · have ha := hword rfl nofun
    obtain rfl := Option.some.inj (hc.symm.trans (hfetch rfl))
    rw [exec_fetch_text ha hc, hw, ← hword_answer rfl ha]
    exact ⟨_, rfl, rfl⟩

/-! ## What a store leaves -/

/-- A command that fails does not answer OK. -/
theorem not_ok_of_failed {i : Instr} {s t : State} {e : Status} {b : Addr} {r : Response}
    (hfail : exec i s = .next (s.failed e b)) (he : e ≠ .ok) (ht : exec i s = .next t) (hr : t.rsp = some r) :
    r.status ≠ .ok := by
  obtain rfl := Host.Outcome.next.inj (hfail.symm.trans ht)
  obtain rfl := Option.some.inj hr
  exact he

/-- The addresses at which a store of the list completes. -/
structure Completes (s : State) (store : Instr) (S : Segment) (a : Addr) (n : Nat) (v : Word32) : Prop where
  word : n = 4 → store ≠ .set 4 a v → a.toNat % 4 = 0
  half : store = .sethalf a (v.setWidth 16) → a.toNat % 2 = 0
  fits : s.fits S a n
  gate : S = .text → s.smcEn = true ∧ a.toNat % 4 + n ≤ 4

/-- A store that answers OK met none of the error conditions (44_memory_access.md R201). -/
theorem completes_of_ok {s t : State} {store : Instr} {a : Addr} {n : Nat} {v : Word32} {r : Response} (hinv : s.Inv)
    (hi : (store, n) ∈ storesOf a v) (ht : exec store s = .next t) (hr : t.rsp = some r) (hok : r.status = .ok) :
    ∃ S, Completes s store S a n v := by
  obtain ⟨-, hmisaligned, hmisalignedHalf, herrors⟩ := stores.2.2 s a v
  have habsurd : ∀ {e b}, exec store s = .next (s.failed e b) → e = .ok := fun h =>
    not_not.1 fun he => not_ok_of_failed h he ht hr hok
  have hword : n = 4 → store ≠ .set 4 a v → a.toNat % 4 = 0 := by
    rintro rfl hne
    by_contra ha
    have hstore : store = .set 4 a v ∨ store = .setword a v ∨ store = .setrawword a v := by simpa [storesOf] using hi
    rcases hstore.resolve_left hne with rfl | rfl
    · exact absurd (habsurd (hmisaligned ha).1) (by decide)
    · exact absurd (habsurd (hmisaligned ha).2) (by decide)
  have hhalf : store = .sethalf a (v.setWidth 16) → a.toNat % 2 = 0 := by
    rintro rfl
    by_contra ha
    exact absurd (habsurd (hmisalignedHalf _ ha)) (by decide)
  obtain ⟨hunmapped, hforbidden, hacross, hpast⟩ := herrors store n hi hword hhalf
  cases hc : classify s.config a with
  | none => exact absurd (habsurd (hunmapped hc)) (by decide)
  | some S =>
    have hgate : S = .text → s.smcEn = true ∧ a.toNat % 4 + n ≤ 4 := by
      rintro rfl
      have hopen : s.smcEn = true := by
        by_contra h
        exact absurd (habsurd (hforbidden hc (by simpa using h))) (by decide)
      exact ⟨hopen, not_lt.1 fun h => absurd (habsurd (hacross hc hopen h)) (by decide)⟩
    refine ⟨S, hword, hhalf, ⟨hc, ?_⟩, hgate⟩
    by_cases hS : S = .text
    · obtain ⟨-, hin⟩ := (rangeContains_iff _ _).1 (contains_of_classify s.config a S hc)
      obtain ⟨-, hhigh, -⟩ := (rangeValid_iff _).1 (range_valid s.config (inv_valid hinv) S)
      have hfit := (hgate hS).2
      omega
    · exact not_lt.1 fun h => absurd (habsurd (hpast S hS hc h)) (by decide)

/-- An access inside a segment does not wrap, and its bytes are addresses of the segment. -/
theorem inSegment_of_fits {s : State} {S : Segment} {a : Addr} {n : Nat} (h : s.fits S a n) {k : Nat} (hk : k < n) :
    s.inSegment S (a + BitVec.ofNat 32 k) ∧ (a + BitVec.ofNat 32 k).toNat = a.toNat + k := by
  obtain ⟨hc, hend⟩ := h
  have hlt := (s.config.range S).high.isLt
  exact ⟨bytes_contained s.config S a n (contains_of_classify s.config a S hc) hend k hk,
    toNat_add_offset a k (by omega)⟩

/-- An address shares its granule with itself. -/
theorem sameGranule_refl (s : State) (S : Segment) (a : Addr) : s.sameGranule S a a := by cases S <;> rfl

/-- After a completed store the segment holds the bytes stored. -/
theorem holds_of_completes {s t : State} {store : Instr} {S : Segment} {a : Addr} {n : Nat} {v : Word32} (hinv : s.Inv)
    (hi : (store, n) ∈ storesOf a v) (hstore : Completes s store S a n v) (ht : exec store s = .next t) :
    Holds t S a n v ∧ t.config = s.config ∧ t.smcEn = s.smcEn := by
  obtain ⟨t', prev, ht', -, -, -, -, honly, -, -, -, -, hbytes⟩ :=
    stores.2.1 s a v store n S hinv hi hstore.word hstore.half hstore.fits hstore.gate
  obtain rfl := Host.Outcome.next.inj (ht'.symm.trans ht)
  have hconfig : t'.config = s.config := by rw [honly]; rfl
  have hpos : 0 < n := by
    obtain ⟨hn, -⟩ := exec_of_mem_storesOf hi hstore.word hstore.half
    omega
  obtain ⟨hc, hend⟩ := hstore.fits
  refine ⟨⟨?_, fun k hk => ?_, ?_⟩, hconfig, (inputs_of_next ht).2.1⟩
  · rw [State.fits, hconfig]
    exact hstore.fits
  · obtain ⟨hin, hnat⟩ := inSegment_of_fits hstore.fits hk
    rw [(hbytes S _ hin).1, if_pos ⟨rfl, by omega, by omega⟩, hnat, Nat.add_sub_cancel_left]
  · refine (hbytes S a (contains_of_classify s.config a S hc)).2.2 (.inr ⟨rfl, 0, hpos, ?_⟩)
    rw [BitVec.add_zero]
    exact sameGranule_refl s S a

/-- After a completed INSTALL, TEXT holds the word. -/
theorem holds_of_install {s t : State} {a : Addr} {v : Word32} {r : Response} (hinv : s.Inv)
    (ht : exec (.install a v) s = .next t) (hr : t.rsp = some r) (hok : r.status = .ok) :
    Holds t .text a 4 v ∧ t.config = s.config ∧ t.smcEn = s.smcEn := by
  obtain ⟨hmisaligned, hother, htext⟩ := installs.2 s a v hinv
  have ha : a.toNat % 4 = 0 := by
    by_contra h
    exact not_ok_of_failed (hmisaligned h) (by decide) ht hr hok
  have hc : classify s.config a = some .text := by
    by_contra h
    exact not_ok_of_failed (hother ha h) (by decide) ht hr hok
  obtain ⟨t', ht', -, -, honly, -, -, -, -, hslots⟩ := htext ha hc
  obtain rfl := Host.Outcome.next.inj (ht'.symm.trans ht)
  have hconfig : t'.config = s.config := by rw [honly]; rfl
  have hfits : s.fits .text a 4 := ⟨hc, aligned_word_fits (inv_valid hinv) ha hc⟩
  refine ⟨⟨?_, fun k hk => ?_, ?_⟩, hconfig, (inputs_of_next ht).2.1⟩
  · rw [State.fits, hconfig]
    exact hfits
  · obtain ⟨hin, hnat⟩ := inSegment_of_fits hfits hk
    rw [(hslots _ hin).2, if_pos (by omega), hnat, Nat.add_sub_cancel_left]
  · rw [(hslots a (contains_of_classify s.config a .text hc)).1, if_pos rfl]
    rfl

/-- A state after a command of a state with the invariant has it. -/
theorem inv_of_next {i : Instr} {s t : State} (hinv : s.Inv) (h : exec i s = .next t) : t.Inv := by
  obtain ⟨u, r, g, rfl, he, -⟩ := effect_of_next h
  exact inv_answer (he.keeps_inv hinv) r g

/-- Settles O44: a store that answered OK left its bytes in a segment, where each load finds them. -/
theorem loadAfterStore : Obligations.LoadAfterStore := by
  unfold Obligations.LoadAfterStore
  refine ⟨fun s t a v store load n flag r hinv hstore hload ht hr hok hword hhalf hfetch hgate => ?any,
    fun s t a v S hinv ha hc hgate ht => ?setword⟩
  case any =>
    obtain ⟨S, hholds, hconfig, hsmc⟩ : ∃ S, Holds t S a n v ∧ t.config = s.config ∧ t.smcEn = s.smcEn := by
      rcases List.mem_append.1 (show (store, n) ∈ storesOf a v ++ [(.install a v, 4)] from hstore) with hi | hi
      · obtain ⟨S, hcompletes⟩ := completes_of_ok hinv hi ht hr hok
        exact ⟨S, holds_of_completes hinv hi hcompletes ht⟩
      · obtain ⟨rfl, rfl⟩ : store = .install a v ∧ n = 4 := by simpa using hi
        exact ⟨.text, holds_of_install hinv ht hr hok⟩
    rw [← hconfig] at hfetch hgate
    rw [← hsmc] at hgate
    exact load_of_holds (inv_of_next hinv ht) hholds hload hword hhalf hfetch hgate
  case setword =>
    have hcompletes : Completes s (.setword a v) S a 4 v :=
      ⟨fun _ _ => ha, nofun, ⟨hc, aligned_word_fits (inv_valid hinv) ha hc⟩, fun hS => ⟨hgate hS, by omega⟩⟩
    obtain ⟨hholds, hconfig, hsmc⟩ := holds_of_completes hinv (by simp [storesOf]) hcompletes ht
    have hvalue : v.setWidth 64 = BitVec.ofNat 64 (v.toNat % 256 ^ 4) :=
      setWidth_eq_of_bytes (fun _ _ => rfl) fun j hj => BitVec.getLsbD_of_ge v j hj
    rw [hvalue]
    refine load_of_holds (inv_of_next hinv ht) hholds (by simp [readsOf]) (fun _ _ => ha) nofun nofun fun _ htext => ?_
    rw [hconfig] at htext
    rw [hsmc]
    exact hgate (Option.some.inj (hc.symm.trans htext))

end Sys2Proof.Machine

/-! PROOFS. What one observer is told (20_memory.md R74, R75), and the first store-conditional (46_reservation.md R254). -/

namespace Sys2Proof.Machine

/-! ## The observer of one word -/

/-- The stores of a value, with their lengths (20_memory.md R75). -/
def storesWithInstall (b : Addr) (v : Word32) : List (Instr × Nat) :=
  [(.set 1 b v, 1), (.set 2 b v, 2), (.set 4 b v, 4), (.setbyte b v, 1), (.sethalf b (v.setWidth 16), 2),
    (.setword b v, 4), (.install b v, 4), (.setrawword b v, 4)]

/-- Such a store is one of O43's, or INSTALL. -/
theorem storesWithInstall_cases {b : Addr} {v : Word32} {store : Instr} {n : Nat}
    (h : (store, n) ∈ storesWithInstall b v) : (store, n) ∈ storesOf b v ∨ store = .install b v ∧ n = 4 := by
  simp only [storesWithInstall, storesOf, List.mem_cons, Prod.mk.injEq, List.not_mem_nil, or_false] at h ⊢
  rcases h with h | h | h | h | h | h | h | h <;> simp [h]

/-- A completed INSTALL notifies a write of the word (44_memory_access.md R210). -/
theorem notices_of_install_ok {s t : State} {b : Addr} {v : Word32} {r : Response} (hinv : s.Inv)
    (ht : exec (.install b v) s = .next t) (hr : t.rsp = some r) (hok : r.status = .ok) :
    t.notices = [s.noticesOf .write b 4 v] := by
  obtain ⟨hmisaligned, hother, htext⟩ := installs.2 s b v hinv
  have hb : b.toNat % 4 = 0 := by
    by_contra h
    exact not_ok_of_failed (hmisaligned h) (by decide) ht hr hok
  have hc : classify s.config b = some .text := by
    by_contra h
    exact not_ok_of_failed (hother hb h) (by decide) ht hr hok
  obtain ⟨t', ht', -, hnotices, -⟩ := htext hb hc
  obtain rfl := Host.Outcome.next.inj (ht'.symm.trans ht)
  exact hnotices

/-- What a completed store emits: nothing from SETRAWWORD, a write of the bytes stored from the others. -/
theorem notices_of_store_ok {s t : State} {store : Instr} {b : Addr} {n : Nat} {v : Word32} {r : Response} (hinv : s.Inv)
    (hstore : (store, n) ∈ storesWithInstall b v) (ht : exec store s = .next t) (hr : t.rsp = some r)
    (hok : r.status = .ok) : t.notices = storeNotices s store b n v := by
  rcases storesWithInstall_cases hstore with hi | ⟨rfl, rfl⟩
  · obtain ⟨S, hcompletes⟩ := completes_of_ok hinv hi ht hr hok
    obtain ⟨t', -, ht', -, hnotices, -⟩ :=
      stores.2.1 s b v store n S hinv hi hcompletes.word hcompletes.half hcompletes.fits hcompletes.gate
    obtain rfl := Host.Outcome.next.inj (ht'.symm.trans ht)
    exact hnotices
  · rw [notices_of_install_ok hinv ht hr hok, storeNotices, if_neg nofun, ← truncBytes_eq 4 (by decide) v,
      truncBytes_four]

/-- The only observer, of one address, is told of the accesses that start in the word of that address. -/
theorem noticesOf_of_one {s : State} {o : ObserverId} {x : Addr} (hone : s.memory.observers = [⟨o, x, x⟩])
    (hlegal : ∀ r ∈ s.memory.observers, r.legal = true) (kind : AccessKind) (b : Addr) (n : Nat) (v : Word32) :
    s.noticesOf kind b n v =
      if b.toNat / 4 = x.toNat / 4 then [⟨kind, .mem, o, BitVec.ofNat 4 n, b, v⟩] else [] := by
  have hmeets : (∃ p < 4, x.toNat ≤ b.toNat / 4 * 4 + p ∧ b.toNat / 4 * 4 + p ≤ x.toNat) ↔
      b.toNat / 4 = x.toNat / 4 :=
    ⟨fun ⟨p, hp, hlow, hhigh⟩ => by omega, fun h => ⟨x.toNat % 4, by omega, by omega, by omega⟩⟩
  rw [show s.noticesOf kind b n v = memoryNotices s kind b n v from rfl,
    memoryNotices_eq_of_legal s kind b n v hlegal, hone]
  simp only [List.filter_cons, List.filter_nil, hmeets, decide_eq_true_eq]
  split
  · rfl
  · rfl

/-- The registrations after OBSADD1 (45_memory_management.md R235). -/
theorem observers_of_obsadd1 {s t : State} {o : ObserverId} {x : Addr} (hactive : s.active < s.insts.length)
    (ht : exec (.obsadd1 o x) s = .next t) :
    t.memory.observers = insertRising MemObserver.key ⟨o, x, x⟩ s.memory.observers := by
  obtain rfl := Host.Outcome.next.inj ((exec_obsadd1 s o x).symm.trans ht)
  exact congrArg Memory.observers (s.setMemory_memory _ hactive)

/-- Settles O50: OBSADD1 leaves the one registration, and a completed store tells it when it starts in its word. -/
theorem oneWordObserver : Obligations.OneWordObserver := by
  unfold Obligations.OneWordObserver
  intro s t u o x b v store n hinv hnone ht hstore hu hok
  have htinv := inv_of_next hinv ht
  have hone : t.memory.observers = [⟨o, x, x⟩] := by
    rw [observers_of_obsadd1 hinv.active ht, hnone]
    rfl
  obtain ⟨-, -, -, r, hr⟩ := inputs_of_next hu
  rw [notices_of_store_ok htinv hstore hu hr (hok r hr), storeNotices]
  by_cases hraw : store = .setrawword b v
  · simp [hraw]
  · rw [if_neg hraw, noticesOf_of_one hone (inv_memory htinv).observers]
    simp [hraw]

/-! ## The first store-conditional -/

section
variable {s : State} {h : Index} {len : BitVec 4} {w : Width} {a : Addr}

/-- The state after an UNRESERVE that wins: no entry is left that matches it (46_reservation.md R253). -/
def State.withoutMatches (s : State) (a : Addr) (w : Width) : State :=
  State.ends { s with rsv := s.rsv.map fun t => t.filter fun e => !reservationMatches e a w } ⟨.ok, false, true, 0⟩ []

/-- The state after a RESERVE by hart h (46_reservation.md R252). -/
def State.withReservation (s : State) (h : Index) (a : Addr) (w : Width) : State :=
  State.ends { s with rsv := s.rsv.modify h.toNat (addReservation ⟨a, w⟩) } ⟨.ok, false, false, 0⟩ []

variable (hwidth : widthOf len = some w) (ha : a.toNat % len.toNat = 0)
include hwidth ha

/-- An aligned RESERVE by a legal hart records the reservation. -/
theorem exec_reserve_of_aligned (hh : h.toNat < s.rsv.length) :
    exec (.reserve h len a) s = .next (s.withReservation h a w) :=
  onRequest_of_aligned hwidth hh ha

/-- UNRESERVE wins where the hart still holds the reservation. -/
theorem exec_unreserve_of_held (hh : h.toNat < s.rsv.length) (hheld : ⟨a, w⟩ ∈ s.rsv[h.toNat]) :
    exec (.unreserve h len a) s = .next (s.withoutMatches a w) := by
  rw [exec_unreserve, onRequest_of_aligned hwidth hh ha, reservations_eq s h hh]
  exact if_pos (List.any_eq_true.2 ⟨_, hheld, reservationMatches_self a w⟩)

/-- After an UNRESERVE that wins, the same UNRESERVE by any hart fails. -/
theorem exec_unreserve_of_withoutMatches (hh : h.toNat < s.rsv.length) :
    exec (.unreserve h len a) (s.withoutMatches a w) =
      .next ((s.withoutMatches a w).ends ⟨.ok, false, false, 0⟩ []) := by
  have hlen : h.toNat < (s.withoutMatches a w).rsv.length := by
    rw [show (s.withoutMatches a w).rsv = s.rsv.map _ from rfl, List.length_map]
    exact hh
  rw [exec_unreserve, onRequest_of_aligned hwidth hlen ha, reservations_eq _ h hlen]
  refine if_neg ?_
  simp [State.withoutMatches, State.ends]

end

section
variable (s : State) (g h : Index) (a : Addr) (w : Width)

/-- RESERVE keeps the number of harts. -/
@[simp] theorem length_withReservation : (s.withReservation h a w).rsv.length = s.rsv.length :=
  List.length_modify _ _ _

variable {s g h}

/-- A reservation stands in its hart's table after RESERVE. -/
theorem mem_withReservation (hh : h.toNat < (s.withReservation h a w).rsv.length) :
    ⟨a, w⟩ ∈ (s.withReservation h a w).rsv[h.toNat] := by
  simp [State.withReservation, State.ends, mem_addReservation]

/-- RESERVE by one hart keeps the table of another (46_reservation.md R250). -/
theorem getElem_withReservation_ne (hne : g ≠ h) (hg : g.toNat < s.rsv.length) :
    (s.withReservation h a w).rsv[g.toNat]'(by simpa using hg) = s.rsv[g.toNat] :=
  List.getElem_modify_ne _ _ (mt BitVec.eq_of_toNat_eq hne.symm) _

end

/-- Settles O60: the winning UNRESERVE removes the matching reservations of every hart, so the next one finds none. -/
theorem firstStoreConditionalWins : Obligations.FirstStoreConditionalWins := by
  unfold Obligations.FirstStoreConditionalWins
  intro s g h len a hlen ha hg hh
  obtain ⟨w, hwidth⟩ : ∃ w, widthOf len = some w := by
    rcases hlen with rfl | rfl
    · exact ⟨.word, rfl⟩
    · exact ⟨.doubleword, rfl⟩
  have hg₁ : g.toNat < (s.withReservation g a w).rsv.length := by simpa using hg
  have hh₁ : h.toNat < (s.withReservation g a w).rsv.length := by simpa using hh
  have hheld := mem_withReservation a w hg₁
  refine ⟨_, exec_reserve_of_aligned hwidth ha hg, ?same, fun hne => ?two⟩
  case same =>
    exact ⟨_, _, exec_unreserve_of_held hwidth ha hg₁ hheld, rfl, exec_unreserve_of_withoutMatches hwidth ha hg₁, rfl⟩
  case two =>
    have hg₂ : g.toNat < ((s.withReservation g a w).withReservation h a w).rsv.length := by simpa using hg
    have hh₂ : h.toNat < ((s.withReservation g a w).withReservation h a w).rsv.length := by simpa using hh
    rw [← getElem_withReservation_ne a w hne hg₁] at hheld
    exact ⟨_, _, _, exec_reserve_of_aligned hwidth ha hh₁, exec_unreserve_of_held hwidth ha hg₂ hheld, rfl,
      exec_unreserve_of_withoutMatches hwidth ha hh₂, rfl⟩

end Sys2Proof.Machine
